-- ==== Sys2Proof/Word.lean ====
section
/-! DEFINITION. The word and byte types of the engine (spec/00_scope.md R6, R7). -/

namespace Sys2Proof

/-- A word, 32 bits, unsigned (R6 `WORD`, R7). -/
abbrev Word := BitVec 32

/-- A byte, 8 bits, unsigned (R7). -/
abbrev Byte := BitVec 8

/-- The 3-bit field that names a context bank (R20, R91). -/
abbrev BankNo := BitVec 3

end Sys2Proof
end

