-- ==== Sys2Proof/Config.lean ====
section
/-! DEFINITION. The open parameters of the hardware (spec/00_scope.md R6) and the one free value of
the model. The parameters are carried in State (log 4), so a statement about every state holds for
every value of them. -/

namespace Sys2Proof

/-- The three parameters R6 marks OPEN. -/
structure Config where
  /-- `NCTX`, the number of context banks. -/
  nctx : Nat
  /-- `IN_SIZE`, the size in bytes of the host input memory. -/
  inSize : Nat
  /-- `ALG_NAME`, the payload of `NAME`. -/
  algName : List Byte
  deriving DecidableEq, Repr

/-- The ranges R6 gives: `1 ≤ NCTX ≤ 8`, `0 ≤ IN_SIZE ≤ 2^32`, any byte string. -/
abbrev Config.Legal (cfg : Config) : Prop :=
  1 ≤ cfg.nctx ∧ cfg.nctx ≤ 8 ∧ cfg.inSize ≤ 2 ^ 32

/-- DESIGN CHOICE (log 4): the configuration of `State.reset`. The largest `NCTX` and `IN_SIZE`, so
that no command is turned away for the choice, and the name the spec suggests, `"haval"`. -/
def Config.reference : Config :=
  { nctx := 8, inSize := 2 ^ 32, algName := [0x68, 0x61, 0x76, 0x61, 0x6C] }

/-- The FREE VALUE: what the bits of a register are at a moment when the spec calls its content
unspecified (R27, R28, R29; log 7, log 8). `draw` numbers the moment and `index` the register. It
has no body: nothing about it can be proved. -/
opaque Config.freeBits (w draw index : Nat) : BitVec w

end Sys2Proof
end

