-- ==== Sys2Proof/Syntax.lean ====
section
/-! DEFINITION. The thirteen commands with their operands (spec/30_encoding.md R91 to R95, one
constructor per row of spec/opcode_table.json). -/

namespace Sys2Proof

/-- The input descriptor `(P, OFF, LEN)` of a data command (R61, R93): `present` is the flag `P`
(false is the source's null input), `off` and `len` the two extension words. With `P = 0` the two
words are still there and are ignored (R93), so the syntax keeps them. -/
structure Desc where
  present : Bool
  off : Word
  len : Word
  deriving DecidableEq, Repr, Inhabited

/-- A command. Bank numbers are the raw 3-bit fields: that they are `< NCTX` is `Instr.wf`
(Sys2Proof/WellFormed.lean). `hsize` and `rounds` are the raw 8-bit operands `A` and `B`, any value,
since an illegal configuration can be requested (R94). -/
inductive Instr where
  /-- `INIT c, hsize, rounds` (R124). -/
  | init (c : BankNo) (hsize rounds : Byte)
  /-- `INITU c, hsize, rounds, off, len` (R125). -/
  | initu (c : BankNo) (hsize rounds : Byte) (d : Desc)
  /-- `UPD1 c, byte` (R126). -/
  | upd1 (c : BankNo) (byte : Byte)
  /-- `UPDN c, off, len` (R127). -/
  | updn (c : BankNo) (d : Desc)
  /-- `DIGEST c` (R220). -/
  | digest (c : BankNo)
  /-- `RESET c` (R128). -/
  | reset (c : BankNo)
  /-- `CLONE cd, cs`, destination first (R129). -/
  | clone (cd cs : BankNo)
  /-- `BLKSZ` (R130). -/
  | blksz
  /-- `HSZ c` (R131). -/
  | hsz (c : BankNo)
  /-- `NAME` (R132). -/
  | name
  /-- `HASH hsize, rounds, off, len` (R237). -/
  | hash (hsize rounds : Byte) (d : Desc)
  /-- `HEXENC off, len` (R260). -/
  | hexenc (d : Desc)
  /-- `HEXVAL off, len` (R261). -/
  | hexval (d : Desc)
  deriving DecidableEq, Repr

end Sys2Proof
end

