-- ==== Sys2Proof/WellFormed.lean ====
section
/-! DEFINITION. Which commands a machine with `NCTX` banks has: every bank number is `< NCTX`
(spec/30_encoding.md R94, R96 (c)). No other operand is restricted. -/

namespace Sys2Proof

/-- The bank fields of a command that its format marks "free" (R92). -/
def Instr.bankFields : Instr → List BankNo
  | .init c _ _ => [c]
  | .initu c _ _ _ => [c]
  | .upd1 c _ => [c]
  | .updn c _ => [c]
  | .digest c => [c]
  | .reset c => [c]
  | .clone cd cs => [cd, cs]
  | .blksz => []
  | .hsz c => [c]
  | .name => []
  | .hash _ _ _ => []
  | .hexenc _ => []
  | .hexval _ => []

/-- Every bank number is one of the `nctx` banks (R96 (c)). -/
def Instr.wf (nctx : Nat) (i : Instr) : Bool :=
  i.bankFields.all fun c => decide (c.toNat < nctx)

end Sys2Proof
end

