-- ==== Sys2Proof/Decode.lean ====
section
/-! DEFINITION. From command words to commands and back (spec/30_encoding.md R90 to R97, R102). The
decoder is total on every list of words and rejects by name; the encoder is written from the same
fields. -/

namespace Sys2Proof

/-! ### Fields of the command word (R91) -/

/-- `OPC`, bits 31:24. -/
def opcOf (w : Word) : Byte := w.extractLsb' 24 8

/-- `CD`, bits 23:21. -/
def cdOf (w : Word) : BankNo := w.extractLsb' 21 3

/-- `CS`, bits 20:18. -/
def csOf (w : Word) : BankNo := w.extractLsb' 18 3

/-- `P`, bit 17. -/
def pOf (w : Word) : Bool := w.getLsbD 17

/-- `Z`, bit 16. -/
def zOf (w : Word) : Bool := w.getLsbD 16

/-- `A`, bits 15:8. -/
def aOf (w : Word) : Byte := w.extractLsb' 8 8

/-- `B`, bits 7:0. -/
def bOf (w : Word) : Byte := w.extractLsb' 0 8

/-! ### Formats (R92) -/

/-- The nine formats of R92. -/
inductive Format where
  | z | c | cb | cab | cc | cd3 | cabd3 | abd3 | d3
  deriving DecidableEq, Repr

/-- The fields a format marks "free"; every other field must be zero (R92). -/
structure FreeFields where
  cd : Bool
  cs : Bool
  p : Bool
  a : Bool
  b : Bool
  deriving DecidableEq, Repr

/-- The table of R92, one line per format, columns CD, CS, P, A, B. -/
def Format.free : Format → FreeFields
  | .z     => ⟨false, false, false, false, false⟩
  | .c     => ⟨true,  false, false, false, false⟩
  | .cb    => ⟨true,  false, false, false, true⟩
  | .cab   => ⟨true,  false, false, true,  true⟩
  | .cc    => ⟨true,  true,  false, false, false⟩
  | .cd3   => ⟨true,  false, true,  false, false⟩
  | .cabd3 => ⟨true,  false, true,  true,  true⟩
  | .abd3  => ⟨false, false, true,  true,  true⟩
  | .d3    => ⟨false, false, true,  false, false⟩

/-- Every field the format marks "0" is zero, and so is bit 16 (R92, R96 (b)). -/
def FreeFields.admits (f : FreeFields) (w : Word) : Bool :=
  (f.cd || cdOf w == 0) && (f.cs || csOf w == 0) && (f.p || !pOf w) && !zOf w &&
    (f.a || aOf w == 0) && (f.b || bOf w == 0)

/-! ### The opcode map (R95) -/

/-- The thirteen operations of R95. -/
inductive Op where
  | init | initu | upd1 | updn | digest | reset | clone | blksz | hsz | name | hash | hexenc | hexval
  deriving DecidableEq, Repr

/-- The column OPC of R95. -/
def Op.code : Op → Byte
  | .init => 0x01
  | .initu => 0x02
  | .upd1 => 0x03
  | .updn => 0x04
  | .digest => 0x05
  | .reset => 0x06
  | .clone => 0x07
  | .blksz => 0x08
  | .hsz => 0x09
  | .name => 0x0A
  | .hash => 0x0B
  | .hexenc => 0x0C
  | .hexval => 0x0D

/-- The column format of R95. -/
def Op.format : Op → Format
  | .init => .cab
  | .initu => .cabd3
  | .upd1 => .cb
  | .updn => .cd3
  | .digest => .c
  | .reset => .c
  | .clone => .cc
  | .blksz => .z
  | .hsz => .c
  | .name => .z
  | .hash => .abd3
  | .hexenc => .d3
  | .hexval => .d3

/-- The thirteen rows of R95, in its order. -/
def Op.all : List Op :=
  [.init, .initu, .upd1, .updn, .digest, .reset, .clone, .blksz, .hsz, .name, .hash, .hexenc, .hexval]

/-- The row of R95 whose OPC is `b`, if there is one (R96 (a)). -/
def opOf (b : Byte) : Option Op := Op.all.find? fun o => o.code == b

/-! ### Length (R97) -/

/-- The OPC values whose commands are three words long (R97). -/
def longOpcodes : List Byte := [0x02, 0x04, 0x0B, 0x0C, 0x0D]

/-- How many words a command takes, told by OPC alone, legal or reserved (R97, C7). -/
def commandLength (cw : Word) : Nat := if longOpcodes.contains (opcOf cw) then 3 else 1

/-! ### Decoding -/

/-- Why a command word is reserved: the three cases of R96. -/
inductive Reserved where
  /-- R96 (a): OPC is 0x00 or 0x0E to 0xFF. -/
  | opcode
  /-- R96 (b): a field that must be zero is not. -/
  | zeroField
  /-- R96 (c): a bank number is not `< NCTX`. -/
  | bankNumber
  deriving DecidableEq, Repr

/-- What the decoder makes of the words at the command port. -/
inductive Decoded where
  /-- Fewer words than the command's length (R90, R97): no whole command has been handed over. -/
  | incomplete
  /-- A reserved command word, its words consumed (R96, R97). -/
  | reserved (why : Reserved) (rest : List Word)
  /-- A command and the words after it. -/
  | command (i : Instr) (rest : List Word)
  deriving DecidableEq, Repr

/-- The operands of each operation, from the fields of the command word and the extension words
(R92, R93, R94). -/
def buildInstr (op : Op) (cw off len : Word) : Instr :=
  match op with
  | .init => .init (cdOf cw) (aOf cw) (bOf cw)
  | .initu => .initu (cdOf cw) (aOf cw) (bOf cw) ⟨pOf cw, off, len⟩
  | .upd1 => .upd1 (cdOf cw) (bOf cw)
  | .updn => .updn (cdOf cw) ⟨pOf cw, off, len⟩
  | .digest => .digest (cdOf cw)
  | .reset => .reset (cdOf cw)
  | .clone => .clone (cdOf cw) (csOf cw)
  | .blksz => .blksz
  | .hsz => .hsz (cdOf cw)
  | .name => .name
  | .hash => .hash (aOf cw) (bOf cw) ⟨pOf cw, off, len⟩
  | .hexenc => .hexenc ⟨pOf cw, off, len⟩
  | .hexval => .hexval ⟨pOf cw, off, len⟩

/-- Judge a whole command of a machine with `nctx` banks: R96 (a), then (b), then (c). `rest` is what
stands after its words. -/
def judge (nctx : Nat) (cw off len : Word) (rest : List Word) : Decoded :=
  match opOf (opcOf cw) with
  | none => .reserved .opcode rest
  | some op =>
    if op.format.free.admits cw then
      if (buildInstr op cw off len).wf nctx then .command (buildInstr op cw off len) rest
      else .reserved .bankNumber rest
    else .reserved .zeroField rest

/-- Decode the first command of a list of words (R90, R97). -/
def decode (nctx : Nat) : List Word → Decoded
  | [] => .incomplete
  | cw :: rest =>
    if commandLength cw = 1 then judge nctx cw 0 0 rest
    else
      match rest with
      | off :: len :: rest' => judge nctx cw off len rest'
      | _ => .incomplete

/-! ### Encoding -/

/-- A flag as a bit. -/
def bitOf (p : Bool) : BitVec 1 := BitVec.ofBool p

/-- The command word with the given fields, bit 16 zero (R91). -/
def pack (opc : Byte) (cd cs : BankNo) (p : Bool) (a b : Byte) : Word :=
  opc ++ cd ++ cs ++ bitOf p ++ (0 : BitVec 1) ++ a ++ b

/-- The words of a command (R91 to R95). -/
def encode : Instr → List Word
  | .init c hsize rounds => [pack 0x01 c 0 false hsize rounds]
  | .initu c hsize rounds d => [pack 0x02 c 0 d.present hsize rounds, d.off, d.len]
  | .upd1 c byte => [pack 0x03 c 0 false 0 byte]
  | .updn c d => [pack 0x04 c 0 d.present 0 0, d.off, d.len]
  | .digest c => [pack 0x05 c 0 false 0 0]
  | .reset c => [pack 0x06 c 0 false 0 0]
  | .clone cd cs => [pack 0x07 cd cs false 0 0]
  | .blksz => [pack 0x08 0 0 false 0 0]
  | .hsz c => [pack 0x09 c 0 false 0 0]
  | .name => [pack 0x0A 0 0 false 0 0]
  | .hash hsize rounds d => [pack 0x0B 0 0 d.present hsize rounds, d.off, d.len]
  | .hexenc d => [pack 0x0C 0 0 d.present 0 0, d.off, d.len]
  | .hexval d => [pack 0x0D 0 0 d.present 0 0, d.off, d.len]

/-! ### Transport as bytes (R102; log 16) -/

/-- The four bytes of a word, least significant first. -/
def wordBytes (w : Word) : List Byte :=
  [w.extractLsb' 0 8, w.extractLsb' 8 8, w.extractLsb' 16 8, w.extractLsb' 24 8]

/-- The words a string of bytes carries, each least significant byte first; bytes short of a whole
word carry none. -/
def bytesWords : List Byte → List Word
  | b0 :: b1 :: b2 :: b3 :: rest => (b3 ++ b2 ++ b1 ++ b0) :: bytesWords rest
  | _ => []

/-- Decode the first command of a string of bytes. -/
def decodeBytes (nctx : Nat) (bytes : List Byte) : Decoded := decode nctx (bytesWords bytes)

/-! ### The opcode table's numbering -/

/-- The twelve bytes, in transport order, of the longest command whose bits, numbered as
spec/opcode_table.json numbers them, are the low `nbits` bits of `w` and zeros above. -/
def tableBytes (nbits w : Nat) : List Byte :=
  (List.range 12).map fun k => BitVec.ofNat 8 ((w % 2 ^ nbits) >>> (8 * k))

/-- The words of that command: as many as R97 gives its first word. -/
def tableWords (nbits w : Nat) : List Word :=
  match bytesWords (tableBytes nbits w) with
  | [] => []
  | cw :: rest => (cw :: rest).take (commandLength cw)

/-- What the decoder reads from a command whose bits are `w`, with all eight banks that a 3-bit field
can name. -/
def decodeTableWord (nbits w : Nat) : Option Instr :=
  match decodeBytes Config.reference.nctx (tableBytes nbits w) with
  | .command i _ => some i
  | .reserved _ _ => none
  | .incomplete => none

end Sys2Proof
end

