-- ==== Sys2Proof/Machine/Bits.lean ====
section
/-! DEFINITION. The word operators of spec/00_scope.md R8 and R9: rotation, and the little-endian
assembly and serialization of bytes (R65, R66). Addition, `&`, `|`, `^`, `~`, `<<` and `>>` are
BitVec's own. -/

namespace Sys2Proof.Machine

/-- `rotr(a, k)` for `0 < k < 32` (R8): rotation right. -/
def rotr (a : Word) (k : Nat) : Word := (a >>> k) ||| (a <<< (32 - k))

/-- `le32(b0, b1, b2, b3)` (R9): the word with `b0` least significant. -/
def le32 (b0 b1 b2 b3 : Byte) : Word := b3 ++ b2 ++ b1 ++ b0

/-- Byte `k` of a value, `(v >> 8k) & 0xFF` (R66). -/
def byteAt {w : Nat} (v : BitVec w) (k : Nat) : Byte := v.extractLsb' (8 * k) 8

/-- `bytes_le(v, n)` (R9): the `n` low bytes of `v`, least significant first. -/
def bytesLe {w : Nat} (v : BitVec w) (n : Nat) : List Byte := (List.range n).map (byteAt v)

end Sys2Proof.Machine
end

