-- ==== Sys2Proof/Machine/Setup.lean ====
section
/-! DEFINITION. The fifteen configurations (spec/00_scope.md R2, R6): the five digest widths, the three
pass counts, their codes as operands and in `CFG` (spec/10_state.md R22), and `CHECKCFG`
(spec/40_context.md R120) as the one function from raw operands to a legal configuration. -/

namespace Sys2Proof.Machine

/-- `HSIZE`, the digest length: 128, 160, 192, 224 or 256 bits (R2). -/
inductive Width where
  | w128 | w160 | w192 | w224 | w256
  deriving DecidableEq, Repr

/-- `ROUNDS`, the number of passes: 3, 4 or 5 (R2). -/
inductive Passes where
  | three | four | five
  deriving DecidableEq, Repr

/-- A legal configuration of an instance (R2: every combination is valid). -/
structure Setup where
  width : Width
  passes : Passes
  deriving DecidableEq, Repr

/-- `outputSizeBytes` (R2, R6). -/
def Width.bytes : Width → Nat
  | .w128 => 16
  | .w160 => 20
  | .w192 => 24
  | .w224 => 28
  | .w256 => 32

/-- The number of passes (R2, R6). -/
def Passes.count : Passes → Nat
  | .three => 3
  | .four => 4
  | .five => 5

/-- The five legal widths (R2). -/
def Width.all : List Width := [.w128, .w160, .w192, .w224, .w256]

/-- The three legal pass counts (R2). -/
def Passes.all : List Passes := [.three, .four, .five]

/-- The width an 8-bit operand asks for, if it is legal (R120). -/
def widthOf? (hsize : Byte) : Option Width := Width.all.find? fun w => w.bytes == hsize.toNat

/-- The pass count an 8-bit operand asks for, if it is legal (R120). -/
def passesOf? (rounds : Byte) : Option Passes := Passes.all.find? fun r => r.count == rounds.toNat

/-- `CHECKCFG(hsize, rounds)` (R120): the legal configuration, or none where `ConfigurationError` is
raised. Nothing is rounded or clamped. -/
def setupOf? (hsize rounds : Byte) : Option Setup :=
  match widthOf? hsize, passesOf? rounds with
  | some w, some r => some { width := w, passes := r }
  | _, _ => none

/-- The 16 bits of `CFG` that hold a configuration (R22): `HSIZE` 15:8, zero 7:3, `ROUNDS` 2:0. -/
def Setup.cfg (st : Setup) : BitVec 16 :=
  BitVec.ofNat 8 st.width.bytes ++ (0 : BitVec 5) ++ BitVec.ofNat 3 st.passes.count

/-- `CFG.HSIZE`, bits 15:8 (R22). -/
def cfgHsize (cfg : BitVec 16) : Byte := cfg.extractLsb' 8 8

/-- `CFG` bits 7:3, hardwired zero (R22). -/
def cfgZero (cfg : BitVec 16) : BitVec 5 := cfg.extractLsb' 3 5

/-- `CFG.ROUNDS`, bits 2:0 (R22). -/
def cfgRounds (cfg : BitVec 16) : BitVec 3 := cfg.extractLsb' 0 3

/-- The configuration a stored `CFG` holds: none where it is a value that can never be stored (R22). -/
def setupOfCfg? (cfg : BitVec 16) : Option Setup :=
  if cfgZero cfg == 0 then setupOf? (cfgHsize cfg) ((cfgRounds cfg).setWidth 8) else none

end Sys2Proof.Machine
end

