-- ==== Sys2Proof/Machine/Tables.lean ====
section
/-! DEFINITION. The constant tables and the pass functions: the contents of the ROM (spec/42_tables.md;
spec/20_memory.md R64). They are constants of the step relation and no command writes them (R40, R214).
Their entries are the spec's, which marks them as general knowledge (R11). UNVERIFIED (log 13). -/

namespace Sys2Proof.Machine

/-- A pass of the compression, numbered 1 to 5 (R10). -/
inductive Pass where
  | p1 | p2 | p3 | p4 | p5
  deriving DecidableEq, Repr

/-- The number of a pass. -/
def Pass.number : Pass → Nat
  | .p1 => 1
  | .p2 => 2
  | .p3 => 3
  | .p4 => 4
  | .p5 => 5

/-- `IV[0..7]` (R200). -/
def IV : Vector Word 8 :=
  #v[0x243F6A88, 0x85A308D3, 0x13198A2E, 0x03707344, 0xA4093822, 0x299F31D0, 0x082EFA98, 0xEC4E6C89]

/-- `K[0 .. 31]`, the constants of pass 2 (R201). -/
def kRow0 : Vector Word 32 :=
  #v[
    0x452821E6, 0x38D01377, 0xBE5466CF, 0x34E90C6C, 0xC0AC29B7, 0xC97C50DD, 0x3F84D5B5, 0xB5470917,
    0x9216D5D9, 0x8979FB1B, 0xD1310BA6, 0x98DFB5AC, 0x2FFD72DB, 0xD01ADFB7, 0xB8E1AFED, 0x6A267E96,
    0xBA7C9045, 0xF12C7F99, 0x24A19947, 0xB3916CF7, 0x0801F2E2, 0x858EFC16, 0x636920D8, 0x71574E69,
    0xA458FEA3, 0xF4933D7E, 0x0D95748F, 0x728EB658, 0x718BCD58, 0x82154AEE, 0x7B54A41D, 0xC25A59B5]

/-- `K[32 .. 63]`, the constants of pass 3 (R201). -/
def kRow1 : Vector Word 32 :=
  #v[
    0x9C30D539, 0x2AF26013, 0xC5D1B023, 0x286085F0, 0xCA417918, 0xB8DB38EF, 0x8E79DCB0, 0x603A180E,
    0x6C9E0E8B, 0xB01E8A3E, 0xD71577C1, 0xBD314B27, 0x78AF2FDA, 0x55605C60, 0xE65525F3, 0xAA55AB94,
    0x57489862, 0x63E81440, 0x55CA396A, 0x2AAB10B6, 0xB4CC5C34, 0x1141E8CE, 0xA15486AF, 0x7C72E993,
    0xB3EE1411, 0x636FBC2A, 0x2BA9C55D, 0x741831F6, 0xCE5C3E16, 0x9B87931E, 0xAFD6BA33, 0x6C24CF5C]

/-- `K[64 .. 95]`, the constants of pass 4 (R201). -/
def kRow2 : Vector Word 32 :=
  #v[
    0x7A325381, 0x28958677, 0x3B8F4898, 0x6B4BB9AF, 0xC4BFE81B, 0x66282193, 0x61D809CC, 0xFB21A991,
    0x487CAC60, 0x5DEC8032, 0xEF845D5D, 0xE98575B1, 0xDC262302, 0xEB651B88, 0x23893E81, 0xD396ACC5,
    0x0F6D6FF3, 0x83F44239, 0x2E0B4482, 0xA4842004, 0x69C8F04A, 0x9E1F9B5E, 0x21C66842, 0xF6E96C9A,
    0x670C9C61, 0xABD388F0, 0x6A51A0D2, 0xD8542F68, 0x960FA728, 0xAB5133A3, 0x6EEF0B6C, 0x137A3BE4]

/-- `K[96 .. 127]`, the constants of pass 5 (R201). -/
def kRow3 : Vector Word 32 :=
  #v[
    0xBA3BF050, 0x7EFB2A98, 0xA1F1651D, 0x39AF0176, 0x66CA593E, 0x82430E88, 0x8CEE8619, 0x456F9FB4,
    0x7D84A5C3, 0x3B8B5EBE, 0xE06F75D8, 0x85C12073, 0x401A449F, 0x56C16AA6, 0x4ED3AA62, 0x363F7706,
    0x1BFEDF72, 0x429B023D, 0x37D0D724, 0xD00A1248, 0xDB0FEAD3, 0x49F1C09B, 0x075372C9, 0x80991B7B,
    0x25D479D8, 0xF6E8DEF7, 0xE3FE501A, 0xB6794C3B, 0x976CE0BD, 0x04C006BA, 0xC1A94FB6, 0x409F60C4]

/-- The four runs of 32 constants (R201). -/
def kRow : Fin 4 → Vector Word 32
  | 0 => kRow0
  | 1 => kRow1
  | 2 => kRow2
  | 3 => kRow3

/-- `K[i]`, the round-constant ROM (R201). -/
def K (i : Fin 128) : Word :=
  (kRow ⟨i.val / 32, by omega⟩).get ⟨i.val % 32, by omega⟩

/-- The additive constant `C(p, s)` of step `s` of pass `p` (R165): none in pass 1, `K[32(p-2)+s]`
after it. -/
def roundConst (p : Pass) (s : Fin 32) : Word :=
  match p with
  | .p1 => 0
  | .p2 => K ⟨s.val, by omega⟩
  | .p3 => K ⟨32 + s.val, by omega⟩
  | .p4 => K ⟨64 + s.val, by omega⟩
  | .p5 => K ⟨96 + s.val, by omega⟩

/-- `ORD[1]` (R202): the natural order. -/
def ord1 : Vector (Fin 32) 32 :=
  #v[
    0, 1, 2, 3, 4, 5, 6, 7, 8, 9, 10, 11, 12, 13, 14, 15,
    16, 17, 18, 19, 20, 21, 22, 23, 24, 25, 26, 27, 28, 29, 30, 31]

/-- `ORD[2]` (R203). -/
def ord2 : Vector (Fin 32) 32 :=
  #v[
    5, 14, 26, 18, 11, 28, 7, 16, 0, 23, 20, 22, 1, 10, 4, 8,
    30, 3, 21, 9, 17, 24, 29, 6, 19, 12, 15, 13, 2, 25, 31, 27]

/-- `ORD[3]` (R204). -/
def ord3 : Vector (Fin 32) 32 :=
  #v[
    19, 9, 4, 20, 28, 17, 8, 22, 29, 14, 25, 12, 24, 30, 16, 26,
    31, 15, 7, 3, 1, 0, 18, 27, 13, 6, 21, 10, 23, 11, 5, 2]

/-- `ORD[4]` (R205). -/
def ord4 : Vector (Fin 32) 32 :=
  #v[
    24, 4, 0, 14, 2, 7, 28, 23, 26, 6, 30, 20, 18, 25, 19, 3,
    22, 11, 31, 21, 8, 27, 12, 9, 1, 29, 5, 15, 17, 10, 16, 13]

/-- `ORD[5]` (R206). -/
def ord5 : Vector (Fin 32) 32 :=
  #v[
    27, 3, 21, 26, 17, 11, 20, 29, 19, 0, 12, 7, 13, 8, 31, 10,
    5, 9, 14, 30, 18, 6, 28, 24, 2, 23, 16, 22, 4, 1, 25, 15]

/-- `ORD[p][s]`: which block word step `s` of pass `p` adds (R202 to R206). -/
def ORD (p : Pass) (s : Fin 32) : Fin 32 :=
  match p with
  | .p1 => ord1.get s
  | .p2 => ord2.get s
  | .p3 => ord3.get s
  | .p4 => ord4.get s
  | .p5 => ord5.get s

/-! ### The pass functions, arguments in the order `(x6, x5, x4, x3, x2, x1, x0)` -/

/-- `F_1` (R207). -/
def F1 {w : Nat} (x6 x5 x4 x3 x2 x1 x0 : BitVec w) : BitVec w :=
  (x1 &&& x4) ^^^ (x2 &&& x5) ^^^ (x3 &&& x6) ^^^ (x0 &&& x1) ^^^ x0

/-- `F_2` (R208). -/
def F2 {w : Nat} (x6 x5 x4 x3 x2 x1 x0 : BitVec w) : BitVec w :=
  (x1 &&& x2 &&& x3) ^^^ (x2 &&& x4 &&& x5) ^^^ (x1 &&& x2) ^^^ (x1 &&& x4) ^^^ (x2 &&& x6) ^^^
    (x3 &&& x5) ^^^ (x4 &&& x5) ^^^ (x0 &&& x2) ^^^ x0

/-- `F_3` (R209). -/
def F3 {w : Nat} (x6 x5 x4 x3 x2 x1 x0 : BitVec w) : BitVec w :=
  (x1 &&& x2 &&& x3) ^^^ (x1 &&& x4) ^^^ (x2 &&& x5) ^^^ (x3 &&& x6) ^^^ (x0 &&& x3) ^^^ x0

/-- `F_4` (R210). -/
def F4 {w : Nat} (x6 x5 x4 x3 x2 x1 x0 : BitVec w) : BitVec w :=
  (x1 &&& x2 &&& x3) ^^^ (x2 &&& x4 &&& x5) ^^^ (x3 &&& x4 &&& x6) ^^^ (x1 &&& x4) ^^^ (x2 &&& x6) ^^^
    (x3 &&& x4) ^^^ (x3 &&& x5) ^^^ (x3 &&& x6) ^^^ (x4 &&& x5) ^^^ (x4 &&& x6) ^^^ (x0 &&& x4) ^^^ x0

/-- `F_5` (R211). -/
def F5 {w : Nat} (x6 x5 x4 x3 x2 x1 x0 : BitVec w) : BitVec w :=
  (x1 &&& x4) ^^^ (x2 &&& x5) ^^^ (x3 &&& x6) ^^^ (x0 &&& x1 &&& x2 &&& x3) ^^^ (x0 &&& x5) ^^^ x0

/-- `F_p`, chosen by pass number alone (R165). -/
def passFn {w : Nat} (p : Pass) (x6 x5 x4 x3 x2 x1 x0 : BitVec w) : BitVec w :=
  match p with
  | .p1 => F1 x6 x5 x4 x3 x2 x1 x0
  | .p2 => F2 x6 x5 x4 x3 x2 x1 x0
  | .p3 => F3 x6 x5 x4 x3 x2 x1 x0
  | .p4 => F4 x6 x5 x4 x3 x2 x1 x0
  | .p5 => F5 x6 x5 x4 x3 x2 x1 x0

/-! ### The wiring -/

/-- A row of `WIRE`: formal argument `x_j` receives role register `x_{a_j}` (R164, R212). -/
structure Wiring where
  a6 : Fin 8
  a5 : Fin 8
  a4 : Fin 8
  a3 : Fin 8
  a2 : Fin 8
  a1 : Fin 8
  a0 : Fin 8
  deriving DecidableEq, Repr

/-- The passes of a configuration, in order, each with its row `WIRE[r][p]` (R165, R167, R212): twelve
rows in all. -/
def schedule : Passes → List (Pass × Wiring)
  | .three =>
    [(.p1, ⟨1, 0, 3, 5, 6, 2, 4⟩),
     (.p2, ⟨4, 2, 1, 0, 5, 3, 6⟩),
     (.p3, ⟨6, 1, 2, 3, 4, 5, 0⟩)]
  | .four =>
    [(.p1, ⟨2, 6, 1, 4, 5, 3, 0⟩),
     (.p2, ⟨3, 5, 2, 0, 1, 6, 4⟩),
     (.p3, ⟨1, 4, 3, 6, 0, 2, 5⟩),
     (.p4, ⟨6, 4, 0, 5, 2, 1, 3⟩)]
  | .five =>
    [(.p1, ⟨3, 4, 1, 0, 5, 2, 6⟩),
     (.p2, ⟨6, 2, 1, 0, 3, 4, 5⟩),
     (.p3, ⟨2, 6, 0, 4, 3, 1, 5⟩),
     (.p4, ⟨1, 5, 3, 2, 0, 4, 6⟩),
     (.p5, ⟨2, 5, 0, 6, 4, 3, 1⟩)]

end Sys2Proof.Machine
end

