-- ==== Sys2Proof/Machine/Compress.lean ====
section
/-! DEFINITION. The compression of one block, `XFORM`, in the indexed form (spec/41_compress.md R160 to
R168, R173). It is a pure function of the state words, the block and the number of passes. -/

namespace Sys2Proof.Machine

/-- `LOADX(B)` (R161, R65): the block as 32 little-endian words. -/
def loadX (block : Vector Byte 128) : Vector Word 32 :=
  Vector.ofFn fun i : Fin 32 =>
    le32 (block.get ⟨4 * i.val, by omega⟩) (block.get ⟨4 * i.val + 1, by omega⟩)
      (block.get ⟨4 * i.val + 2, by omega⟩) (block.get ⟨4 * i.val + 3, by omega⟩)

/-- `SEED(c)` (R162): `T[j] <- H[j]`. -/
def seed (h : Vector Word 8) : Vector Word 8 := h

/-- The place of role register `x_k` in step `s`: `(k - s) mod 8` (R163). -/
def roleIndex (s : Fin 32) (k : Fin 8) : Fin 8 := k - Fin.ofNat 8 s.val

/-- The role register `x_k` in step `s` (R163). -/
def role (t : Vector Word 8) (s : Fin 32) (k : Fin 8) : Word := t.get (roleIndex s k)

/-- `Q`, the value of the pass function on the wired role registers (R164). `x k` is `x_k`. -/
def wired (p : Pass) (w : Wiring) (x : Fin 8 → Word) : Word :=
  passFn p (x w.a6) (x w.a5) (x w.a4) (x w.a3) (x w.a2) (x w.a1) (x w.a0)

/-- The value `t` a step writes, from the role registers, the block word and the constant (R166). -/
def mixValue (p : Pass) (w : Wiring) (x : Fin 8 → Word) (word constant : Word) : Word :=
  rotr (wired p w x) 7 + rotr (x 7) 11 + word + constant

/-- `STEP(r, p, s)` (R166): it replaces the register in role 7. -/
def mixStep (p : Pass) (w : Wiring) (x : Vector Word 32) (t : Vector Word 8) (s : Fin 32) :
    Vector Word 8 :=
  t.set (roleIndex s 7) (mixValue p w (role t s) (x.get (ORD p s)) (roundConst p s))

/-- A pass: steps 0 to 31 in order (R167). -/
def mixPass (x : Vector Word 32) (t : Vector Word 8) (pw : Pass × Wiring) : Vector Word 8 :=
  (List.finRange 32).foldl (mixStep pw.1 pw.2 x) t

/-- The passes 1 to `r` in order, with no re-seeding between them (R167). -/
def mixAll (r : Passes) (x : Vector Word 32) (t : Vector Word 8) : Vector Word 8 :=
  (schedule r).foldl (mixPass x) t

/-- `FEED(c)` (R168): `H[j] <- H[j] + T[j]`. -/
def feedForward (h t : Vector Word 8) : Vector Word 8 := Vector.zipWith (· + ·) h t

/-- The new state words `XFORM` gives (R160, R173). -/
def compress (r : Passes) (h : Vector Word 8) (block : Vector Byte 128) : Vector Word 8 :=
  feedForward h (mixAll r (loadX block) (seed h))

end Sys2Proof.Machine
end

