-- ==== Sys2Proof/Machine/State.lean ====
section
/-! DEFINITION. The state of the engine, all that spec/10_state.md and spec/20_memory.md give it, as
plain data; its value after power-on reset; and the reasons a step can stop. -/

namespace Sys2Proof.Machine

/-- The registers of one context bank (R20, R30 numbers 0 to 12). -/
structure Bank where
  /-- `VALID` (R26): the bank holds a constructed instance. -/
  valid : Bool
  /-- `CFG` (R22): `HSIZE` in bits 15:8, zero in 7:3, `ROUNDS` in 2:0. -/
  cfg : BitVec 16
  /-- `H[0..7]` (R21). -/
  h : Vector Word 8
  /-- `COUNT` (R23): bytes fed since the initial state, modulo 2^64. -/
  count : BitVec 64
  /-- `BUFLEN` (R24): valid bytes of `BUF`. -/
  buflen : BitVec 8
  /-- `BUF[0..127]` (R24). -/
  buf : Vector Byte 128
  deriving DecidableEq, Repr

/-- `SEQ.PHASE` (R36). -/
inductive Phase where
  | idle | load | seed | mix | feed
  deriving DecidableEq, Repr

/-- The coding of `SEQ.PHASE` in 3 bits (R36). -/
def Phase.code : Phase → BitVec 3
  | .idle => 0
  | .load => 1
  | .seed => 2
  | .mix => 3
  | .feed => 4

/-- The sequencer `SEQ` (R36): 3 + 3 + 5 bits. -/
structure Seq where
  phase : Phase
  /-- `SEQ.PASS`: the pass being executed in the MIX phase. -/
  pass : BitVec 3
  /-- `SEQ.STEP`: the step being executed in the MIX phase. -/
  step : BitVec 5
  deriving DecidableEq, Repr

/-- The registers of the engine, shared by all banks (R27, R28, R36). -/
structure Engine where
  /-- `T[0..7]`, the working registers (R27). -/
  t : Vector Word 8
  /-- `X[0..31]`, the block words (R28). -/
  x : Vector Word 32
  /-- `SEQ` (R36). -/
  seq : Seq
  /-- The model's own: how many times free values were drawn (log 7). No rule and no statement rests
  on its value. -/
  fresh : Nat
  deriving DecidableEq, Repr

/-- A memory: address and byte pairs, addresses rising, no entry equal to what an unlisted address
reads as (Sys2Proof/Machine/Ops.lean, `Memory.wf`). -/
abbrev Memory := List Host.Cell

/-- The response of a command (R98): `ERR`, `VAL`, and `DATA` (the `OUT` space, R63) with its length
`DLEN`. `DATA` has the length R63 and R98 give each command; the bound `max(32, 2*LEN)` of R60's table,
which HASH of a short input and a long `ALG_NAME` exceed, is not imposed. DESIGN CHOICE (log 22). -/
structure Response where
  err : BitVec 8
  val : Word
  data : List Byte
  deriving DecidableEq, Repr

/-- The state of the machine. The first four fields are the hardware's; `inSize` and `algName` are
its open parameters with `NCTX` the length of `banks` (log 4); `port` and `resp` are the host's side
of the command interface (log 1). -/
structure State where
  /-- The context banks 0 to NCTX-1 (R20). -/
  banks : List Bank
  /-- The engine's registers. -/
  engine : Engine
  /-- The scratch bank `S` of `HASH` (R29). -/
  scratch : Bank
  /-- `IN`, the host input memory (R61). -/
  input : Memory
  /-- `IN_SIZE` (R6). -/
  inSize : Nat
  /-- `ALG_NAME` (R6). -/
  algName : List Byte
  /-- The command words handed over by the host and not yet taken, first first (R90). -/
  port : List Word
  /-- The response the last step returned; none if it ran no command (R98). -/
  resp : Option Response
  deriving DecidableEq, Repr

/-- Why a step stops with a fault. -/
inductive Fault where
  /-- Raised by UPD1, UPDN and DIGEST on a bank with `VALID = 1` whose `CFG` holds a value that R22
  says can never be stored, or whose `BUFLEN` is outside the precondition of `APPEND` (R24, R123).
  Safe: no run reaches such a state (`State.Inv`), and the spec gives it no effect (log 9). -/
  | impossibleBank
  deriving DecidableEq, Repr

/-- Why a step is refused. -/
inductive Refusal where
  /-- An instruction that has no meaning yet; raised by no arm of this model. Safe. -/
  | notModelled (mnemonic : String)
  deriving DecidableEq, Repr

/-! ### Reset -/

/-- A bank after power-on: `VALID = 0` (R38); every other register is unspecified there and zero in
the model. DESIGN CHOICE (log 5). -/
def Bank.powerOn : Bank :=
  { valid := false
    cfg := 0
    h := Vector.replicate 8 0
    count := 0
    buflen := 0
    buf := Vector.replicate 128 0 }

/-- The engine's registers after power-on: `SEQ.PHASE = IDLE` (R38); the rest is unspecified there and
zero in the model. DESIGN CHOICE (log 5). -/
def Engine.powerOn : Engine :=
  { t := Vector.replicate 8 0
    x := Vector.replicate 32 0
    seq := { phase := .idle, pass := 0, step := 0 }
    fresh := 0 }

/-- A machine of the given configuration right after power-on reset (R38, R310, R312). `IN` is the
host's and unspecified there (log 6); the port is empty and no response has been returned (log 1). -/
def State.powerOn (cfg : Config) : State :=
  { banks := List.replicate cfg.nctx Bank.powerOn
    engine := Engine.powerOn
    scratch := Bank.powerOn
    input := []
    inSize := cfg.inSize
    algName := cfg.algName
    port := []
    resp := none }

/-- The state right after reset, with the configuration of log 4. -/
def State.reset : State := State.powerOn Config.reference

/-! ### The parameters as the state carries them -/

/-- `NCTX` (R6): how many banks there are. -/
def State.nctx (s : State) : Nat := s.banks.length

/-- The three open parameters of a machine (R6), which no step changes. -/
def State.config (s : State) : Config :=
  { nctx := s.nctx, inSize := s.inSize, algName := s.algName }

end Sys2Proof.Machine
end

