-- ==== Sys2Proof/Machine/Flags.lean ====
section
/-! DEFINITION. What stands in the place of flags (spec/10_state.md R33): the hardware has no condition
codes, and no command writes a flag. A command reports its outcome in `ERR` alone (spec/60_exceptions.md
R280), and the only conditions it tests are the character test of `HEXVAL` (spec/44_hexcodec.md R262)
and the full-buffer test of `APPEND` (spec/40_context.md R123). -/

namespace Sys2Proof.Machine

/-- The five error conditions (R280). -/
inductive Err where
  /-- R281. -/
  | configuration
  /-- R282. -/
  | invalidInput
  /-- R284. -/
  | format
  /-- R285. -/
  | illegalCommand
  /-- R286. -/
  | noInstance
  deriving DecidableEq, Repr

/-- The column `ERR` of R280. -/
def Err.code : Err → BitVec 8
  | .configuration => 1
  | .invalidInput => 2
  | .format => 3
  | .illegalCommand => 4
  | .noInstance => 5

/-- The order in which errors are reported when several apply, first first (R287). -/
def Err.priority : List Err := [.illegalCommand, .noInstance, .configuration, .invalidInput, .format]

/-- `ISHEX(ch)` (R262): the 22 characters `0`-`9`, `a`-`f`, `A`-`F`. -/
def isHex (ch : Byte) : Bool :=
  (0x30 ≤ ch && ch ≤ 0x39) || (0x61 ≤ ch && ch ≤ 0x66) || (0x41 ≤ ch && ch ≤ 0x46)

/-- `c.BUFLEN = 128`: the buffer holds a whole block (R123). -/
def bufferFull (buflen : BitVec 8) : Bool := buflen == 128

end Sys2Proof.Machine
end

