-- ==== Sys2Proof/Machine/Ops.lean ====
section
/-! DEFINITION. The named operations over the state that the commands share: the input memory, the
banks, the initial instance state, the response and the error response, the free values, and taking
the next command from the port; and the host's actions between commands. -/

namespace Sys2Proof.Machine

/-! ### The input memory `IN` (spec/20_memory.md R61) -/

/-- What an unlisted byte of `IN` reads as. The spec leaves the content of `IN` to the host. DESIGN
CHOICE (log 6). -/
def Memory.unlisted : Byte := 0

/-- The byte at an address. -/
def Memory.read : Memory → Nat → Byte
  | [], _ => Memory.unlisted
  | (k, b) :: m, a => if k = a then b else Memory.read m a

/-- The entry for a byte, if it is to be listed. -/
def Memory.cell (a : Nat) (b : Byte) : Memory := if b = Memory.unlisted then [] else [(a, b)]

/-- Write a byte, keeping the canonical form. -/
def Memory.write : Memory → Nat → Byte → Memory
  | [], a, b => Memory.cell a b
  | (k, c) :: m, a, b =>
    if a < k then Memory.cell a b ++ (k, c) :: m
    else if a = k then Memory.cell a b ++ m
    else (k, c) :: Memory.write m a b

/-- The canonical form: addresses strictly rising, and no entry equal to what an unlisted address
reads as. -/
abbrev Memory.wf (m : Memory) : Prop :=
  m.Pairwise (fun p q => p.1 < q.1) ∧ ∀ p ∈ m, p.2 ≠ Memory.unlisted

/-- `MemRead(IN, a, n)` (R9): the `n` bytes from address `a`, lowest address first. -/
def Memory.readRange (m : Memory) (a n : Nat) : List Byte :=
  (List.range n).map fun i => Memory.read m (a + i)

/-- Write a list of bytes at rising addresses. -/
def Memory.writeList (m : Memory) (a : Nat) : List Byte → Memory
  | [] => m
  | b :: bs => Memory.writeList (Memory.write m a b) (a + 1) bs

/-! ### The banks (R20) -/

/-- Bank number `c`, if there is one: none where `c ≥ NCTX`. -/
def State.bank? (s : State) (c : BankNo) : Option Bank := s.banks[c.toNat]?

/-- Replace the registers of bank `c`. -/
def State.setBank (s : State) (c : BankNo) (b : Bank) : State :=
  { s with banks := s.banks.set c.toNat b }

/-- Replace the registers of the engine. -/
def State.setEngine (s : State) (e : Engine) : State := { s with engine := e }

/-- `CTXRESET(c)` (spec/40_context.md R122): the initial instance state, `CFG` and `VALID` kept. -/
def Bank.ctxReset (b : Bank) : Bank :=
  { b with
    h := IV
    count := 0
    buflen := 0
    buf := Vector.replicate 128 0 }

/-- `c.CFG.HSIZE <- hsize; c.CFG.ROUNDS <- rounds; CTXRESET(c)` (R124, R125, R237). -/
def Bank.configure (b : Bank) (st : Setup) : Bank := { b with cfg := st.cfg }.ctxReset

/-- The bank a construction leaves before any byte is fed (R124): configured, reset, `VALID = 1`. -/
def Bank.construct (b : Bank) (st : Setup) : Bank := { b.configure st with valid := true }

/-! ### The response (spec/30_encoding.md R98) -/

/-- A successful response. -/
def Response.ok (val : Word) (data : List Byte) : Response := { err := 0, val := val, data := data }

/-- An error response: `VAL = 0`, `DATA` empty (R98, R283). -/
def Response.error (e : Err) : Response := { err := e.code, val := 0, data := [] }

/-- The state with the response a command returns. -/
def State.answer (s : State) (r : Response) : State := { s with resp := some r }

/-- `respond(VAL = val, DATA = data)` (R9): the command ends successfully. -/
def respond (val : Word) (data : List Byte) (s : State) : Host.Outcome State Fault Refusal :=
  .next (s.answer (Response.ok val data))

/-- `raise E` (spec/60_exceptions.md R283, R289): taking an exception. The command ends, no state of
the hardware changes, and the response carries the code of `e`. Nothing is saved and control goes
nowhere, so there is nothing to return from: the hardware has no return operation (R290). -/
def raise (e : Err) (s : State) : Host.Outcome State Fault Refusal :=
  .next (s.answer (Response.error e))

/-! ### Registers whose content is unspecified: free values (log 7, log 8) -/

/-- The engine's registers after a compression: `SEQ` is IDLE (R36, R37), and `T`, `X` and the pass and
step of `SEQ` are unspecified until the next one (R27, R28). -/
def Engine.retire (e : Engine) : Engine :=
  { t := Vector.ofFn fun j : Fin 8 => Config.freeBits 32 e.fresh j.val
    x := Vector.ofFn fun i : Fin 32 => Config.freeBits 32 e.fresh (8 + i.val)
    seq :=
      { phase := .idle
        pass := Config.freeBits 3 e.fresh 40
        step := Config.freeBits 5 e.fresh 41 }
    fresh := e.fresh + 1 }

/-- The registers of the scratch bank between two `HASH` commands, unspecified (R29, U2). -/
def Bank.unspecified (draw : Nat) : Bank :=
  { valid := (Config.freeBits 1 draw 0).getLsbD 0
    cfg := Config.freeBits 16 draw 1
    h := Vector.ofFn fun j : Fin 8 => Config.freeBits 32 draw (2 + j.val)
    count := Config.freeBits 64 draw 10
    buflen := Config.freeBits 8 draw 11
    buf := Vector.ofFn fun i : Fin 128 => Config.freeBits 8 draw (12 + i.val) }

/-- The state after `HASH` is done with the scratch bank and the engine. -/
def State.retireScratch (s : State) (e : Engine) : State :=
  { s with
    scratch := Bank.unspecified e.fresh
    engine := { e with fresh := e.fresh + 1 } }

/-! ### The command port (R90) -/

/-- The next command of the port, as the decoder of this machine's `NCTX` reads it. -/
def State.fetch (s : State) : Decoded := decode s.nctx s.port

/-- The state with the command's words consumed. -/
def State.consume (s : State) (rest : List Word) : State := { s with port := rest }

/-- A step without a whole command at the port: the engine is idle, all state retained
(spec/60_exceptions.md R294), and returns no response. DESIGN CHOICE for a port that holds part of a
command (log 3). -/
def State.idle (s : State) : State := { s with resp := none }

/-! ### The host's actions between commands (R61, R90, R100, R310) -/

/-- The host hands over command words. They wait at the port until a step takes them, so the host can
write `IN` in between, which R316 forbids: the step reads `IN` as it is then. DESIGN CHOICE (log 21). -/
def State.hostIssue (s : State) (words : List Word) : State := { s with port := s.port ++ words }

/-- The host writes a byte of `IN`; there is no byte at or above `IN_SIZE` (R60), and a write there does
nothing. DESIGN CHOICE (log 18). -/
def State.hostWrite (s : State) (a : Nat) (b : Byte) : State :=
  if a < s.inSize then { s with input := Memory.write s.input a b } else s

/-- The host writes bytes of `IN` from offset `off` (R100, `.in`). -/
def State.hostPlace (s : State) (off : Nat) : List Byte → State
  | [] => s
  | b :: bs => (s.hostWrite off b).hostPlace (off + 1) bs

/-- The host drives the power-on reset (R38, R310): the machine of the same configuration right after
reset, every register at its reset value. DESIGN CHOICE (log 17). -/
def State.hostReset (s : State) : State := State.powerOn s.config

end Sys2Proof.Machine
end

