-- ==== Sys2Proof/Machine/Buffer.lean ====
section
/-! DEFINITION. Feeding bytes to a bank: `XFORM` on a bank's registers (spec/41_compress.md R160) and
`APPEND` (spec/40_context.md R123). The copying path only (spec/20_memory.md R79; log 10). -/

namespace Sys2Proof.Machine

/-- `XFORM(c, c.BUF[0 .. 127])` with `r` passes (R160): `H` gets the compressed state; of the engine's
registers `SEQ` is IDLE again and the rest unspecified. Nothing else is written. -/
def xform (r : Passes) (be : Bank × Engine) : Bank × Engine :=
  ({ be.1 with h := compress r be.1.h be.1.buf }, be.2.retire)

/-- `c.BUF[c.BUFLEN] <- b; c.BUFLEN <- c.BUFLEN + 1; c.COUNT <- c.COUNT + 1` (R123). -/
def Bank.store (b : Bank) (byte : Byte) : Bank :=
  { b with
    buf := b.buf.setIfInBounds b.buflen.toNat byte
    buflen := b.buflen + 1
    count := b.count + 1 }

/-- `c.BUFLEN <- 0` and the buffer cleared (R123). -/
def Bank.clearBuffer (b : Bank) : Bank := { b with buflen := 0, buf := Vector.replicate 128 0 }

/-- `APPEND(c, b)` (R123): the block is compressed in the same `APPEND` that stores its last byte. -/
def append (r : Passes) (be : Bank × Engine) (byte : Byte) : Bank × Engine :=
  if bufferFull (be.1.store byte).buflen then
    ((xform r (be.1.store byte, be.2)).1.clearBuffer, (xform r (be.1.store byte, be.2)).2)
  else (be.1.store byte, be.2)

/-- `APPEND` of each byte, first to last. -/
def feed (r : Passes) (bytes : List Byte) (be : Bank × Engine) : Bank × Engine :=
  bytes.foldl (append r) be

end Sys2Proof.Machine
end

