-- ==== Sys2Proof/Machine/Operands.lean ====
section
/-! DEFINITION. Every operand form (spec/30_encoding.md R94) with the check the spec makes on it: the
bank number, the bank with an instance (`BANK`), the configuration operands (`CHECKCFG`), the input
descriptor (`CHECKIN`). Each either raises its error or hands the operand's value to the rest of the
command, so every command makes its checks before its first write (spec/60_exceptions.md R283). -/

namespace Sys2Proof.Machine

/-- The bank number of a command that does not need an instance there: `≥ NCTX` is `IllegalCommand`
(R96 (c), R285). The decoder never yields such a number. DEDUCED (log 12). -/
def withSlot (c : BankNo) (s : State) (k : Bank → Host.Outcome State Fault Refusal) :
    Host.Outcome State Fault Refusal :=
  match s.bank? c with
  | none => raise .illegalCommand s
  | some b => k b

/-- `BANK(c)` (spec/40_context.md R136): the bank must hold an instance, else `NoInstance`. -/
def withInstance (c : BankNo) (s : State) (k : Bank → Host.Outcome State Fault Refusal) :
    Host.Outcome State Fault Refusal :=
  withSlot c s fun b => if b.valid then k b else raise .noInstance s

/-- `CHECKCFG(hsize, rounds)` (R120). -/
def withSetup (hsize rounds : Byte) (s : State) (k : Setup → Host.Outcome State Fault Refusal) :
    Host.Outcome State Fault Refusal :=
  match setupOf? hsize rounds with
  | none => raise .configuration s
  | some st => k st

/-- The descriptor names a present input inside `IN` (R121, R62); the sum is of natural numbers. -/
def descAdmitted (d : Desc) (inSize : Nat) : Bool :=
  d.present && decide (d.off.toNat + d.len.toNat ≤ inSize)

/-- The bytes of `IN` a descriptor names, lowest address first (R61, R69). -/
def State.inputBytes (s : State) (d : Desc) : List Byte :=
  Memory.readRange s.input d.off.toNat d.len.toNat

/-- `CHECKIN(P, OFF, LEN)` (R121), then the bytes named. -/
def withInput (d : Desc) (s : State) (k : List Byte → Host.Outcome State Fault Refusal) :
    Host.Outcome State Fault Refusal :=
  if descAdmitted d s.inSize then k (s.inputBytes d) else raise .invalidInput s

/-- The configuration of a bank whose registers can take bytes: `CFG` legal (R22) and `BUFLEN` within
the precondition of `APPEND` (R24, R123). -/
def Bank.ready? (b : Bank) : Option Setup :=
  if b.buflen.toNat < 128 then setupOfCfg? b.cfg else none

/-- The configuration of a bank about to be fed. A valid bank always has one (`State.Inv`); where the
registers hold values the spec says cannot occur, it gives no effect and the model faults (log 9). -/
def withReady (b : Bank) (k : Setup → Host.Outcome State Fault Refusal) :
    Host.Outcome State Fault Refusal :=
  match b.ready? with
  | none => .fault .impossibleBank
  | some st => k st

end Sys2Proof.Machine
end

