-- ==== Sys2Proof/Machine/Context.lean ====
section
/-! DEFINITION. The context commands: INIT, INITU, UPD1, UPDN, RESET, CLONE, BLKSZ, HSZ, NAME
(spec/40_context.md R124 to R132). -/

namespace Sys2Proof.Machine

/-- `INIT c, hsize, rounds` (R124). The bank need not be valid and is replaced. -/
def execInit (c : BankNo) (hsize rounds : Byte) (s : State) : Host.Outcome State Fault Refusal :=
  withSlot c s fun b =>
  withSetup hsize rounds s fun st =>
  respond 0 [] (s.setBank c (b.construct st))

/-- Feed bytes to bank `c`, given its registers `b`, leave the result there and respond. -/
def feedBank (c : BankNo) (r : Passes) (bytes : List Byte) (b : Bank) (s : State) :
    Host.Outcome State Fault Refusal :=
  respond 0 [] ((s.setEngine (feed r bytes (b, s.engine)).2).setBank c (feed r bytes (b, s.engine)).1)

/-- `INITU c, hsize, rounds, off, len` (R125): the configuration is checked first, then the input, and
nothing is written before both. -/
def execInitu (c : BankNo) (hsize rounds : Byte) (d : Desc) (s : State) :
    Host.Outcome State Fault Refusal :=
  withSlot c s fun b =>
  withSetup hsize rounds s fun st =>
  withInput d s fun bytes =>
  feedBank c st.passes bytes (b.construct st) s

/-- `UPD1 c, byte` (R126). -/
def execUpd1 (c : BankNo) (byte : Byte) (s : State) : Host.Outcome State Fault Refusal :=
  withInstance c s fun b =>
  withReady b fun st =>
  feedBank c st.passes [byte] b s

/-- `UPDN c, off, len` (R127). -/
def execUpdn (c : BankNo) (d : Desc) (s : State) : Host.Outcome State Fault Refusal :=
  withInstance c s fun b =>
  withInput d s fun bytes =>
  withReady b fun st =>
  feedBank c st.passes bytes b s

/-- `RESET c` (R128). -/
def execReset (c : BankNo) (s : State) : Host.Outcome State Fault Refusal :=
  withInstance c s fun b =>
  respond 0 [] (s.setBank c b.ctxReset)

/-- `CLONE cd, cs` (R129): every register of the source, and `VALID = 1`. Both bank numbers are judged
before the source's instance (R287). -/
def execClone (cd cs : BankNo) (s : State) : Host.Outcome State Fault Refusal :=
  withSlot cd s fun _ =>
  withInstance cs s fun src =>
  respond 0 [] (s.setBank cd { src with valid := true })

/-- `BLKSZ` (R130). -/
def execBlksz (s : State) : Host.Outcome State Fault Refusal := respond 128 [] s

/-- `HSZ c` (R131). -/
def execHsz (c : BankNo) (s : State) : Host.Outcome State Fault Refusal :=
  withInstance c s fun b =>
  respond ((cfgHsize b.cfg).setWidth 32) [] s

/-- `NAME` (R132). -/
def execName (s : State) : Host.Outcome State Fault Refusal := respond 0 s.algName s

end Sys2Proof.Machine
end

