-- ==== Sys2Proof/Machine/HexCodec.lean ====
section
/-! DEFINITION. The hex codec: HEXENC, HEXVAL and the digit alphabet (spec/44_hexcodec.md R260 to
R262). There is no decode command (R263). -/

namespace Sys2Proof.Machine

/-- `DIGIT(v)` (R262): `0`-`9`, `a`-`f`. -/
def hexDigit (v : BitVec 4) : Byte :=
  if v.toNat ≤ 9 then 0x30 + v.setWidth 8 else 0x61 + (v.setWidth 8 - 10)

/-- `HEX(bytes)` (R262): two digits per byte, most significant nibble first. -/
def hexOf (bytes : List Byte) : List Byte :=
  bytes.flatMap fun b => [hexDigit (b.extractLsb' 4 4), hexDigit (b.extractLsb' 0 4)]

/-- `HEXENC off, len` (R260). -/
def execHexenc (d : Desc) (s : State) : Host.Outcome State Fault Refusal :=
  withInput d s fun bytes =>
  respond 0 (hexOf bytes) s

/-- `HEXVAL off, len` (R261): even length and hex digits only, else `FormatError`. -/
def execHexval (d : Desc) (s : State) : Host.Outcome State Fault Refusal :=
  withInput d s fun bytes =>
  if d.len.toNat % 2 = 1 then raise .format s
  else if bytes.all isHex then respond 0 [] s
  else raise .format s

end Sys2Proof.Machine
end

