-- ==== Sys2Proof/Machine/Padding.lean ====
section
/-! DEFINITION. The padding, the tailoring and the serialization of the finalizer (spec/43_finalize.md
R221 to R234). -/

namespace Sys2Proof.Machine

/-- `PAD_MARKER` (R222, R6). -/
def padMarker : Byte := 0x01

/-- `VERSION` (R2, R6). -/
def version : Nat := 1

/-- `padLen(n)` (R221, with `PAD_THRESHOLD = 118`): from the marker to the last zero byte. -/
def padLen (n : Nat) : Nat := if n < 118 then 118 - n else 246 - n

/-- `digestBits` (R224). -/
def Width.digestBits (w : Width) : Nat := w.bytes * 8

/-- Trailer byte 1 (R224). -/
def trailer1 (st : Setup) : Byte :=
  BitVec.ofNat 8
    (((st.width.digestBits &&& 0x3) <<< 6) ||| ((st.passes.count &&& 0x7) <<< 3) ||| (version &&& 0x7))

/-- Trailer byte 2 (R225). -/
def trailer2 (st : Setup) : Byte := BitVec.ofNat 8 (st.width.digestBits >>> 2)

/-- The bit count, `(COUNT * 8) mod 2^64` (R226). DEDUCED where it does not fit 64 bits (log 11). -/
def bitCount (count : BitVec 64) : BitVec 64 := count * 8

/-- `PADBYTES(COUNT, hs, r)` (R227): marker, zero fill, the two trailer bytes, the length field. -/
def padBytes (count : BitVec 64) (st : Setup) : List Byte :=
  padMarker :: List.replicate (padLen (count.toNat % 128) - 1) 0 ++
    [trailer1 st, trailer2 st] ++ bytesLe (bitCount count) 8

/-- Tailoring to 128 bits (R229). The four formulas are the spec's, which marks them as general
knowledge. UNVERIFIED (log 13). -/
def tailor128 (h : Vector Word 8) : Vector Word 8 :=
  #v[h[0] + rotr ((h[7] &&& 0x000000FF) ||| (h[6] &&& 0xFF000000) ||| (h[5] &&& 0x00FF0000) ||| (h[4] &&& 0x0000FF00)) 8,
     h[1] + rotr ((h[7] &&& 0x0000FF00) ||| (h[6] &&& 0x000000FF) ||| (h[5] &&& 0xFF000000) ||| (h[4] &&& 0x00FF0000)) 16,
     h[2] + rotr ((h[7] &&& 0x00FF0000) ||| (h[6] &&& 0x0000FF00) ||| (h[5] &&& 0x000000FF) ||| (h[4] &&& 0xFF000000)) 24,
     h[3] + ((h[7] &&& 0xFF000000) ||| (h[6] &&& 0x00FF0000) ||| (h[5] &&& 0x0000FF00) ||| (h[4] &&& 0x000000FF)),
     h[4], h[5], h[6], h[7]]

/-- Tailoring to 160 bits (R230). -/
def tailor160 (h : Vector Word 8) : Vector Word 8 :=
  #v[h[0] + rotr ((h[7] &&& 0x0000003F) ||| (h[6] &&& 0xFE000000) ||| (h[5] &&& 0x01F80000)) 19,
     h[1] + rotr ((h[7] &&& 0x00000FC0) ||| (h[6] &&& 0x0000003F) ||| (h[5] &&& 0xFE000000)) 25,
     h[2] + ((h[7] &&& 0x0007F000) ||| (h[6] &&& 0x00000FC0) ||| (h[5] &&& 0x0000003F)),
     h[3] + (((h[7] &&& 0x01F80000) ||| (h[6] &&& 0x0007F000) ||| (h[5] &&& 0x00000FC0)) >>> 6),
     h[4] + (((h[7] &&& 0xFE000000) ||| (h[6] &&& 0x01F80000) ||| (h[5] &&& 0x0007F000)) >>> 12),
     h[5], h[6], h[7]]

/-- Tailoring to 192 bits (R231). -/
def tailor192 (h : Vector Word 8) : Vector Word 8 :=
  #v[h[0] + rotr ((h[7] &&& 0x0000001F) ||| (h[6] &&& 0xFC000000)) 26,
     h[1] + ((h[7] &&& 0x000003E0) ||| (h[6] &&& 0x0000001F)),
     h[2] + (((h[7] &&& 0x0000FC00) ||| (h[6] &&& 0x000003E0)) >>> 5),
     h[3] + (((h[7] &&& 0x001F0000) ||| (h[6] &&& 0x0000FC00)) >>> 10),
     h[4] + (((h[7] &&& 0x03E00000) ||| (h[6] &&& 0x001F0000)) >>> 16),
     h[5] + (((h[7] &&& 0xFC000000) ||| (h[6] &&& 0x03E00000)) >>> 21),
     h[6], h[7]]

/-- Tailoring to 224 bits (R232). -/
def tailor224 (h : Vector Word 8) : Vector Word 8 :=
  #v[h[0] + ((h[7] >>> 27) &&& 0x1F),
     h[1] + ((h[7] >>> 22) &&& 0x1F),
     h[2] + ((h[7] >>> 18) &&& 0x0F),
     h[3] + ((h[7] >>> 13) &&& 0x1F),
     h[4] + ((h[7] >>> 9) &&& 0x0F),
     h[5] + ((h[7] >>> 4) &&& 0x1F),
     h[6] + (h[7] &&& 0x0F),
     h[7]]

/-- `TAILOR(H, hs)` (R228; R233 for 256 bits, which folds nothing). -/
def tailor (w : Width) (h : Vector Word 8) : Vector Word 8 :=
  match w with
  | .w128 => tailor128 h
  | .w160 => tailor160 h
  | .w192 => tailor192 h
  | .w224 => tailor224 h
  | .w256 => h

/-- `SERIALIZE(D, hs)` (R234): the retained words in rising order, each least significant byte first. -/
def serialize (w : Width) (d : Vector Word 8) : List Byte :=
  (d.toList.take (w.bytes / 4)).flatMap fun v => bytesLe v 4

/-- The digest bytes of a final state: `SERIALIZE(TAILOR(H, hs), hs)` (R220, R237). -/
def digestBytes (w : Width) (h : Vector Word 8) : List Byte := serialize w (tailor w h)

end Sys2Proof.Machine
end

