-- ==== Sys2Proof/Machine/Finalize.lean ====
section
/-! DEFINITION. Finalization: DIGEST and HASH (spec/43_finalize.md R220, R235, R237). -/

namespace Sys2Proof.Machine

/-- A bank and the engine after the padding of the bank's message has been fed (R220). The padding is
computed from `COUNT` as it is before. -/
def padded (st : Setup) (be : Bank × Engine) : Bank × Engine :=
  feed st.passes (padBytes be.1.count st) be

/-- `DIGEST c` (R220, R235): the bank ends in the initial instance state. -/
def execDigest (c : BankNo) (s : State) : Host.Outcome State Fault Refusal :=
  withInstance c s fun b =>
  withReady b fun st =>
  respond 0 (digestBytes st.width (padded st (b, s.engine)).1.h)
    ((s.setEngine (padded st (b, s.engine)).2).setBank c (padded st (b, s.engine)).1.ctxReset)

/-- The scratch bank and the engine of a `HASH` after the message and its padding (R237). -/
def hashed (st : Setup) (bytes : List Byte) (s : State) : Bank × Engine :=
  padded st (feed st.passes bytes (s.scratch.configure st, s.engine))

/-- `HASH hsize, rounds, off, len` (R237): no numbered bank is read or written. -/
def execHash (hsize rounds : Byte) (d : Desc) (s : State) : Host.Outcome State Fault Refusal :=
  withSetup hsize rounds s fun st =>
  withInput d s fun bytes =>
  respond 0 (hexOf (digestBytes st.width (hashed st bytes s).1.h))
    (s.retireScratch (hashed st bytes s).2)

end Sys2Proof.Machine
end

