-- ==== Sys2Proof/Machine/Dispatch.lean ====
section
/-! DEFINITION. The dispatch of a command to its meaning, one arm per constructor of Instr. -/

namespace Sys2Proof.Machine

def exec (i : Instr) (s : State) : Host.Outcome State Fault Refusal :=
  match i with
  | .init c hsize rounds => Sys2Proof.Machine.execInit c hsize rounds s
  | .initu c hsize rounds d => Sys2Proof.Machine.execInitu c hsize rounds d s
  | .upd1 c byte => Sys2Proof.Machine.execUpd1 c byte s
  | .updn c d => Sys2Proof.Machine.execUpdn c d s
  | .digest c => Sys2Proof.Machine.execDigest c s
  | .reset c => Sys2Proof.Machine.execReset c s
  | .clone cd cs => Sys2Proof.Machine.execClone cd cs s
  | .blksz => Sys2Proof.Machine.execBlksz s
  | .hsz c => Sys2Proof.Machine.execHsz c s
  | .name => Sys2Proof.Machine.execName s
  | .hash hsize rounds d => Sys2Proof.Machine.execHash hsize rounds d s
  | .hexenc d => Sys2Proof.Machine.execHexenc d s
  | .hexval d => Sys2Proof.Machine.execHexval d s

end Sys2Proof.Machine
end

