-- ==== Sys2Proof/Machine/Step.lean ====
section
/-! DEFINITION. One step: the engine takes the next whole command from the port, executes it to
completion and returns one response (spec/30_encoding.md R90; spec/20_memory.md R70). -/

namespace Sys2Proof.Machine

/-- One step. The hardware has no program counter (spec/10_state.md R35): the next command is the one
the host hands over next. A reserved word raises `IllegalCommand` and its words are consumed (R96,
R97). -/
def step (s : State) : Host.Outcome State Fault Refusal :=
  match s.fetch with
  | .incomplete => .next s.idle
  | .reserved _ rest => raise .illegalCommand (s.consume rest)
  | .command i rest => exec i (s.consume rest)

/-- The state with the command whose bits are `w`, numbered as spec/opcode_table.json numbers them,
next at the port: exactly the command's own words (R97) before any words already there. This stands
for the host's handing over that command (log 2). -/
def State.withFetchWord (s : State) (nbits w : Nat) : State :=
  { s with port := tableWords nbits w ++ s.port }

end Sys2Proof.Machine
end

