-- ==== Sys2Proof/Machine/Assembler.lean ====
section
/-! DEFINITION. Command listings (spec/30_encoding.md R99, R100): each line of a listing with the words
it encodes by the formula of R91, what a listing hands to the machine, and the text of a line, printed
and read (log 19, log 20). -/

namespace Sys2Proof.Machine

/-- The input operands of a line: `off, len`, or the word `NULL` (R99). -/
inductive AsmInput where
  | null
  | at (off len : Word)
  deriving DecidableEq, Repr

/-- A line of a listing: a command with its operands in the order of R99, or the directive `.in`
(R100). -/
inductive AsmLine where
  | init (c : BankNo) (hsize rounds : Byte)
  | initu (c : BankNo) (hsize rounds : Byte) (input : AsmInput)
  | upd1 (c : BankNo) (byte : Byte)
  | updn (c : BankNo) (input : AsmInput)
  | digest (c : BankNo)
  | reset (c : BankNo)
  | clone (cd cs : BankNo)
  | blksz
  | hsz (c : BankNo)
  | name
  | hash (hsize rounds : Byte) (input : AsmInput)
  | hexenc (input : AsmInput)
  | hexval (input : AsmInput)
  | dotIn (off : Nat) (bytes : List Byte)
  deriving DecidableEq, Repr

/-- `CW = OPC*2^24 + CD*2^21 + CS*2^18 + P*2^17 + Z*2^16 + A*2^8 + B` with `Z = 0` (R91). -/
def asmWord (opc cd cs p a b : Nat) : Word :=
  BitVec.ofNat 32 (opc * 2 ^ 24 + cd * 2 ^ 21 + cs * 2 ^ 18 + p * 2 ^ 17 + a * 2 ^ 8 + b)

/-- The flag `P` of the input operands (R99). -/
def AsmInput.flag : AsmInput → Nat
  | .null => 0
  | .at _ _ => 1

/-- The extension words of the input operands: zero for `NULL` (R99). -/
def AsmInput.words : AsmInput → List Word
  | .null => [0, 0]
  | .at off len => [off, len]

/-- The words a line encodes, the table of R99; `.in` produces no command (R100). -/
def AsmLine.words : AsmLine → List Word
  | .init c hsize rounds => [asmWord 1 c.toNat 0 0 hsize.toNat rounds.toNat]
  | .initu c hsize rounds i => asmWord 2 c.toNat 0 i.flag hsize.toNat rounds.toNat :: i.words
  | .upd1 c byte => [asmWord 3 c.toNat 0 0 0 byte.toNat]
  | .updn c i => asmWord 4 c.toNat 0 i.flag 0 0 :: i.words
  | .digest c => [asmWord 5 c.toNat 0 0 0 0]
  | .reset c => [asmWord 6 c.toNat 0 0 0 0]
  | .clone cd cs => [asmWord 7 cd.toNat cs.toNat 0 0 0]
  | .blksz => [asmWord 8 0 0 0 0 0]
  | .hsz c => [asmWord 9 c.toNat 0 0 0 0]
  | .name => [asmWord 10 0 0 0 0 0]
  | .hash hsize rounds i => asmWord 11 0 0 i.flag hsize.toNat rounds.toNat :: i.words
  | .hexenc i => asmWord 12 0 0 i.flag 0 0 :: i.words
  | .hexval i => asmWord 13 0 0 i.flag 0 0 :: i.words
  | .dotIn _ _ => []

/-- The input descriptor of the input operands (R93, R99). -/
def AsmInput.desc : AsmInput → Desc
  | .null => ⟨false, 0, 0⟩
  | .at off len => ⟨true, off, len⟩

/-- The command of a line. -/
def AsmLine.instr? : AsmLine → Option Instr
  | .init c hsize rounds => some (.init c hsize rounds)
  | .initu c hsize rounds i => some (.initu c hsize rounds i.desc)
  | .upd1 c byte => some (.upd1 c byte)
  | .updn c i => some (.updn c i.desc)
  | .digest c => some (.digest c)
  | .reset c => some (.reset c)
  | .clone cd cs => some (.clone cd cs)
  | .blksz => some .blksz
  | .hsz c => some (.hsz c)
  | .name => some .name
  | .hash hsize rounds i => some (.hash hsize rounds i.desc)
  | .hexenc i => some (.hexenc i.desc)
  | .hexval i => some (.hexval i.desc)
  | .dotIn _ _ => none

/-- A text of ASCII characters alone. -/
def isAscii (text : List Char) : Bool := text.all fun ch => decide (ch.toNat < 128)

/-- The ASCII bytes of a text, no terminator (R100). The spec gives no byte for a character outside
ASCII: it gets its code modulo 256 here, and no line of a listing that holds one in its text is read
(`readBytes?`). DESIGN CHOICE (log 20). -/
def asciiBytes (text : String) : List Byte := text.toList.map fun ch => BitVec.ofNat 8 ch.toNat

/-- What a line hands to the machine: its words to the port, or its bytes to `IN`. -/
def AsmLine.issue (s : State) : AsmLine → State
  | .dotIn off bytes => s.hostPlace off bytes
  | l => s.hostIssue l.words

/-- A whole listing, first line first. No step happens meanwhile, so every `.in` is in place before the
first command runs (R100); where two give the same byte, the later holds. DESIGN CHOICE (log 20). -/
def issueListing (s : State) (lines : List AsmLine) : State := lines.foldl AsmLine.issue s

/-- Numbers as a listing writes them, decimal (R99). -/
def asmOperands (operands : List Nat) : String := String.intercalate ", " (operands.map toString)

/-- The input operands as a listing writes them after other operands. -/
def AsmInput.text : AsmInput → String
  | .null => "NULL"
  | .at off len => asmOperands [off.toNat, len.toNat]

/-- The text of a line (R99, R100). A `.in` of no bytes is printed with the empty text, since R100 has no
form without bytes (log 20). -/
def AsmLine.text : AsmLine → String
  | .init c hsize rounds => "INIT " ++ asmOperands [c.toNat, hsize.toNat, rounds.toNat]
  | .initu c hsize rounds i => "INITU " ++ asmOperands [c.toNat, hsize.toNat, rounds.toNat] ++ ", " ++ i.text
  | .upd1 c byte => "UPD1 " ++ asmOperands [c.toNat, byte.toNat]
  | .updn c i => "UPDN " ++ asmOperands [c.toNat] ++ ", " ++ i.text
  | .digest c => "DIGEST " ++ asmOperands [c.toNat]
  | .reset c => "RESET " ++ asmOperands [c.toNat]
  | .clone cd cs => "CLONE " ++ asmOperands [cd.toNat, cs.toNat]
  | .blksz => "BLKSZ"
  | .hsz c => "HSZ " ++ asmOperands [c.toNat]
  | .name => "NAME"
  | .hash hsize rounds i => "HASH " ++ asmOperands [hsize.toNat, rounds.toNat] ++ ", " ++ i.text
  | .hexenc i => "HEXENC " ++ i.text
  | .hexval i => "HEXVAL " ++ i.text
  | .dotIn off [] => ".in " ++ asmOperands [off] ++ ", \"\""
  | .dotIn off (byte :: bytes) => ".in " ++ asmOperands (off :: byte.toNat :: bytes.map BitVec.toNat)

/-! ### Reading the text of a line (R99, R100) -/

/-- What a line of text is. -/
inductive AsmRead where
  /-- Nothing but blanks and a comment. -/
  | blank
  | line (l : AsmLine)
  /-- Not a line of the syntax of R99 and R100. -/
  | bad
  deriving DecidableEq, Repr

/-- The text before the comment: up to a `;` outside quotes. R99 says that a `;` starts a comment and
R100 takes a quoted text as its bytes; that a `;` between quotes starts none is the model's. DESIGN
CHOICE (log 23). -/
def dropComment (quoted : Bool) : List Char → List Char
  | [] => []
  | ch :: rest =>
    if ch = ';' ∧ quoted = false then []
    else ch :: dropComment (if ch = '"' then !quoted else quoted) rest

/-- The operands of a line: what stands between commas outside quotes. That a comma between quotes
separates nothing is the model's. DESIGN CHOICE (log 23). -/
def splitOperands (quoted : Bool) (operand : List Char) : List Char → List (List Char)
  | [] => [operand.reverse]
  | ch :: rest =>
    if ch = ',' ∧ quoted = false then operand.reverse :: splitOperands quoted [] rest
    else splitOperands (if ch = '"' then !quoted else quoted) (ch :: operand) rest

/-- A text without the blanks around it. -/
def trimBlanks (text : List Char) : List Char :=
  ((text.dropWhile Char.isWhitespace).reverse.dropWhile Char.isWhitespace).reverse

/-- The value of a digit, decimal or hexadecimal. -/
def digitValue? (base : Nat) (ch : Char) : Option Nat :=
  let v :=
    if '0' ≤ ch ∧ ch ≤ '9' then ch.toNat - 48
    else if 'a' ≤ ch ∧ ch ≤ 'f' then ch.toNat - 87
    else if 'A' ≤ ch ∧ ch ≤ 'F' then ch.toNat - 55
    else base
  if v < base then some v else none

/-- The value of a string of digits, given the value of the digits before it. -/
def digitsValue? (base acc : Nat) : List Char → Option Nat
  | [] => some acc
  | ch :: rest => (digitValue? base ch).bind fun v => digitsValue? base (base * acc + v) rest

/-- A number, decimal or `0x` hexadecimal (R99). The `x` is small, the digits of either case, leading
zeros allowed. DESIGN CHOICE (log 20). -/
def readNumber? : List Char → Option Nat
  | [] => none
  | '0' :: 'x' :: ch :: rest => digitsValue? 16 0 (ch :: rest)
  | ch :: rest => digitsValue? 10 0 (ch :: rest)

/-- A number that fits a field of `w` bits (R94). -/
def readField? (w : Nat) (text : List Char) : Option (BitVec w) :=
  (readNumber? text).bind fun n => if n < 2 ^ w then some (BitVec.ofNat w n) else none

/-- The input operands: `off, len`, or `NULL` (R99). -/
def readInput? : List (List Char) → Option AsmInput
  | [text] => if text = "NULL".toList then some .null else none
  | [off, len] => (readField? 32 off).bind fun o => (readField? 32 len).map fun n => .at o n
  | _ => none

/-- The bytes of `.in`: a text in quotes, or numbers (R100). R100 does not say what a text is that holds
a character outside ASCII or a quotation mark, nor an offset with neither a text nor a byte after it:
none of these is a line of the syntax here; the empty text is no bytes. DESIGN CHOICE (log 20). -/
def readBytes? (operands : List (List Char)) : Option (List Byte) :=
  match operands with
  | [] => none
  | ['"' :: text] =>
    if text.getLast? = some '"' ∧ isAscii text ∧ '"' ∉ text.dropLast then
      some (asciiBytes (String.ofList text.dropLast))
    else none
  | _ => operands.mapM (readField? 8)

/-- A line from its mnemonic and its operands, the table of R99 and the directive of R100. A bare command
word in the place of a mnemonic, as program P4 of spec/95_test_vectors.md has one, is in neither and is
no line here. DESIGN CHOICE (log 23). -/
def readLine? (mnemonic : List Char) (operands : List (List Char)) : Option AsmLine :=
  match String.ofList mnemonic, operands with
  | "INIT", [c, a, b] =>
    (readField? 3 c).bind fun c => (readField? 8 a).bind fun a => (readField? 8 b).map fun b => .init c a b
  | "INITU", c :: a :: b :: input =>
    (readField? 3 c).bind fun c => (readField? 8 a).bind fun a => (readField? 8 b).bind fun b =>
      (readInput? input).map fun i => .initu c a b i
  | "UPD1", [c, b] => (readField? 3 c).bind fun c => (readField? 8 b).map fun b => .upd1 c b
  | "UPDN", c :: input => (readField? 3 c).bind fun c => (readInput? input).map fun i => .updn c i
  | "DIGEST", [c] => (readField? 3 c).map .digest
  | "RESET", [c] => (readField? 3 c).map .reset
  | "CLONE", [cd, cs] => (readField? 3 cd).bind fun cd => (readField? 3 cs).map fun cs => .clone cd cs
  | "BLKSZ", [[]] => some .blksz
  | "HSZ", [c] => (readField? 3 c).map .hsz
  | "NAME", [[]] => some .name
  | "HASH", a :: b :: input =>
    (readField? 8 a).bind fun a => (readField? 8 b).bind fun b =>
      (readInput? input).map fun i => .hash a b i
  | "HEXENC", input => (readInput? input).map .hexenc
  | "HEXVAL", input => (readInput? input).map .hexval
  | ".in", off :: bytes => (readNumber? off).bind fun off => (readBytes? bytes).map fun bs => .dotIn off bs
  | _, _ => none

/-- Read a line of text (R99, R100). Mnemonics and `NULL` are read in the capitals of R99 only, and blanks
around an operand count for nothing. DESIGN CHOICE (log 20). -/
def readText (text : String) : AsmRead :=
  match trimBlanks (dropComment false text.toList) with
  | [] => .blank
  | body =>
    match readLine? (body.takeWhile fun ch => !ch.isWhitespace)
        ((splitOperands false [] (body.dropWhile fun ch => !ch.isWhitespace)).map trimBlanks) with
    | some l => .line l
    | none => .bad

end Sys2Proof.Machine
end

