-- ==== Sys2Proof/Machine/ListForm.lean ====
section
/-! DEFINITION. `XFORM` in the source's rotating-list form (spec/41_compress.md R170). The commands use
the indexed form (Compress.lean); that the two agree is R169, stated in the obligations. -/

namespace Sys2Proof.Machine

/-- Rotate a list of eight left by one: `(L[1], L[2], …, L[7], L[0])`. -/
def rotateLeft (l : Vector Word 8) : Vector Word 8 := Vector.ofFn fun i => l.get (i + 1)

/-- Rotate a list of eight right by one. -/
def rotateRight (l : Vector Word 8) : Vector Word 8 := Vector.ofFn fun i => l.get (i - 1)

/-- The seed: reverse order, then rotate left by one (R170). -/
def listSeed (h : Vector Word 8) : Vector Word 8 := rotateLeft h.reverse

/-- The role `x_k` in the list: `x_{6-i} = L[i]` and `x_7 = L[7]` (R170). -/
def listRole (l : Vector Word 8) (k : Fin 8) : Word := l.get (6 - k)

/-- One step: `t` into slot 7, then rotate left by one (R170, C4). -/
def listStep (p : Pass) (w : Wiring) (x : Vector Word 32) (l : Vector Word 8) (s : Fin 32) :
    Vector Word 8 :=
  rotateLeft (l.set 7 (mixValue p w (listRole l) (x.get (ORD p s)) (roundConst p s)))

/-- A pass of 32 steps. -/
def listPass (x : Vector Word 32) (l : Vector Word 8) (pw : Pass × Wiring) : Vector Word 8 :=
  (List.finRange 32).foldl (listStep pw.1 pw.2 x) l

/-- The new state words in the list form: after the last step rotate right by one, reverse, and add to
`H` word by word (R170). -/
def listCompress (r : Passes) (h : Vector Word 8) (block : Vector Byte 128) : Vector Word 8 :=
  feedForward h (rotateRight ((schedule r).foldl (listPass (loadX block)) (listSeed h))).reverse

end Sys2Proof.Machine
end

