-- ==== Sys2Proof/Machine/Sequencer.lean ====
section
/-! DEFINITION. `XFORM` one sequencer position at a time (spec/10_state.md R36, R37): what `SEQ`, `X` and
`T` hold while a block is compressed. The commands use the whole compression (Compress.lean); that the
sequencer's walk computes it is stated in the obligations. -/

namespace Sys2Proof.Machine

/-- Where `SEQ` goes from a position, with round count `r` (R37). -/
def seqNext (r : Passes) (q : Seq) : Seq :=
  match q.phase with
  | .idle => { q with phase := .load }
  | .load => { q with phase := .seed }
  | .seed => { phase := .mix, pass := 1, step := 0 }
  | .mix =>
    if q.step = 31 then
      if q.pass.toNat = r.count then { q with phase := .feed, step := 0 }
      else { phase := .mix, pass := q.pass + 1, step := 0 }
    else { q with step := q.step + 1 }
  | .feed => { q with phase := .idle }

/-- The pass and wiring row of pass number `p` of a configuration with `r` passes (R165). -/
def scheduleRow (r : Passes) (p : Nat) : Option (Pass × Wiring) := (schedule r)[p - 1]?

/-- What the position `SEQ` holds does to `H`, `X` and `T` (R160): LOADX, SEED, STEP or FEED. -/
def seqWork (r : Passes) (block : Vector Byte 128) (he : Vector Word 8 × Engine) :
    Vector Word 8 × Engine :=
  match he.2.seq.phase with
  | .idle => he
  | .load => (he.1, { he.2 with x := loadX block })
  | .seed => (he.1, { he.2 with t := seed he.1 })
  | .mix =>
    match scheduleRow r he.2.seq.pass.toNat with
    | none => he
    | some pw =>
      (he.1, { he.2 with t := mixStep pw.1 pw.2 he.2.x he.2.t ⟨he.2.seq.step.toNat, he.2.seq.step.isLt⟩ })
  | .feed => (feedForward he.1 he.2.t, he.2)

/-- One position of the walk: do its work, then advance `SEQ`. -/
def seqTick (r : Passes) (block : Vector Byte 128) (he : Vector Word 8 × Engine) :
    Vector Word 8 × Engine :=
  ((seqWork r block he).1,
    { (seqWork r block he).2 with seq := seqNext r (seqWork r block he).2.seq })

/-- `n` positions of the walk. -/
def seqRun (r : Passes) (block : Vector Byte 128) : Nat → Vector Word 8 × Engine → Vector Word 8 × Engine
  | 0, he => he
  | n + 1, he => seqRun r block n (seqTick r block he)

end Sys2Proof.Machine
end

