-- ==== Sys2Proof/Safety.lean ====
section
/-! DEFINITION. What counts as a safe state and a safe run, in the terms the claims use: the invariant of
the machine, what the host can observe, runs of commands, and which registers a command names and
writes. -/

namespace Sys2Proof.Machine

/-! ### The invariant -/

/-- A constructed bank is as spec/10_state.md says it is at every command boundary: `CFG` legal (R22),
`BUFLEN ≤ 127` (R24) and `BUFLEN = COUNT mod 128` (R25). -/
abbrev Bank.Ok (b : Bank) : Prop :=
  (setupOfCfg? b.cfg).isSome = true ∧ b.buflen.toNat < 128 ∧ b.buflen.toNat = b.count.toNat % 128

/-- The invariant at every command boundary: the parameters are in their ranges (R6), `IN` is in
canonical form and inside `IN_SIZE` (R60), `SEQ` is IDLE (R36), and every constructed bank is `Ok`. -/
abbrev State.Inv (s : State) : Prop :=
  s.config.Legal ∧ Memory.wf s.input ∧ (∀ p ∈ s.input, p.1 < s.inSize) ∧
    s.engine.seq.phase = .idle ∧ ∀ b ∈ s.banks, b.valid = true → b.Ok

/-! ### What the host can observe (R31) -/

/-- Two banks the host cannot tell apart: both without an instance, or both with one, with the same
`CFG`, `H`, `COUNT`, `BUFLEN` and the same `BUF[0 .. BUFLEN-1]`. -/
def Bank.SameVisible (a b : Bank) : Prop :=
  a.valid = b.valid ∧
    (a.valid = true →
      a.cfg = b.cfg ∧ a.h = b.h ∧ a.count = b.count ∧ a.buflen = b.buflen ∧
        ∀ i : Fin 128, i.val < a.buflen.toNat → a.buf.get i = b.buf.get i)

/-- Two states the host cannot tell apart: the same parameters, the same bytes of `IN`, the same
commands handed over, and banks that differ only where R31 says nothing is observable. `T`, `X`, `SEQ`
and the scratch bank may differ. -/
def State.SameVisible (s t : State) : Prop :=
  s.inSize = t.inSize ∧ s.algName = t.algName ∧ s.port = t.port ∧
    (∀ a : Nat, a < s.inSize → Memory.read s.input a = Memory.read t.input a) ∧
    List.Forall₂ Bank.SameVisible s.banks t.banks

/-! ### Runs of commands -/

/-- The state after a list of commands, each executed to completion; none where one stops. -/
def runCommands : List Instr → State → Option State
  | [], s => some s
  | i :: is, s =>
    match exec i s with
    | .next t => runCommands is t
    | .fault _ => none
    | .refused _ => none

/-- The responses of a list of commands, first first; none where one stops. -/
def responses : List Instr → State → Option (List (Option Response))
  | [], _ => some []
  | i :: is, s =>
    match exec i s with
    | .next t => (responses is t).map (t.resp :: ·)
    | .fault _ => none
    | .refused _ => none

/-- The state after `n` steps of the engine; none where one stops. -/
def runSteps : Nat → State → Option State
  | 0, s => some s
  | n + 1, s =>
    match step s with
    | .next t => runSteps n t
    | .fault _ => none
    | .refused _ => none

/-- A state that some history of the machine leads to: from power-on with any legal parameters, through
steps of the engine and actions of the host in any order, writes of `IN` between the issue of a command
and its step among them (R316 forbids them; log 21). -/
inductive Reachable : State → Prop where
  | powerOn (cfg : Config) : cfg.Legal → Reachable (State.powerOn cfg)
  | step (s t : State) : Reachable s → step s = .next t → Reachable t
  | issue (s : State) (words : List Word) : Reachable s → Reachable (s.hostIssue words)
  | write (s : State) (a : Nat) (b : Byte) : Reachable s → Reachable (s.hostWrite a b)
  | reset (s : State) : Reachable s → Reachable s.hostReset

/-! ### The commands on one bank (R75, R135) -/

/-- The commands that name one bank and act on it alone. -/
inductive BankCommand where
  | init (hsize rounds : Byte)
  | initu (hsize rounds : Byte) (d : Desc)
  | upd1 (byte : Byte)
  | updn (d : Desc)
  | digest
  | reset
  | hsz
  deriving DecidableEq, Repr

/-- Such a command, naming bank `c`. -/
def BankCommand.on (c : BankNo) : BankCommand → Instr
  | .init hsize rounds => .init c hsize rounds
  | .initu hsize rounds d => .initu c hsize rounds d
  | .upd1 byte => .upd1 c byte
  | .updn d => .updn c d
  | .digest => .digest c
  | .reset => .reset c
  | .hsz => .hsz c

/-- The bytes a feeding command hands to its bank (R126, R127). -/
def BankCommand.fedBytes (s : State) : BankCommand → List Byte
  | .init _ _ => []
  | .initu _ _ _ => []
  | .upd1 byte => [byte]
  | .updn d => s.inputBytes d
  | .digest => []
  | .reset => []
  | .hsz => []

/-- The commands that feed bytes and are admitted: UPD1, and UPDN with a present input inside `IN`
(R126, R127). -/
def BankCommand.feeds (s : State) : BankCommand → Bool
  | .init _ _ => false
  | .initu _ _ _ => false
  | .upd1 _ => true
  | .updn d => descAdmitted d s.inSize
  | .digest => false
  | .reset => false
  | .hsz => false

end Sys2Proof.Machine

namespace Sys2Proof

/-! ### What a command names, writes and checks -/

/-- The banks a command may write. -/
def Instr.writesBank : Instr → List BankNo
  | .init c _ _ => [c]
  | .initu c _ _ _ => [c]
  | .upd1 c _ => [c]
  | .updn c _ => [c]
  | .digest c => [c]
  | .reset c => [c]
  | .clone cd _ => [cd]
  | .blksz => []
  | .hsz _ => []
  | .name => []
  | .hash _ _ _ => []
  | .hexenc _ => []
  | .hexval _ => []

/-- The commands that may compress a block, and so use the engine's registers. -/
def Instr.usesEngine : Instr → Bool
  | .init _ _ _ => false
  | .initu _ _ _ _ => true
  | .upd1 _ _ => true
  | .updn _ _ => true
  | .digest _ => true
  | .reset _ => false
  | .clone _ _ => false
  | .blksz => false
  | .hsz _ => false
  | .name => false
  | .hash _ _ _ => true
  | .hexenc _ => false
  | .hexval _ => false

/-! ### Which errors apply (R280, R287) -/

/-- The bank a command checks for an instance (R286). -/
def Instr.needsBank? : Instr → Option BankNo
  | .init _ _ _ => none
  | .initu _ _ _ _ => none
  | .upd1 c _ => some c
  | .updn c _ => some c
  | .digest c => some c
  | .reset c => some c
  | .clone _ cs => some cs
  | .blksz => none
  | .hsz c => some c
  | .name => none
  | .hash _ _ _ => none
  | .hexenc _ => none
  | .hexval _ => none

/-- The configuration operands of a command (R281). -/
def Instr.setupOperands? : Instr → Option (Byte × Byte)
  | .init _ hsize rounds => some (hsize, rounds)
  | .initu _ hsize rounds _ => some (hsize, rounds)
  | .upd1 _ _ => none
  | .updn _ _ => none
  | .digest _ => none
  | .reset _ => none
  | .clone _ _ => none
  | .blksz => none
  | .hsz _ => none
  | .name => none
  | .hash hsize rounds _ => some (hsize, rounds)
  | .hexenc _ => none
  | .hexval _ => none

/-- The input descriptor of a command (R282). -/
def Instr.desc? : Instr → Option Desc
  | .init _ _ _ => none
  | .initu _ _ _ d => some d
  | .upd1 _ _ => none
  | .updn _ d => some d
  | .digest _ => none
  | .reset _ => none
  | .clone _ _ => none
  | .blksz => none
  | .hsz _ => none
  | .name => none
  | .hash _ _ d => some d
  | .hexenc d => some d
  | .hexval d => some d

/-- The descriptor of a command that checks its input as a hex string (R284). -/
def Instr.hexDesc? : Instr → Option Desc
  | .init _ _ _ => none
  | .initu _ _ _ _ => none
  | .upd1 _ _ => none
  | .updn _ _ => none
  | .digest _ => none
  | .reset _ => none
  | .clone _ _ => none
  | .blksz => none
  | .hsz _ => none
  | .name => none
  | .hash _ _ _ => none
  | .hexenc _ => none
  | .hexval d => some d

end Sys2Proof
end

