-- ==== Sys2Proof/Certificates/Slice0/Obligations.lean ====
section
/-! DEFINITION. The statements for the provers, from the numbered rules of spec/. Numbers in them (codes,
masks, lengths) are written out from the rules, not taken from the model. -/

namespace Sys2Proof.Claims

open Sys2Proof.Machine

/-! ### Vocabulary -/

/-- The column match of spec/30_encoding.md R95. -/
def rowMatch : Op → Word
  | .init => 0x01000000
  | .initu => 0x02000000
  | .upd1 => 0x03000000
  | .updn => 0x04000000
  | .digest => 0x05000000
  | .reset => 0x06000000
  | .clone => 0x07000000
  | .blksz => 0x08000000
  | .hsz => 0x09000000
  | .name => 0x0A000000
  | .hash => 0x0B000000
  | .hexenc => 0x0C000000
  | .hexval => 0x0D000000

/-- The column mask of R95. -/
def rowMask : Op → Word
  | .init => 0xFF1F0000
  | .initu => 0xFF1D0000
  | .upd1 => 0xFF1FFF00
  | .updn => 0xFF1DFFFF
  | .digest => 0xFF1FFFFF
  | .reset => 0xFF1FFFFF
  | .clone => 0xFF03FFFF
  | .blksz => 0xFFFFFFFF
  | .hsz => 0xFF1FFFFF
  | .name => 0xFFFFFFFF
  | .hash => 0xFFFD0000
  | .hexenc => 0xFFFDFFFF
  | .hexval => 0xFFFDFFFF

/-- How many words a command takes (R97). -/
def wordsOf (cw : Word) : Nat :=
  if (opcOf cw).toNat ∈ [0x02, 0x04, 0x0B, 0x0C, 0x0D] then 3 else 1

/-- R96 (a): OPC is 0x00 or 0x0E to 0xFF. -/
def ReservedOpcode (cw : Word) : Prop := (opcOf cw).toNat = 0x00 ∨ 0x0E ≤ (opcOf cw).toNat

/-- R96 (b): a field the format of the command marks "0" (R92), or bit 16, is not zero. -/
def ReservedField (cw : Word) : Prop :=
  ∃ op : Op, op.code = opcOf cw ∧
    ((op.format.free.cd = false ∧ cdOf cw ≠ 0) ∨ (op.format.free.cs = false ∧ csOf cw ≠ 0) ∨
      (op.format.free.p = false ∧ pOf cw = true) ∨ zOf cw = true ∨
      (op.format.free.a = false ∧ aOf cw ≠ 0) ∨ (op.format.free.b = false ∧ bOf cw ≠ 0))

/-- R96 (c): a bank field the format marks "free" holds a number `≥ NCTX`. -/
def ReservedBank (nctx : Nat) (cw : Word) : Prop :=
  ∃ op : Op, op.code = opcOf cw ∧
    ((op.format.free.cd = true ∧ nctx ≤ (cdOf cw).toNat) ∨
      (op.format.free.cs = true ∧ nctx ≤ (csOf cw).toNat))

/-- The legal configurations (R120). -/
def LegalSetup (hsize rounds : Byte) : Prop :=
  hsize.toNat ∈ [16, 20, 24, 28, 32] ∧ rounds.toNat ∈ [3, 4, 5]

/-- The input is present and lies inside `IN` (R121). -/
def Admitted (s : State) (d : Desc) : Prop :=
  d.present = true ∧ d.off.toNat + d.len.toNat ≤ s.inSize

/-- Success with nothing to return (R98). -/
def okResponse : Response := { err := 0, val := 0, data := [] }

/-- The state after an error with the given code: only the response is new (R283). -/
def afterError (s : State) (code : BitVec 8) : State :=
  { s with resp := some { err := code, val := 0, data := [] } }

/-- The initial instance state with a given `CFG` (spec/10_state.md R39). -/
def initialBank (cfg : BitVec 16) : Bank :=
  { valid := true
    cfg := cfg
    h := IV
    count := 0
    buflen := 0
    buf := Vector.replicate 128 0 }

/-- A bank that can be fed: an instance, its `CFG` holding the configuration `st`, `BUFLEN ≤ 127`. -/
def Feedable (b : Bank) (st : Setup) : Prop :=
  b.valid = true ∧ setupOfCfg? b.cfg = some st ∧ b.buflen.toNat < 128

/-- The ten trailer bytes at their places 118 to 127 of the last block (spec/43_finalize.md R224, R225,
R226). -/
def trailerByte (st : Setup) (count : BitVec 64) (i : Nat) : Byte :=
  if i = 118 then BitVec.ofNat 8 (st.width.bytes * 8 % 4 * 64 + st.passes.count % 8 * 8 + 1)
  else if i = 119 then BitVec.ofNat 8 (st.width.bytes * 8 / 4)
  else BitVec.ofNat 8 (count.toNat * 8 % 2 ^ 64 / 256 ^ (i - 120))

/-- The one block of a finalization with fewer than 118 bytes buffered: the message bytes, the marker,
zeros, the trailer (R227). -/
def onlyBlock (b : Bank) (st : Setup) : Vector Byte 128 :=
  Vector.ofFn fun i : Fin 128 =>
    if i.val < b.count.toNat % 128 then b.buf.get i
    else if i.val = b.count.toNat % 128 then 0x01
    else if i.val < 118 then 0x00
    else trailerByte st b.count i.val

/-- The first of two blocks, with 118 or more bytes buffered: the message bytes, the marker, zeros. -/
def firstBlock (b : Bank) : Vector Byte 128 :=
  Vector.ofFn fun i : Fin 128 =>
    if i.val < b.count.toNat % 128 then b.buf.get i
    else if i.val = b.count.toNat % 128 then 0x01
    else 0x00

/-- The second of two blocks: 118 zeros and the trailer (R227). -/
def secondBlock (b : Bank) (st : Setup) : Vector Byte 128 :=
  Vector.ofFn fun i : Fin 128 => if i.val < 118 then 0x00 else trailerByte st b.count i.val

/-- The state words after the padding of a bank's message has been fed: one compression or two. -/
def finalWords (b : Bank) (st : Setup) : Vector Word 8 :=
  if b.count.toNat % 128 < 118 then compress st.passes b.h (onlyBlock b st)
  else compress st.passes (compress st.passes b.h (firstBlock b)) (secondBlock b st)

/-- `DIGIT(v)` (spec/44_hexcodec.md R262). -/
def digit (v : Nat) : Byte := BitVec.ofNat 8 (if v ≤ 9 then 0x30 + v else 0x61 + (v - 10))

/-- The 22 hex digit characters (R262). -/
def HexCharacter (ch : Byte) : Prop :=
  (0x30 ≤ ch.toNat ∧ ch.toNat ≤ 0x39) ∨ (0x61 ≤ ch.toNat ∧ ch.toNat ≤ 0x66) ∨
    (0x41 ≤ ch.toNat ∧ ch.toNat ≤ 0x46)

/-- The input is a well-formed hex string: even length, hex digits only (R261). -/
def HexString (s : State) (d : Desc) : Prop :=
  d.len.toNat % 2 = 0 ∧ ∀ i : Nat, i < d.len.toNat → HexCharacter (Memory.read s.input (d.off.toNat + i))

/-- That an error condition holds of a command in a state (spec/60_exceptions.md R280 to R286), whether
or not it is the one reported. -/
def Applies (i : Instr) (s : State) : Err → Prop
  | .illegalCommand => i.wf s.nctx = false
  | .noInstance => ∃ c b, i.needsBank? = some c ∧ s.bank? c = some b ∧ b.valid = false
  | .configuration => ∃ hsize rounds, i.setupOperands? = some (hsize, rounds) ∧ ¬ LegalSetup hsize rounds
  | .invalidInput => ∃ d, i.desc? = some d ∧ ¬ Admitted s d
  | .format => ∃ d, i.hexDesc? = some d ∧ ¬ HexString s d

/-- The place of an error in the order of R287. -/
def errorRank : Err → Nat
  | .illegalCommand => 1
  | .noInstance => 2
  | .configuration => 3
  | .invalidInput => 4
  | .format => 6

/-- The column `ERR` of R280. -/
def errorCode : Err → BitVec 8
  | .configuration => 1
  | .invalidInput => 2
  | .format => 3
  | .illegalCommand => 4
  | .noInstance => 5

/-- `VAL` of a successful command (R98). -/
def successVal (s : State) : Instr → Word
  | .init _ _ _ => 0
  | .initu _ _ _ _ => 0
  | .upd1 _ _ => 0
  | .updn _ _ => 0
  | .digest _ => 0
  | .reset _ => 0
  | .clone _ _ => 0
  | .blksz => 128
  | .hsz c => match s.bank? c with
    | none => 0
    | some b => BitVec.ofNat 32 (b.cfg.toNat / 256)
  | .name => 0
  | .hash _ _ _ => 0
  | .hexenc _ => 0
  | .hexval _ => 0

/-- The length of `DATA` of a successful command (R98). -/
def successLength (s : State) : Instr → Nat
  | .init _ _ _ => 0
  | .initu _ _ _ _ => 0
  | .upd1 _ _ => 0
  | .updn _ _ => 0
  | .digest c => match s.bank? c with
    | none => 0
    | some b => b.cfg.toNat / 256
  | .reset _ => 0
  | .clone _ _ => 0
  | .blksz => 0
  | .hsz _ => 0
  | .name => s.algName.length
  | .hash hsize _ _ => 2 * hsize.toNat
  | .hexenc d => 2 * d.len.toNat
  | .hexval _ => 0

/-- A truth table of spec/42_tables.md R207 to R211. -/
def truthTable : Pass → BitVec 128
  | .p1 => 0xE11E2DD211EEDD221E1ED2D2EEEE2222
  | .p2 => 0xC6F9053A36F6FA3A3609F5CAC6060ACA
  | .p3 => 0x0396CF5AF3663FAAFC96305A0C66C0AA
  | .p4 => 0x0CCC9A5AFCC3655A03C395AAF3CC6AAA
  | .p5 => 0x433C8FF01966D5AABC3C70F0E6662AAA

/-- The five passes in order. -/
def passes : List Pass := [.p1, .p2, .p3, .p4, .p5]

/-- The twelve wiring rows of R212. -/
def wirings : List Wiring :=
  (schedule .three ++ schedule .four ++ schedule .five).map Prod.snd

/-- The seven entries of a wiring row. -/
def wiringEntries (w : Wiring) : List Nat :=
  [w.a6.val, w.a5.val, w.a4.val, w.a3.val, w.a2.val, w.a1.val, w.a0.val]

/-- The value of a pass function on seven single bits, the bits of `i` with `x6` the highest. -/
def passBit (p : Pass) (i : Nat) : BitVec 1 :=
  passFn p (BitVec.ofBool (i.testBit 6)) (BitVec.ofBool (i.testBit 5)) (BitVec.ofBool (i.testBit 4))
    (BitVec.ofBool (i.testBit 3)) (BitVec.ofBool (i.testBit 2)) (BitVec.ofBool (i.testBit 1))
    (BitVec.ofBool (i.testBit 0))

end Sys2Proof.Claims

open Sys2Proof Sys2Proof.Machine Sys2Proof.Claims

/-! ### Encoding -/

/-- Encoding a well-formed command and decoding it gives the command back and leaves the words after it,
with every operand at every value (R91 to R97). -/
def Obligations.EncodeThenDecode : Prop :=
  ∀ (nctx : Nat) (i : Instr) (rest : List Word), i.wf nctx = true →
    decode nctx (encode i ++ rest) = .command i rest

/-- Each string of words has one meaning: what decodes to a command is that command's encoding, and the
command is well-formed. -/
def Obligations.DecodeThenEncode : Prop :=
  ∀ (nctx : Nat) (words : List Word) (i : Instr) (rest : List Word),
    decode nctx words = .command i rest → words = encode i ++ rest ∧ i.wf nctx = true

/-- R95: a word selects a row exactly when `w & mask = match` and its bank numbers are `< NCTX`. -/
def Obligations.OpcodeTableSelectsRow : Prop :=
  ∀ (nctx : Nat) (cw off len : Word) (rest : List Word) (op : Op),
    judge nctx cw off len rest = .command (buildInstr op cw off len) rest ↔
      cw &&& rowMask op = rowMatch op ∧ ∀ c ∈ (buildInstr op cw off len).bankFields, c.toNat < nctx

/-- R96: a reserved word raises `IllegalCommand` (code 4), changes no state, and consumes the words R97
gives; every other whole command is the one its words encode. -/
def Obligations.ReservedWordRaisesIllegalCommand : Prop :=
  ∀ (s : State) (cw : Word) (ext rest : List Word),
    s.port = cw :: ext ++ rest → ext.length + 1 = wordsOf cw →
      (ReservedOpcode cw ∨ ReservedField cw ∨ ReservedBank s.nctx cw →
        step s = .next { s with port := rest, resp := some { err := 4, val := 0, data := [] } }) ∧
      (¬ (ReservedOpcode cw ∨ ReservedField cw ∨ ReservedBank s.nctx cw) →
        ∃ i, encode i = cw :: ext ∧ step s = exec i { s with port := rest })

/-- R97: the length depends on OPC alone, for reserved words too; fewer words are no whole command. -/
def Obligations.CommandLengthByOpcode : Prop :=
  ∀ (nctx : Nat) (cw : Word) (rest : List Word),
    (rest.length + 1 < wordsOf cw → decode nctx (cw :: rest) = .incomplete) ∧
    (wordsOf cw ≤ rest.length + 1 →
      (∃ why, decode nctx (cw :: rest) = .reserved why ((cw :: rest).drop (wordsOf cw))) ∨
        ∃ i, decode nctx (cw :: rest) = .command i ((cw :: rest).drop (wordsOf cw)))

/-- The worked encodings that spec/30_encoding.md section 7 prints, decoded with all eight banks. -/
def Obligations.WorkedEncodingsDecode : Prop :=
  decode 8 [0x01001003] = .command (.init 0 16 3) [] ∧
  decode 8 [0x02222005, 0x00000000, 0x00000003] = .command (.initu 1 32 5 ⟨true, 0, 3⟩) [] ∧
  decode 8 [0x03000061] = .command (.upd1 0 0x61) [] ∧
  decode 8 [0x04020000, 0x00000000, 0x0000002B] = .command (.updn 0 ⟨true, 0, 43⟩) [] ∧
  decode 8 [0x04400000, 0x00000000, 0x00000000] = .command (.updn 2 ⟨false, 0, 0⟩) [] ∧
  decode 8 [0x05000000] = .command (.digest 0) [] ∧
  decode 8 [0x07200000] = .command (.clone 1 0) [] ∧
  decode 8 [0x07040000] = .command (.clone 0 1) [] ∧
  decode 8 [0x09200000] = .command (.hsz 1) [] ∧
  decode 8 [0x0B022005, 0x00000000, 0x00000000] = .command (.hash 32 5 ⟨true, 0, 0⟩) []

/-- R102: a word moved as bytes goes least significant byte first, and comes back whole. -/
def Obligations.WordsMoveLeastSignificantByteFirst : Prop :=
  (∀ (w : Word) (k : Nat), k < 4 →
    (wordBytes w)[k]? = some (BitVec.ofNat 8 (w.toNat / 256 ^ k))) ∧
  (∀ words : List Word, bytesWords (words.flatMap wordBytes) = words)

/-- R91, R99, R100: a line of a listing encodes the words of its command by the sum of R91, `NULL` being
`P = 0` with both extension words zero, and `.in` encodes none. -/
def Obligations.ListingLinesEncodeTheirCommands : Prop :=
  (∀ (l : AsmLine) (i : Instr), l.instr? = some i → l.words = encode i) ∧
  (∀ l : AsmLine, l.instr? = none → l.words = [])

/-! ### A step -/

/-- When the words at the port are those of a well-formed command, a step is the execution of that
command with its words consumed (R90). -/
def Obligations.StepRunsDecodedCommand : Prop :=
  (∀ (s : State) (i : Instr) (rest : List Word), s.fetch = .command i rest →
    step s = exec i { s with port := rest }) ∧
  (∀ (s : State) (i : Instr) (rest : List Word), i.wf s.nctx = true → s.port = encode i ++ rest →
    step s = exec i { s with port := rest })

/-- The MODEL's choice (log 3): with no whole command at the port the engine is idle, keeps all state
and returns no response. -/
def Obligations.IdleWithoutWholeCommand : Prop :=
  ∀ s : State, (s.port = [] ∨ ∃ cw rest, s.port = cw :: rest ∧ rest.length + 1 < wordsOf cw) →
    step s = .next { s with resp := none }

/-! ### What each command does -/

/-- R124, INIT: the bank becomes the initial instance state with the configuration asked for, whatever
it held; an illegal configuration is error 1 and changes nothing. -/
def Obligations.InitResult : Prop :=
  ∀ (s : State) (c : BankNo) (hsize rounds : Byte), c.toNat < s.nctx →
    encode (.init c hsize rounds) = [asmWord 0x01 c.toNat 0 0 hsize.toNat rounds.toNat] ∧
    (LegalSetup hsize rounds →
      exec (.init c hsize rounds) s =
        .next { s with
          banks := s.banks.set c.toNat
            (initialBank (hsize ++ (0 : BitVec 5) ++ rounds.extractLsb' 0 3))
          resp := some okResponse }) ∧
    (¬ LegalSetup hsize rounds → exec (.init c hsize rounds) s = .next (afterError s 1))

/-- R125, INITU: on success the state is the one INIT and then UPDN produce; error 1 comes before error
2, and on either nothing is written. That the two ways also agree in the engine's registers, which R27
and R28 leave unspecified, is the model's choice (log 7), so the statement is derived. -/
def Obligations.InituResult : Prop :=
  ∀ (s : State) (c : BankNo) (hsize rounds : Byte) (d : Desc), c.toNat < s.nctx →
    encode (.initu c hsize rounds d) =
      [asmWord 0x02 c.toNat 0 d.present.toNat hsize.toNat rounds.toNat, d.off, d.len] ∧
    (LegalSetup hsize rounds → Admitted s d →
      ∃ t u, exec (.initu c hsize rounds d) s = .next t ∧ exec (.init c hsize rounds) s = .next u ∧
        exec (.updn c d) u = .next t ∧ t.resp = some okResponse) ∧
    (¬ LegalSetup hsize rounds → exec (.initu c hsize rounds d) s = .next (afterError s 1)) ∧
    (LegalSetup hsize rounds → ¬ Admitted s d →
      exec (.initu c hsize rounds d) s = .next (afterError s 2))

/-- R123 and R126, UPD1: the byte goes to `BUF[BUFLEN]`, `BUFLEN` and `COUNT` go up by one; the 128th
byte compresses the block in the same command and empties the buffer. Nothing else changes but the
engine's scratch registers, and those only when a block is compressed. -/
def Obligations.Upd1Result : Prop :=
  ∀ (s : State) (c : BankNo) (byte : Byte) (b : Bank) (st : Setup), s.bank? c = some b →
    encode (.upd1 c byte) = [asmWord 0x03 c.toNat 0 0 0 byte.toNat] ∧
    (b.valid = false → exec (.upd1 c byte) s = .next (afterError s 5)) ∧
    (Feedable b st → b.buflen.toNat ≠ 127 →
      exec (.upd1 c byte) s =
        .next { s with
          banks := s.banks.set c.toNat
            { b with
              buf := b.buf.setIfInBounds b.buflen.toNat byte
              buflen := b.buflen + 1
              count := b.count + 1 }
          resp := some okResponse }) ∧
    (Feedable b st → b.buflen.toNat = 127 →
      ∃ e : Engine, e.seq.phase = .idle ∧
        exec (.upd1 c byte) s =
          .next { s with
            banks := s.banks.set c.toNat
              { b with
                h := compress st.passes b.h (b.buf.set 127 byte)
                buf := Vector.replicate 128 0
                buflen := 0
                count := b.count + 1 }
            engine := e
            resp := some okResponse })

/-- R127, UPDN: on an admitted input the bank ends as UPD1 of each byte of `IN[OFF ..]` in rising order
leaves it: `COUNT` has grown by `LEN` modulo 2^64 and `BUFLEN` by `LEN` modulo 128, `CFG` and `VALID`
are kept, and no other bank changes. A bank without an instance is error 5, an input absent or out of
range is error 2, and on either nothing is written. -/
def Obligations.UpdnResult : Prop :=
  ∀ (s : State) (c : BankNo) (d : Desc) (b : Bank), s.bank? c = some b →
    encode (.updn c d) = [asmWord 0x04 c.toNat 0 d.present.toNat 0 0, d.off, d.len] ∧
    (b.valid = false → exec (.updn c d) s = .next (afterError s 5)) ∧
    (b.valid = true → ¬ Admitted s d → exec (.updn c d) s = .next (afterError s 2)) ∧
    (∀ st : Setup, Feedable b st → Admitted s d →
      ∃ (b' : Bank) (e : Engine) (u : State),
        exec (.updn c d) s =
          .next { s with banks := s.banks.set c.toNat b', engine := e, resp := some okResponse } ∧
        runCommands ((List.range d.len.toNat).map fun i =>
          .upd1 c (Memory.read s.input (d.off.toNat + i))) s = some u ∧
        u.banks = s.banks.set c.toNat b' ∧
        b'.valid = true ∧ b'.cfg = b.cfg ∧ b'.count = b.count + d.len.setWidth 64 ∧
        b'.buflen.toNat = (b.buflen.toNat + d.len.toNat) % 128)

/-- R127, UPDN inside one block: the bytes of `IN` land in `BUF` in rising order after those already
there, and neither `H` nor any register of the engine changes. -/
def Obligations.UpdnWithinBlock : Prop :=
  ∀ (s : State) (c : BankNo) (d : Desc) (b : Bank) (st : Setup), s.bank? c = some b →
    Feedable b st → Admitted s d → b.buflen.toNat + d.len.toNat < 128 →
      ∃ b' : Bank,
        exec (.updn c d) s =
          .next { s with banks := s.banks.set c.toNat b', resp := some okResponse } ∧
        b'.h = b.h ∧
        (∀ i : Nat, i < b.buflen.toNat → b'.buf[i]? = b.buf[i]?) ∧
        (∀ j : Nat, j < d.len.toNat →
          b'.buf[b.buflen.toNat + j]? = some (Memory.read s.input (d.off.toNat + j)))

/-- R79, the zero-copy path: with an empty buffer, UPDN of 128 bytes leaves the state words that
compressing those bytes of `IN` directly gives, an empty buffer, and `COUNT` larger by 128. That `BUF` is
zero then rests on R123 and on the model's copying path (log 10). -/
def Obligations.WholeBlockFromInput : Prop :=
  ∀ (s : State) (c : BankNo) (d : Desc) (b : Bank) (st : Setup), s.bank? c = some b →
    Feedable b st → Admitted s d → b.buflen = 0 → d.len = 128 →
      ∃ e : Engine, e.seq.phase = .idle ∧
        exec (.updn c d) s =
          .next { s with
            banks := s.banks.set c.toNat
              { b with
                h := compress st.passes b.h
                  (Vector.ofFn fun i : Fin 128 => Memory.read s.input (d.off.toNat + i.val))
                buf := Vector.replicate 128 0
                count := b.count + 128 }
            engine := e
            resp := some okResponse }

/-- R220, R227, R235, DIGEST: the digest of the buffered message padded as R221 to R227 say, in one
block or two; afterwards the bank is in the initial instance state with its `CFG`. -/
def Obligations.DigestResult : Prop :=
  ∀ (s : State) (c : BankNo) (b : Bank) (st : Setup), s.bank? c = some b →
    encode (.digest c) = [asmWord 0x05 c.toNat 0 0 0 0] ∧
    (b.valid = false → exec (.digest c) s = .next (afterError s 5)) ∧
    (Feedable b st → b.buflen.toNat = b.count.toNat % 128 →
      ∃ e : Engine, e.seq.phase = .idle ∧
        exec (.digest c) s =
          .next { s with
            banks := s.banks.set c.toNat (initialBank b.cfg)
            engine := e
            resp := some
              { err := 0
                val := 0
                data := serialize st.width (tailor st.width (finalWords b st)) } })

/-- R236, which the spec derives from R220 and R235: a second DIGEST with nothing fed in between returns
the digest of the empty message, the one a freshly constructed instance of the same configuration gives.
-/
def Obligations.SecondDigestIsOfEmptyMessage : Prop :=
  ∀ (s : State) (c : BankNo) (b : Bank), s.bank? c = some b → b.valid = true → b.Ok →
    ∃ t u v w, exec (.digest c) s = .next t ∧ exec (.digest c) t = .next u ∧
      exec (.init c (cfgHsize b.cfg) ((cfgRounds b.cfg).setWidth 8)) s = .next v ∧
      exec (.digest c) v = .next w ∧ u.resp = w.resp ∧ v.resp = some okResponse

/-- R122 and R128, RESET: the bank is in the initial instance state, its `CFG` kept. -/
def Obligations.ResetResult : Prop :=
  ∀ (s : State) (c : BankNo) (b : Bank), s.bank? c = some b →
    encode (.reset c) = [asmWord 0x06 c.toNat 0 0 0 0] ∧
    (b.valid = false → exec (.reset c) s = .next (afterError s 5)) ∧
    (b.valid = true →
      exec (.reset c) s =
        .next { s with
          banks := s.banks.set c.toNat (initialBank b.cfg)
          resp := some okResponse })

/-- R129, CLONE: the destination becomes a copy of every register of the source; onto itself nothing
changes; an invalid source is error 5. -/
def Obligations.CloneResult : Prop :=
  ∀ (s : State) (cd cs : BankNo) (src : Bank), cd.toNat < s.nctx → s.bank? cs = some src →
    encode (.clone cd cs) = [asmWord 0x07 cd.toNat cs.toNat 0 0 0] ∧
    (src.valid = false → exec (.clone cd cs) s = .next (afterError s 5)) ∧
    (src.valid = true →
      exec (.clone cd cs) s =
        .next { s with banks := s.banks.set cd.toNat src, resp := some okResponse }) ∧
    (src.valid = true → cd = cs →
      exec (.clone cd cs) s = .next { s with resp := some okResponse })

/-- R130, R131, R132: BLKSZ returns 128, HSZ the `HSIZE` of its bank, NAME the bytes of `ALG_NAME`. -/
def Obligations.QueryResults : Prop :=
  ∀ s : State,
    (encode .blksz = [0x08000000] ∧
      exec .blksz s = .next { s with resp := some { err := 0, val := 128, data := [] } }) ∧
    (encode .name = [0x0A000000] ∧
      exec .name s = .next { s with resp := some { err := 0, val := 0, data := s.algName } }) ∧
    (∀ (c : BankNo) (b : Bank), s.bank? c = some b →
      encode (.hsz c) = [asmWord 0x09 c.toNat 0 0 0 0] ∧
      (b.valid = false → exec (.hsz c) s = .next (afterError s 5)) ∧
      (b.valid = true →
        exec (.hsz c) s =
          .next { s with
            resp := some { err := 0, val := BitVec.ofNat 32 (b.cfg.toNat / 256), data := [] } }))

/-- R237, HASH: two lowercase hex digits for each byte of the digest that INITU and DIGEST on any bank
would return; no numbered bank changes; called twice it returns the same; error 1 before error 2. -/
def Obligations.HashResult : Prop :=
  ∀ (s : State) (hsize rounds : Byte) (d : Desc),
    encode (.hash hsize rounds d) =
      [asmWord 0x0B 0 0 d.present.toNat hsize.toNat rounds.toNat, d.off, d.len] ∧
    (LegalSetup hsize rounds → Admitted s d →
      ∃ (data : List Byte) (e : Engine) (scratch : Bank),
        exec (.hash hsize rounds d) s =
          .next { s with
            engine := e
            scratch := scratch
            resp := some
              { err := 0
                val := 0
                data := data.flatMap fun v => [digit (v.toNat / 16), digit (v.toNat % 16)] } } ∧
        data.length = hsize.toNat ∧
        ∀ c : BankNo, c.toNat < s.nctx →
          ∃ u v, exec (.initu c hsize rounds d) s = .next u ∧ exec (.digest c) u = .next v ∧
            v.resp = some { err := 0, val := 0, data := data }) ∧
    (∀ t u : State, exec (.hash hsize rounds d) s = .next t → exec (.hash hsize rounds d) t = .next u →
      u.resp = t.resp) ∧
    (¬ LegalSetup hsize rounds → exec (.hash hsize rounds d) s = .next (afterError s 1)) ∧
    (LegalSetup hsize rounds → ¬ Admitted s d →
      exec (.hash hsize rounds d) s = .next (afterError s 2))

/-- R29, R237: HASH reads no numbered bank, no engine register and nothing an earlier HASH left in the
scratch bank: two states with the same `IN_SIZE` and the same bytes of `IN` give the same response. -/
def Obligations.HashReadsInputOnly : Prop :=
  ∀ (s s' : State) (hsize rounds : Byte) (d : Desc), s.inSize = s'.inSize →
    (∀ a : Nat, a < s.inSize → Memory.read s.input a = Memory.read s'.input a) →
      ∃ t t', exec (.hash hsize rounds d) s = .next t ∧ exec (.hash hsize rounds d) s' = .next t' ∧
        t.resp = t'.resp ∧ t.banks = s.banks ∧ t'.banks = s'.banks

/-- R260 and R262, HEXENC: two lowercase digits per byte of `IN`, most significant nibble first; every
character is one HEXVAL accepts; an input absent or out of range is error 2. -/
def Obligations.HexencResult : Prop :=
  ∀ (s : State) (d : Desc),
    encode (.hexenc d) = [asmWord 0x0C 0 0 d.present.toNat 0 0, d.off, d.len] ∧
    (Admitted s d →
      ∃ text : List Byte,
        exec (.hexenc d) s = .next { s with resp := some { err := 0, val := 0, data := text } } ∧
        text.length = 2 * d.len.toNat ∧ (∀ ch ∈ text, HexCharacter ch) ∧
        ∀ i : Nat, i < d.len.toNat →
          text[2 * i]? = some (digit ((Memory.read s.input (d.off.toNat + i)).toNat / 16)) ∧
          text[2 * i + 1]? = some (digit ((Memory.read s.input (d.off.toNat + i)).toNat % 16))) ∧
    (¬ Admitted s d → exec (.hexenc d) s = .next (afterError s 2))

/-- R261, HEXVAL: success for a string of even length made of the 22 hex digit characters, else error 3;
an input absent or out of range is error 2. -/
def Obligations.HexvalResult : Prop :=
  ∀ (s : State) (d : Desc),
    encode (.hexval d) = [asmWord 0x0D 0 0 d.present.toNat 0 0, d.off, d.len] ∧
    (Admitted s d → HexString s d → exec (.hexval d) s = .next { s with resp := some okResponse }) ∧
    (Admitted s d → ¬ HexString s d → exec (.hexval d) s = .next (afterError s 3)) ∧
    (¬ Admitted s d → exec (.hexval d) s = .next (afterError s 2))

/-- R260: what HEXENC returns, put into `IN` by the host, passes HEXVAL. -/
def Obligations.HexencOutputPassesHexval : Prop :=
  ∀ (s t : State) (d : Desc) (text : List Byte) (off len : Word), Memory.wf s.input → Admitted s d →
    exec (.hexenc d) s = .next t → t.resp = some { err := 0, val := 0, data := text } →
    len.toNat = text.length → off.toNat + len.toNat ≤ s.inSize →
      exec (.hexval ⟨true, off, len⟩) (t.hostPlace off.toNat text) =
        .next { t.hostPlace off.toNat text with resp := some okResponse }

/-! ### Laws of the context commands -/

/-- R133, which the spec derives from R126 and R127: any two sequences of feeding commands that present
the same bytes in the same order leave the banks in the same state. -/
def Obligations.BulkFeedingEqualsByteByByte : Prop :=
  ∀ (s : State) (c : BankNo) (b : Bank) (xs ys : List BankCommand), s.bank? c = some b →
    b.valid = true → b.Ok → (∀ x ∈ xs, x.feeds s = true) → (∀ y ∈ ys, y.feeds s = true) →
    xs.flatMap (BankCommand.fedBytes s) = ys.flatMap (BankCommand.fedBytes s) →
      ∃ t u, runCommands (xs.map (BankCommand.on c)) s = some t ∧
        runCommands (ys.map (BankCommand.on c)) s = some u ∧ t.banks = u.banks

/-- R134, which the spec derives from R122, R124 and R235: after RESET, and after DIGEST, every command
sequence gives the same responses as after INIT with the bank's own configuration. -/
def Obligations.ResetEqualsFresh : Prop :=
  ∀ (s : State) (c : BankNo) (b : Bank), s.bank? c = some b → b.valid = true → b.Ok →
    ∃ r d i, exec (.reset c) s = .next r ∧ exec (.digest c) s = .next d ∧
      exec (.init c (cfgHsize b.cfg) ((cfgRounds b.cfg).setWidth 8)) s = .next i ∧
      ∀ commands : List Instr,
        responses commands r = responses commands i ∧ responses commands d = responses commands i

/-- R135, which the spec derives from R129 and R32: after CLONE no command naming only one of the two
banks changes the other, and equal command sequences on the two give equal responses. -/
def Obligations.CloneIndependence : Prop :=
  ∀ (s : State) (cd cs : BankNo) (src : Bank), cd ≠ cs → cd.toNat < s.nctx →
    s.bank? cs = some src → src.valid = true →
      ∃ t, exec (.clone cd cs) s = .next t ∧ t.bank? cd = some src ∧ t.bank? cs = some src ∧
        ∀ commands : List BankCommand,
          (∀ u, runCommands (commands.map (BankCommand.on cd)) t = some u → u.bank? cs = some src) ∧
          (∀ u, runCommands (commands.map (BankCommand.on cs)) t = some u → u.bank? cd = some src) ∧
          responses (commands.map (BankCommand.on cd)) t =
            responses (commands.map (BankCommand.on cs)) t

/-- R75 and R293, which the spec derives from R70, R20 and R32: commands on two different banks give
each bank, and each command, the same result in either order. -/
def Obligations.CommandsOnDifferentBanksCommute : Prop :=
  ∀ (s s1 s2 : State) (c d : BankNo) (x y : BankCommand), c ≠ d →
    exec (x.on c) s = .next s1 → exec (y.on d) s1 = .next s2 →
      ∃ s3 s4, exec (y.on d) s = .next s3 ∧ exec (x.on c) s3 = .next s4 ∧
        s4.banks = s2.banks ∧ s4.resp = s1.resp ∧ s3.resp = s2.resp

/-- R26: `VALID` is set only by a successful INIT, INITU or CLONE into the bank and is cleared by no
command; the power-on reset clears it in every bank. -/
def Obligations.ValidBitSetByConstruction : Prop :=
  (∀ (s t : State) (i : Instr) (c : BankNo) (b : Bank), exec i s = .next t → s.bank? c = some b →
    ∃ b', t.bank? c = some b' ∧ (b.valid = true → b'.valid = true) ∧
      (b.valid = false → b'.valid = true →
        t.resp = some okResponse ∧
          ((∃ hsize rounds, i = .init c hsize rounds) ∨ (∃ hsize rounds d, i = .initu c hsize rounds d) ∨
            ∃ cs, i = .clone c cs))) ∧
  (∀ s : State, ∀ b ∈ s.hostReset.banks, b.valid = false)

/-- R318: no command changes the `CFG` of a valid bank but INIT, INITU and CLONE, which replace the
whole instance. -/
def Obligations.ConfigurationImmutable : Prop :=
  ∀ (s t : State) (i : Instr) (c : BankNo) (b : Bank), exec i s = .next t → s.bank? c = some b →
    b.valid = true →
      ∃ b', t.bank? c = some b' ∧
        (b'.cfg = b.cfg ∨ (∃ hsize rounds, i = .init c hsize rounds) ∨
          (∃ hsize rounds d, i = .initu c hsize rounds d) ∨ ∃ cs, i = .clone c cs)

/-! ### Errors -/

/-- R287: when several errors apply to a command exactly one is reported, the first in the order of that
rule, with the code of R280; when none applies the command succeeds. For IllegalCommand it speaks of exec
on a command the decoder never yields, whose answer is the model's choice (log 12), so the statement is
derived; the words themselves are ReservedWordRaisesIllegalCommand's. -/
def Obligations.ErrorPriority : Prop :=
  ∀ (s : State) (i : Instr), s.Inv →
    (∀ e : Err, Applies i s e → (∀ e', errorRank e' < errorRank e → ¬ Applies i s e') →
      exec i s = .next (afterError s (errorCode e))) ∧
    ((∀ e : Err, ¬ Applies i s e) → ∃ t r, exec i s = .next t ∧ t.resp = some r ∧ r.err = 0)

/-- R283: a command that ends with an error changes nothing but the response, which carries the code
alone. -/
def Obligations.ErrorsChangeNothing : Prop :=
  ∀ (s t : State) (i : Instr) (r : Response), exec i s = .next t → t.resp = some r → r.err ≠ 0 →
    t = { s with resp := some r } ∧ r.val = 0 ∧ r.data = [] ∧ ∃ e, r.err = errorCode e

/-- R98: every command returns one response, with the `VAL` and the length of `DATA` the table gives on
success. -/
def Obligations.ResponseTable : Prop :=
  ∀ (s t : State) (i : Instr), exec i s = .next t →
    ∃ r, t.resp = some r ∧ (r.err ≠ 0 → r.val = 0 ∧ r.data = []) ∧
      (r.err = 0 → r.val = successVal s i ∧ r.data.length = successLength s i ∧
        (i = .name → r.data = s.algName))

/-- R286: each command that operates on an existing instance raises `NoInstance` (code 5) on a bank
without one. -/
def Obligations.NoInstanceErrors : Prop :=
  ∀ (s : State) (c : BankNo) (b : Bank), s.bank? c = some b → b.valid = false →
    (∀ byte, exec (.upd1 c byte) s = .next (afterError s 5)) ∧
    (∀ d, exec (.updn c d) s = .next (afterError s 5)) ∧
    exec (.digest c) s = .next (afterError s 5) ∧
    exec (.reset c) s = .next (afterError s 5) ∧
    exec (.hsz c) s = .next (afterError s 5) ∧
    (∀ cd : BankNo, cd.toNat < s.nctx → exec (.clone cd c) s = .next (afterError s 5))

/-! ### What a command leaves unchanged -/

/-- The frame of every command (R20, R30, R32, R60): `NCTX`, `IN_SIZE`, `ALG_NAME`, every byte of `IN`
and the commands not yet taken are unchanged; every bank the command does not write is unchanged; the
engine's registers are unchanged unless the command may compress a block; the scratch bank is unchanged
unless the command is HASH. -/
def Obligations.CommandFrame : Prop :=
  ∀ (s t : State) (i : Instr), exec i s = .next t →
    t.config = s.config ∧ t.port = s.port ∧
    (∀ a : Nat, Memory.read t.input a = Memory.read s.input a) ∧
    (∀ c : BankNo, c ∉ i.writesBank → t.bank? c = s.bank? c) ∧
    (i.usesEngine = false → t.engine = s.engine) ∧
    ((∀ hsize rounds d, i ≠ .hash hsize rounds d) → t.scratch = s.scratch)

/-- The frame of a step (R40, R61): the parameters and every byte of `IN` are unchanged, and of the
command stream only words at its front are gone. -/
def Obligations.StepFrame : Prop :=
  ∀ s t : State, step s = .next t →
    t.config = s.config ∧ (∀ a : Nat, Memory.read t.input a = Memory.read s.input a) ∧
      ∃ taken, s.port = taken ++ t.port

/-- R101: commands are executed strictly in the order the host issues them, and no command influences
which is next: as many steps as there are commands at the port run exactly those commands. -/
def Obligations.CommandsRunInIssueOrder : Prop :=
  ∀ (commands : List Instr) (s t : State) (rest : List Word),
    (∀ i ∈ commands, i.wf s.nctx = true) → s.port = commands.flatMap encode ++ rest →
      runCommands commands s = some t → runSteps commands.length s = some { t with port := rest }

/-! ### Invariants -/

/-- Every step keeps the invariant of the machine, from every state that meets it. -/
def Obligations.StepKeepsInvariant : Prop :=
  ∀ s t : State, s.Inv → step s = .next t → t.Inv

/-- The state after reset, and after power-on with any legal parameters, meets the invariant. The values
of registers the spec gives no reset value for are the model's choice (logs 4, 5, 6). -/
def Obligations.ResetMeetsInvariant : Prop :=
  State.reset.Inv ∧ ∀ cfg : Config, cfg.Legal → (State.powerOn cfg).Inv

/-- R291: in a state that meets the invariant no command can make the machine stop: every step gives a
next state. -/
def Obligations.StepNeverStops : Prop :=
  ∀ s : State, s.Inv → ∃ t, step s = .next t

/-- R25, which the spec derives from R39, R123 and R129: in every state some history leads to, for every
valid bank `BUFLEN = COUNT mod 128`. -/
def Obligations.BuflenIsCountMod128 : Prop :=
  ∀ s : State, Reachable s → ∀ b ∈ s.banks, b.valid = true →
    b.buflen.toNat = b.count.toNat % 128

/-- R31, which the spec derives from R21, R24, R27, R28 and R98: `T`, `X`, `SEQ`, the scratch bank,
`BUF` at indices `≥ BUFLEN` and every register of a bank with `VALID = 0` are unobservable: states that
differ there only give the same response to the next command and again differ there only. -/
def Obligations.UnobservableState : Prop :=
  ∀ s t : State, s.Inv → t.Inv → s.SameVisible t →
    ∃ s' t', step s = .next s' ∧ step t = .next t' ∧ s'.resp = t'.resp ∧ s'.SameVisible t'

/-- R38: after power-on reset `VALID` is 0 in every bank and `SEQ` is IDLE; from any state, the
parameters kept. -/
def Obligations.PowerOnState : Prop :=
  ∀ s : State, (∀ b ∈ s.hostReset.banks, b.valid = false) ∧
    s.hostReset.engine.seq.phase = .idle ∧ s.hostReset.config = s.config

/-- A byte the host writes inside `IN` reads back, every other byte is unchanged, a write outside
changes nothing (the model's choice, log 18), and the memory keeps its canonical form (R60, R61). -/
def Obligations.HostWriteReadsBack : Prop :=
  ∀ (s : State) (a : Nat) (v : Byte) (x : Nat), Memory.wf s.input →
    Memory.wf (s.hostWrite a v).input ∧
    (a < s.inSize →
      Memory.read (s.hostWrite a v).input x = if x = a then v else Memory.read s.input x) ∧
    (s.inSize ≤ a → s.hostWrite a v = s)

/-! ### The compression -/

/-- R65, R161: the block words are little-endian. -/
def Obligations.BlockWordsLittleEndian : Prop :=
  ∀ (block : Vector Byte 128) (i : Fin 32),
    ((loadX block).get i).toNat =
      (block.get ⟨4 * i.val, by omega⟩).toNat + 2 ^ 8 * (block.get ⟨4 * i.val + 1, by omega⟩).toNat +
        2 ^ 16 * (block.get ⟨4 * i.val + 2, by omega⟩).toNat +
        2 ^ 24 * (block.get ⟨4 * i.val + 3, by omega⟩).toNat

/-- R163, R166, R167: step `s` replaces `T[(7 - s) mod 8]` and no other register, by the sum of the two
rotations, the block word and the constant, the role register `x_k` being `T[(k - s) mod 8]`. -/
def Obligations.StepReplacesOneRegister : Prop :=
  ∀ (p : Pass) (w : Wiring) (x : Vector Word 32) (t : Vector Word 8) (s : Fin 32) (j : Fin 8),
    (mixStep p w x t s).get j =
      if j.val = (39 - s.val) % 8 then
        rotr
          (passFn p (t.get ⟨(w.a6.val + 32 - s.val) % 8, by omega⟩)
            (t.get ⟨(w.a5.val + 32 - s.val) % 8, by omega⟩)
            (t.get ⟨(w.a4.val + 32 - s.val) % 8, by omega⟩)
            (t.get ⟨(w.a3.val + 32 - s.val) % 8, by omega⟩)
            (t.get ⟨(w.a2.val + 32 - s.val) % 8, by omega⟩)
            (t.get ⟨(w.a1.val + 32 - s.val) % 8, by omega⟩)
            (t.get ⟨(w.a0.val + 32 - s.val) % 8, by omega⟩)) 7 +
          rotr (t.get j) 11 + x.get (ORD p s) + roundConst p s
      else t.get j

/-- R169, which the spec derives from R163 and R170: the rotating-list form and the indexed form compute
the same state words for every state, block and number of passes. -/
def Obligations.ListFormEqualsIndexedForm : Prop :=
  ∀ (r : Passes) (h : Vector Word 8) (block : Vector Byte 128),
    listCompress r h block = compress r h block

/-- R37, which the spec derives from R160: from IDLE the sequencer goes through LOAD and SEED to MIX
with `(PASS, STEP) = (1, 0)`, through every pass and step in order, then FEED, then IDLE; the walk
depends on `r` alone, and it computes the compression. -/
def Obligations.SequencerComputesCompression : Prop :=
  ∀ (r : Passes) (h : Vector Word 8) (block : Vector Byte 128) (e : Engine), e.seq.phase = .idle →
    (seqRun r block 1 (h, e)).2.seq.phase = .load ∧
    (seqRun r block 2 (h, e)).2.seq.phase = .seed ∧
    (∀ p s : Nat, p < r.count → s < 32 →
      (seqRun r block (3 + 32 * p + s) (h, e)).2.seq =
        { phase := .mix, pass := BitVec.ofNat 3 (p + 1), step := BitVec.ofNat 5 s }) ∧
    (seqRun r block (3 + 32 * r.count) (h, e)).2.seq.phase = .feed ∧
    (seqRun r block (4 + 32 * r.count) (h, e)).2.seq.phase = .idle ∧
    (seqRun r block (4 + 32 * r.count) (h, e)).1 = compress r h block

/-- R172: `rotr(a, k)` moves bit `i` to bit `(i - k) mod 32`, for every amount the rules use. -/
def Obligations.RotationMovesBits : Prop :=
  ∀ (a : Word) (k i : Nat), 0 < k → k < 32 → i < 32 →
    (rotr a k).getLsbD ((i + 32 - k) % 32) = a.getLsbD i

/-- R207 to R211, R172: each pass function acts on each bit position independently, by the truth table
of the rule, and has the equivalent form the rule gives. -/
def Obligations.PassFunctions : Prop :=
  (∀ (p : Pass) (x6 x5 x4 x3 x2 x1 x0 : Word) (i : Nat), i < 32 →
      (passFn p x6 x5 x4 x3 x2 x1 x0).getLsbD i =
        (truthTable p).getLsbD
          (64 * (x6.getLsbD i).toNat + 32 * (x5.getLsbD i).toNat + 16 * (x4.getLsbD i).toNat +
            8 * (x3.getLsbD i).toNat + 4 * (x2.getLsbD i).toNat + 2 * (x1.getLsbD i).toNat +
            (x0.getLsbD i).toNat)) ∧
  (∀ x6 x5 x4 x3 x2 x1 x0 : Word,
      F1 x6 x5 x4 x3 x2 x1 x0 = ((x1 &&& (x0 ^^^ x4)) ^^^ (x2 &&& x5) ^^^ (x3 &&& x6) ^^^ x0) ∧
      F2 x6 x5 x4 x3 x2 x1 x0 =
        ((x2 &&& ((x1 &&& ~~~x3) ^^^ (x4 &&& x5) ^^^ x6 ^^^ x0)) ^^^ (x4 &&& (x1 ^^^ x5)) ^^^
          (x3 &&& x5) ^^^ x0) ∧
      F3 x6 x5 x4 x3 x2 x1 x0 =
        ((x3 &&& ((x1 &&& x2) ^^^ x6 ^^^ x0)) ^^^ (x1 &&& x4) ^^^ (x2 &&& x5) ^^^ x0) ∧
      F4 x6 x5 x4 x3 x2 x1 x0 =
        ((x4 &&& ((x5 &&& ~~~x2) ^^^ (x3 &&& ~~~x6) ^^^ x1 ^^^ x6 ^^^ x0)) ^^^
          (x3 &&& ((x1 &&& x2) ^^^ x5 ^^^ x6)) ^^^ (x2 &&& x6) ^^^ x0) ∧
      F5 x6 x5 x4 x3 x2 x1 x0 =
        ((x0 &&& ((x1 &&& x2 &&& x3) ^^^ ~~~x5)) ^^^ (x1 &&& x4) ^^^ (x2 &&& x5) ^^^ (x3 &&& x6)))

/-- R165: pass `p` uses `F_p` whatever the number of passes, and the constants are none in pass 1 and
`K[32(p-2) + s]` after it. -/
def Obligations.PassSelection : Prop :=
  (∀ r : Passes, (schedule r).length = r.count) ∧
  (∀ (r : Passes) (k : Nat) (pw : Pass × Wiring), (schedule r)[k]? = some pw → pw.1.number = k + 1) ∧
  (∀ s : Fin 32, roundConst .p1 s = 0) ∧
  (∀ (p : Pass) (s : Fin 32) (i : Fin 128), 2 ≤ p.number → i.val = 32 * (p.number - 2) + s.val →
    roundConst p s = K i) ∧
  (∀ x6 x5 x4 x3 x2 x1 x0 : Word,
    passFn .p1 x6 x5 x4 x3 x2 x1 x0 = F1 x6 x5 x4 x3 x2 x1 x0 ∧
    passFn .p2 x6 x5 x4 x3 x2 x1 x0 = F2 x6 x5 x4 x3 x2 x1 x0 ∧
    passFn .p3 x6 x5 x4 x3 x2 x1 x0 = F3 x6 x5 x4 x3 x2 x1 x0 ∧
    passFn .p4 x6 x5 x4 x3 x2 x1 x0 = F4 x6 x5 x4 x3 x2 x1 x0 ∧
    passFn .p5 x6 x5 x4 x3 x2 x1 x0 = F5 x6 x5 x4 x3 x2 x1 x0)

/-- R213, which the spec derives from R202 to R212: each word order is a permutation of 0 to 31, each
wiring row a permutation of 0 to 6, the twelve rows pairwise different, and each pass function balanced
on the 128 inputs. -/
def Obligations.RomTableProperties : Prop :=
  (∀ p ∈ passes, ((List.finRange 32).map (ORD p)).Nodup) ∧
  wirings.length = 12 ∧ wirings.Nodup ∧
  (∀ w ∈ wirings, (wiringEntries w).Nodup ∧ ∀ a ∈ wiringEntries w, a ≤ 6) ∧
  (∀ r ∈ Passes.all, (schedule r).map (fun pw => pw.1.number) = (List.range r.count).map (· + 1) ∧
    32 * (r.count - 1) ≤ 128) ∧
  (∀ p ∈ passes, ((List.range 128).filter fun i => passBit p i == 1).length = 64)

/-! ### Finalization -/

/-- R221, R227, R238: the padding is `padLen(n) + 10` bytes, 1 to 128 of them before the trailer; the
padded length without the trailer is 118 modulo 128; fed after the buffered bytes it empties the buffer.
-/
def Obligations.PaddingLength : Prop :=
  ∀ (b : Bank) (e : Engine) (st : Setup),
    (padBytes b.count st).length =
      (if b.count.toNat % 128 < 118 then 118 - b.count.toNat % 128
        else 246 - b.count.toNat % 128) + 10 ∧
    11 ≤ (padBytes b.count st).length ∧ (padBytes b.count st).length ≤ 138 ∧
    (b.count.toNat + ((padBytes b.count st).length - 10)) % 128 = 118 ∧
    (b.buflen.toNat = b.count.toNat % 128 → (padded st (b, e)).1.buflen = 0)

/-- R234, R238: the digest is `HSIZE` bytes, the retained words in rising order, each least significant
byte first. -/
def Obligations.SerializationPlacement : Prop :=
  ∀ (w : Width) (d : Vector Word 8),
    (serialize w d).length = w.bytes ∧
    ∀ (j : Fin 8) (k : Nat), j.val < w.bytes / 4 → k < 4 →
      (serialize w d)[4 * j.val + k]? = some (BitVec.ofNat 8 ((d.get j).toNat / 256 ^ k))

/-- R229 to R233: for each width, each retained word is its `H` plus the bit fields the rule cuts from
the words folded away, most significant field first; the added values are below the bounds the rules
give; every word not retained, and every word for 256 bits, is `H` itself. The formulas are the spec's,
which marks those of R230 to R232 as general knowledge (log 13). -/
def Obligations.TailoringFolds : Prop :=
  ∀ h : Vector Word 8,
    (tailor .w128 h)[0] = h[0] +
      (h[7].extractLsb' 0 8 ++ h[6].extractLsb' 24 8 ++ h[5].extractLsb' 16 8 ++
        h[4].extractLsb' 8 8).setWidth 32 ∧
    (tailor .w128 h)[1] = h[1] +
      (h[7].extractLsb' 8 8 ++ h[6].extractLsb' 0 8 ++ h[5].extractLsb' 24 8 ++
        h[4].extractLsb' 16 8).setWidth 32 ∧
    (tailor .w128 h)[2] = h[2] +
      (h[7].extractLsb' 16 8 ++ h[6].extractLsb' 8 8 ++ h[5].extractLsb' 0 8 ++
        h[4].extractLsb' 24 8).setWidth 32 ∧
    (tailor .w128 h)[3] = h[3] +
      (h[7].extractLsb' 24 8 ++ h[6].extractLsb' 16 8 ++ h[5].extractLsb' 8 8 ++
        h[4].extractLsb' 0 8).setWidth 32 ∧
    (tailor .w160 h)[0] = h[0] +
      (h[7].extractLsb' 0 6 ++ h[6].extractLsb' 25 7 ++ h[5].extractLsb' 19 6).setWidth 32 ∧
    (tailor .w160 h)[1] = h[1] +
      (h[7].extractLsb' 6 6 ++ h[6].extractLsb' 0 6 ++ h[5].extractLsb' 25 7).setWidth 32 ∧
    (tailor .w160 h)[2] = h[2] +
      (h[7].extractLsb' 12 7 ++ h[6].extractLsb' 6 6 ++ h[5].extractLsb' 0 6).setWidth 32 ∧
    (tailor .w160 h)[3] = h[3] +
      (h[7].extractLsb' 19 6 ++ h[6].extractLsb' 12 7 ++ h[5].extractLsb' 6 6).setWidth 32 ∧
    (tailor .w160 h)[4] = h[4] +
      (h[7].extractLsb' 25 7 ++ h[6].extractLsb' 19 6 ++ h[5].extractLsb' 12 7).setWidth 32 ∧
    (tailor .w192 h)[0] = h[0] + (h[7].extractLsb' 0 5 ++ h[6].extractLsb' 26 6).setWidth 32 ∧
    (tailor .w192 h)[1] = h[1] + (h[7].extractLsb' 5 5 ++ h[6].extractLsb' 0 5).setWidth 32 ∧
    (tailor .w192 h)[2] = h[2] + (h[7].extractLsb' 10 6 ++ h[6].extractLsb' 5 5).setWidth 32 ∧
    (tailor .w192 h)[3] = h[3] + (h[7].extractLsb' 16 5 ++ h[6].extractLsb' 10 6).setWidth 32 ∧
    (tailor .w192 h)[4] = h[4] + (h[7].extractLsb' 21 5 ++ h[6].extractLsb' 16 5).setWidth 32 ∧
    (tailor .w192 h)[5] = h[5] + (h[7].extractLsb' 26 6 ++ h[6].extractLsb' 21 5).setWidth 32 ∧
    (tailor .w224 h)[0] = h[0] + (h[7].extractLsb' 27 5).setWidth 32 ∧
    (tailor .w224 h)[1] = h[1] + (h[7].extractLsb' 22 5).setWidth 32 ∧
    (tailor .w224 h)[2] = h[2] + (h[7].extractLsb' 18 4).setWidth 32 ∧
    (tailor .w224 h)[3] = h[3] + (h[7].extractLsb' 13 5).setWidth 32 ∧
    (tailor .w224 h)[4] = h[4] + (h[7].extractLsb' 9 4).setWidth 32 ∧
    (tailor .w224 h)[5] = h[5] + (h[7].extractLsb' 4 5).setWidth 32 ∧
    (tailor .w224 h)[6] = h[6] + (h[7].extractLsb' 0 4).setWidth 32 ∧
    (∀ j : Fin 8, j.val < 4 → ((tailor .w160 h).get j - h.get j).toNat < 2 ^ 19) ∧
    ((tailor .w160 h).get 4 - h.get 4).toNat < 2 ^ 20 ∧
    (∀ j : Fin 8, j.val < 6 → ((tailor .w192 h).get j - h.get j).toNat < 2 ^ 11) ∧
    (∀ (w : Width) (j : Fin 8), w.bytes / 4 ≤ j.val → (tailor w h).get j = h.get j) ∧
    tailor .w256 h = h
end

