-- ==== Sys2Proof/Laws/Setup.lean ====
section
/-! SUPPORT. The laws of the configurations: which operands are legal, what `CFG` holds for one, and that
reading `CFG` gives it back. -/

namespace Sys2Proof.Machine

/-- The legal widths, as R120 lists them. -/
theorem widthOf?_isSome (hsize : Byte) :
    (widthOf? hsize).isSome = true ↔ hsize.toNat ∈ [16, 20, 24, 28, 32] := by
  revert hsize; decide

/-- The legal pass counts, as R120 lists them. -/
theorem passesOf?_isSome (rounds : Byte) :
    (passesOf? rounds).isSome = true ↔ rounds.toNat ∈ [3, 4, 5] := by
  revert rounds; decide

/-- The width found is the one asked for. -/
theorem widthOf?_bytes (hsize : Byte) (w : Width) (h : widthOf? hsize = some w) :
    w.bytes = hsize.toNat := by
  have := List.find?_some h
  simpa using this

/-- The pass count found is the one asked for. -/
theorem passesOf?_count (rounds : Byte) (r : Passes) (h : passesOf? rounds = some r) :
    r.count = rounds.toNat := by
  have := List.find?_some h
  simpa using this

/-- `CHECKCFG` passes exactly for the fifteen pairs of R120. -/
theorem setupOf?_isSome (hsize rounds : Byte) :
    (setupOf? hsize rounds).isSome = true ↔
      hsize.toNat ∈ [16, 20, 24, 28, 32] ∧ rounds.toNat ∈ [3, 4, 5] := by
  rw [← widthOf?_isSome, ← passesOf?_isSome]
  unfold setupOf?
  cases widthOf? hsize <;> cases passesOf? rounds <;> simp

/-- The configuration found is the one asked for. -/
theorem setupOf?_some (hsize rounds : Byte) (st : Setup) (h : setupOf? hsize rounds = some st) :
    st.width.bytes = hsize.toNat ∧ st.passes.count = rounds.toNat := by
  unfold setupOf? at h
  split at h
  · rename_i w r hw hr
    cases h
    exact ⟨widthOf?_bytes _ _ hw, passesOf?_count _ _ hr⟩
  · cases h

/-- What `CFG` holds of legal operands (R22). -/
theorem setup_cfg_eq (hsize rounds : Byte) (st : Setup) (h : setupOf? hsize rounds = some st) :
    st.cfg = hsize ++ (0 : BitVec 5) ++ rounds.extractLsb' 0 3 := by
  obtain ⟨hw, hr⟩ := setupOf?_some _ _ _ h
  have h1 : BitVec.ofNat 8 st.width.bytes = hsize := by rw [hw]; simp
  have h2 : BitVec.ofNat 3 st.passes.count = rounds.extractLsb' 0 3 := by
    rw [hr]; apply BitVec.eq_of_toNat_eq; simp
  rw [Setup.cfg, h1, h2]

/-- Reading a stored configuration gives it back. -/
@[simp] theorem setupOfCfg?_cfg (st : Setup) : setupOfCfg? st.cfg = some st := by
  obtain ⟨w, r⟩ := st
  cases w <;> cases r <;> rfl

/-- `CFG.HSIZE` of a stored configuration. -/
@[simp] theorem cfgHsize_cfg (st : Setup) : cfgHsize st.cfg = BitVec.ofNat 8 st.width.bytes := by
  obtain ⟨w, r⟩ := st
  cases w <;> cases r <;> rfl

/-- A legal `CFG` is the one its configuration stores. -/
theorem cfg_of_setupOfCfg? (cfg : BitVec 16) (st : Setup) (h : setupOfCfg? cfg = some st) :
    st.cfg = cfg := by
  unfold setupOfCfg? at h
  split at h
  · rename_i hz
    rw [setup_cfg_eq _ _ _ h]
    have hz' : cfgZero cfg = 0 := by simpa using hz
    have hz'' := congrArg BitVec.toNat hz'
    have hc := cfg.isLt
    apply BitVec.eq_of_toNat_eq
    simp only [BitVec.toNat_append, cfgHsize, cfgRounds, cfgZero, BitVec.extractLsb'_toNat,
      BitVec.toNat_setWidth, Nat.shiftRight_eq_div_pow] at hz'' ⊢
    have h0 : (0 : Nat) < 2 ^ 5 := by decide
    have h3 : cfg.toNat / 2 ^ 0 % 2 ^ 3 % 2 ^ 8 / 2 ^ 0 % 2 ^ 3 < 2 ^ 3 := Nat.mod_lt _ (by decide)
    have e0 : (0 : BitVec 5).toNat = 0 := rfl
    rw [e0] at hz''
    rw [e0, ← Nat.shiftLeft_add_eq_or_of_lt h0, ← Nat.shiftLeft_add_eq_or_of_lt h3]
    simp only [Nat.shiftLeft_eq]
    omega
  · cases h

/-- The digest widths as numbers of bytes. -/
theorem Width.bytes_mem (w : Width) : w.bytes ∈ [16, 20, 24, 28, 32] := by cases w <;> decide

/-- A bank ready to be fed, told by its registers. -/
theorem Bank.ready?_eq (b : Bank) (st : Setup) :
    b.ready? = some st ↔ b.buflen.toNat < 128 ∧ setupOfCfg? b.cfg = some st := by
  unfold Bank.ready?
  split <;> simp_all

end Sys2Proof.Machine
end

