-- ==== Sys2Proof/Laws/State.lean ====
section
/-! SUPPORT. One lemma per field per update of the state, a bank and the engine, each true by rfl, so that
no later proof unfolds a record update. -/

namespace Sys2Proof.Machine

/-! ### Updates of the state -/

@[simp] theorem State.setBank_banks (s : State) (c : BankNo) (b : Bank) :
    (s.setBank c b).banks = s.banks.set c.toNat b := rfl
@[simp] theorem State.setBank_engine (s : State) (c : BankNo) (b : Bank) :
    (s.setBank c b).engine = s.engine := rfl
@[simp] theorem State.setBank_scratch (s : State) (c : BankNo) (b : Bank) :
    (s.setBank c b).scratch = s.scratch := rfl
@[simp] theorem State.setBank_input (s : State) (c : BankNo) (b : Bank) :
    (s.setBank c b).input = s.input := rfl
@[simp] theorem State.setBank_inSize (s : State) (c : BankNo) (b : Bank) :
    (s.setBank c b).inSize = s.inSize := rfl
@[simp] theorem State.setBank_algName (s : State) (c : BankNo) (b : Bank) :
    (s.setBank c b).algName = s.algName := rfl
@[simp] theorem State.setBank_port (s : State) (c : BankNo) (b : Bank) :
    (s.setBank c b).port = s.port := rfl
@[simp] theorem State.setBank_resp (s : State) (c : BankNo) (b : Bank) :
    (s.setBank c b).resp = s.resp := rfl

@[simp] theorem State.setEngine_banks (s : State) (e : Engine) :
    (s.setEngine e).banks = s.banks := rfl
@[simp] theorem State.setEngine_engine (s : State) (e : Engine) :
    (s.setEngine e).engine = e := rfl
@[simp] theorem State.setEngine_scratch (s : State) (e : Engine) :
    (s.setEngine e).scratch = s.scratch := rfl
@[simp] theorem State.setEngine_input (s : State) (e : Engine) :
    (s.setEngine e).input = s.input := rfl
@[simp] theorem State.setEngine_inSize (s : State) (e : Engine) :
    (s.setEngine e).inSize = s.inSize := rfl
@[simp] theorem State.setEngine_algName (s : State) (e : Engine) :
    (s.setEngine e).algName = s.algName := rfl
@[simp] theorem State.setEngine_port (s : State) (e : Engine) :
    (s.setEngine e).port = s.port := rfl
@[simp] theorem State.setEngine_resp (s : State) (e : Engine) :
    (s.setEngine e).resp = s.resp := rfl

@[simp] theorem State.answer_banks (s : State) (r : Response) :
    (s.answer r).banks = s.banks := rfl
@[simp] theorem State.answer_engine (s : State) (r : Response) :
    (s.answer r).engine = s.engine := rfl
@[simp] theorem State.answer_scratch (s : State) (r : Response) :
    (s.answer r).scratch = s.scratch := rfl
@[simp] theorem State.answer_input (s : State) (r : Response) :
    (s.answer r).input = s.input := rfl
@[simp] theorem State.answer_inSize (s : State) (r : Response) :
    (s.answer r).inSize = s.inSize := rfl
@[simp] theorem State.answer_algName (s : State) (r : Response) :
    (s.answer r).algName = s.algName := rfl
@[simp] theorem State.answer_port (s : State) (r : Response) :
    (s.answer r).port = s.port := rfl
@[simp] theorem State.answer_resp (s : State) (r : Response) :
    (s.answer r).resp = some r := rfl

@[simp] theorem State.consume_banks (s : State) (rest : List Word) :
    (s.consume rest).banks = s.banks := rfl
@[simp] theorem State.consume_engine (s : State) (rest : List Word) :
    (s.consume rest).engine = s.engine := rfl
@[simp] theorem State.consume_scratch (s : State) (rest : List Word) :
    (s.consume rest).scratch = s.scratch := rfl
@[simp] theorem State.consume_input (s : State) (rest : List Word) :
    (s.consume rest).input = s.input := rfl
@[simp] theorem State.consume_inSize (s : State) (rest : List Word) :
    (s.consume rest).inSize = s.inSize := rfl
@[simp] theorem State.consume_algName (s : State) (rest : List Word) :
    (s.consume rest).algName = s.algName := rfl
@[simp] theorem State.consume_port (s : State) (rest : List Word) :
    (s.consume rest).port = rest := rfl
@[simp] theorem State.consume_resp (s : State) (rest : List Word) :
    (s.consume rest).resp = s.resp := rfl

@[simp] theorem State.idle_banks (s : State) :
    s.idle.banks = s.banks := rfl
@[simp] theorem State.idle_engine (s : State) :
    s.idle.engine = s.engine := rfl
@[simp] theorem State.idle_scratch (s : State) :
    s.idle.scratch = s.scratch := rfl
@[simp] theorem State.idle_input (s : State) :
    s.idle.input = s.input := rfl
@[simp] theorem State.idle_inSize (s : State) :
    s.idle.inSize = s.inSize := rfl
@[simp] theorem State.idle_algName (s : State) :
    s.idle.algName = s.algName := rfl
@[simp] theorem State.idle_port (s : State) :
    s.idle.port = s.port := rfl
@[simp] theorem State.idle_resp (s : State) :
    s.idle.resp = none := rfl

@[simp] theorem State.hostIssue_banks (s : State) (words : List Word) :
    (s.hostIssue words).banks = s.banks := rfl
@[simp] theorem State.hostIssue_engine (s : State) (words : List Word) :
    (s.hostIssue words).engine = s.engine := rfl
@[simp] theorem State.hostIssue_scratch (s : State) (words : List Word) :
    (s.hostIssue words).scratch = s.scratch := rfl
@[simp] theorem State.hostIssue_input (s : State) (words : List Word) :
    (s.hostIssue words).input = s.input := rfl
@[simp] theorem State.hostIssue_inSize (s : State) (words : List Word) :
    (s.hostIssue words).inSize = s.inSize := rfl
@[simp] theorem State.hostIssue_algName (s : State) (words : List Word) :
    (s.hostIssue words).algName = s.algName := rfl
@[simp] theorem State.hostIssue_port (s : State) (words : List Word) :
    (s.hostIssue words).port = s.port ++ words := rfl
@[simp] theorem State.hostIssue_resp (s : State) (words : List Word) :
    (s.hostIssue words).resp = s.resp := rfl

@[simp] theorem State.retireScratch_banks (s : State) (e : Engine) :
    (s.retireScratch e).banks = s.banks := rfl
@[simp] theorem State.retireScratch_engine (s : State) (e : Engine) :
    (s.retireScratch e).engine = { e with fresh := e.fresh + 1 } := rfl
@[simp] theorem State.retireScratch_scratch (s : State) (e : Engine) :
    (s.retireScratch e).scratch = Bank.unspecified e.fresh := rfl
@[simp] theorem State.retireScratch_input (s : State) (e : Engine) :
    (s.retireScratch e).input = s.input := rfl
@[simp] theorem State.retireScratch_inSize (s : State) (e : Engine) :
    (s.retireScratch e).inSize = s.inSize := rfl
@[simp] theorem State.retireScratch_algName (s : State) (e : Engine) :
    (s.retireScratch e).algName = s.algName := rfl
@[simp] theorem State.retireScratch_port (s : State) (e : Engine) :
    (s.retireScratch e).port = s.port := rfl
@[simp] theorem State.retireScratch_resp (s : State) (e : Engine) :
    (s.retireScratch e).resp = s.resp := rfl

@[simp] theorem State.setBank_nctx (s : State) (c : BankNo) (b : Bank) : (s.setBank c b).nctx = s.nctx := by
  simp [State.nctx]
@[simp] theorem State.setBank_config (s : State) (c : BankNo) (b : Bank) : (s.setBank c b).config = s.config := by
  simp [State.config]
@[simp] theorem State.setEngine_nctx (s : State) (e : Engine) : (s.setEngine e).nctx = s.nctx := rfl
@[simp] theorem State.setEngine_config (s : State) (e : Engine) : (s.setEngine e).config = s.config := rfl
@[simp] theorem State.answer_nctx (s : State) (r : Response) : (s.answer r).nctx = s.nctx := rfl
@[simp] theorem State.answer_config (s : State) (r : Response) : (s.answer r).config = s.config := rfl
@[simp] theorem State.consume_nctx (s : State) (rest : List Word) : (s.consume rest).nctx = s.nctx := rfl
@[simp] theorem State.consume_config (s : State) (rest : List Word) : (s.consume rest).config = s.config := rfl
@[simp] theorem State.idle_nctx (s : State) : s.idle.nctx = s.nctx := rfl
@[simp] theorem State.idle_config (s : State) : s.idle.config = s.config := rfl
@[simp] theorem State.hostIssue_nctx (s : State) (words : List Word) : (s.hostIssue words).nctx = s.nctx := rfl
@[simp] theorem State.hostIssue_config (s : State) (words : List Word) : (s.hostIssue words).config = s.config := rfl
@[simp] theorem State.retireScratch_nctx (s : State) (e : Engine) : (s.retireScratch e).nctx = s.nctx := rfl
@[simp] theorem State.retireScratch_config (s : State) (e : Engine) : (s.retireScratch e).config = s.config := rfl
@[simp] theorem State.setEngine_bank? (s : State) (e : Engine) (c : BankNo) : (s.setEngine e).bank? c = s.bank? c := rfl
@[simp] theorem State.answer_bank? (s : State) (r : Response) (c : BankNo) : (s.answer r).bank? c = s.bank? c := rfl
@[simp] theorem State.consume_bank? (s : State) (rest : List Word) (c : BankNo) : (s.consume rest).bank? c = s.bank? c := rfl
@[simp] theorem State.idle_bank? (s : State) (c : BankNo) : s.idle.bank? c = s.bank? c := rfl
@[simp] theorem State.hostIssue_bank? (s : State) (words : List Word) (c : BankNo) : (s.hostIssue words).bank? c = s.bank? c := rfl
@[simp] theorem State.retireScratch_bank? (s : State) (e : Engine) (c : BankNo) : (s.retireScratch e).bank? c = s.bank? c := rfl

/-! ### Updates of a bank -/

@[simp] theorem Bank.ctxReset_valid (b : Bank) : b.ctxReset.valid = b.valid := rfl
@[simp] theorem Bank.ctxReset_cfg (b : Bank) : b.ctxReset.cfg = b.cfg := rfl
@[simp] theorem Bank.ctxReset_h (b : Bank) : b.ctxReset.h = IV := rfl
@[simp] theorem Bank.ctxReset_count (b : Bank) : b.ctxReset.count = 0 := rfl
@[simp] theorem Bank.ctxReset_buflen (b : Bank) : b.ctxReset.buflen = 0 := rfl
@[simp] theorem Bank.ctxReset_buf (b : Bank) : b.ctxReset.buf = Vector.replicate 128 0 := rfl

@[simp] theorem Bank.configure_valid (b : Bank) (st : Setup) : (b.configure st).valid = b.valid := rfl
@[simp] theorem Bank.configure_cfg (b : Bank) (st : Setup) : (b.configure st).cfg = st.cfg := rfl
@[simp] theorem Bank.configure_h (b : Bank) (st : Setup) : (b.configure st).h = IV := rfl
@[simp] theorem Bank.configure_count (b : Bank) (st : Setup) : (b.configure st).count = 0 := rfl
@[simp] theorem Bank.configure_buflen (b : Bank) (st : Setup) : (b.configure st).buflen = 0 := rfl
@[simp] theorem Bank.configure_buf (b : Bank) (st : Setup) : (b.configure st).buf = Vector.replicate 128 0 := rfl

@[simp] theorem Bank.construct_valid (b : Bank) (st : Setup) : (b.construct st).valid = true := rfl
@[simp] theorem Bank.construct_cfg (b : Bank) (st : Setup) : (b.construct st).cfg = st.cfg := rfl
@[simp] theorem Bank.construct_h (b : Bank) (st : Setup) : (b.construct st).h = IV := rfl
@[simp] theorem Bank.construct_count (b : Bank) (st : Setup) : (b.construct st).count = 0 := rfl
@[simp] theorem Bank.construct_buflen (b : Bank) (st : Setup) : (b.construct st).buflen = 0 := rfl
@[simp] theorem Bank.construct_buf (b : Bank) (st : Setup) : (b.construct st).buf = Vector.replicate 128 0 := rfl

@[simp] theorem Bank.store_valid (b : Bank) (byte : Byte) : (b.store byte).valid = b.valid := rfl
@[simp] theorem Bank.store_cfg (b : Bank) (byte : Byte) : (b.store byte).cfg = b.cfg := rfl
@[simp] theorem Bank.store_h (b : Bank) (byte : Byte) : (b.store byte).h = b.h := rfl
@[simp] theorem Bank.store_count (b : Bank) (byte : Byte) : (b.store byte).count = b.count + 1 := rfl
@[simp] theorem Bank.store_buflen (b : Bank) (byte : Byte) : (b.store byte).buflen = b.buflen + 1 := rfl
@[simp] theorem Bank.store_buf (b : Bank) (byte : Byte) : (b.store byte).buf = b.buf.setIfInBounds b.buflen.toNat byte := rfl

@[simp] theorem Bank.clearBuffer_valid (b : Bank) : b.clearBuffer.valid = b.valid := rfl
@[simp] theorem Bank.clearBuffer_cfg (b : Bank) : b.clearBuffer.cfg = b.cfg := rfl
@[simp] theorem Bank.clearBuffer_h (b : Bank) : b.clearBuffer.h = b.h := rfl
@[simp] theorem Bank.clearBuffer_count (b : Bank) : b.clearBuffer.count = b.count := rfl
@[simp] theorem Bank.clearBuffer_buflen (b : Bank) : b.clearBuffer.buflen = 0 := rfl
@[simp] theorem Bank.clearBuffer_buf (b : Bank) : b.clearBuffer.buf = Vector.replicate 128 0 := rfl

@[simp] theorem xform_valid (r : Passes) (be : Bank × Engine) : (xform r be).1.valid = be.1.valid := rfl
@[simp] theorem xform_cfg (r : Passes) (be : Bank × Engine) : (xform r be).1.cfg = be.1.cfg := rfl
@[simp] theorem xform_h (r : Passes) (be : Bank × Engine) : (xform r be).1.h = compress r be.1.h be.1.buf := rfl
@[simp] theorem xform_count (r : Passes) (be : Bank × Engine) : (xform r be).1.count = be.1.count := rfl
@[simp] theorem xform_buflen (r : Passes) (be : Bank × Engine) : (xform r be).1.buflen = be.1.buflen := rfl
@[simp] theorem xform_buf (r : Passes) (be : Bank × Engine) : (xform r be).1.buf = be.1.buf := rfl
@[simp] theorem xform_engine (r : Passes) (be : Bank × Engine) : (xform r be).2 = be.2.retire := rfl

/-! ### Updates of the engine -/

@[simp] theorem Engine.retire_phase (e : Engine) : e.retire.seq.phase = .idle := rfl
@[simp] theorem Engine.retire_fresh (e : Engine) : e.retire.fresh = e.fresh + 1 := rfl

/-! ### Responses and reset -/

@[simp] theorem Response.ok_err (val : Word) (data : List Byte) : (Response.ok val data).err = 0 := rfl
@[simp] theorem Response.ok_val (val : Word) (data : List Byte) : (Response.ok val data).val = val := rfl
@[simp] theorem Response.ok_data (val : Word) (data : List Byte) : (Response.ok val data).data = data := rfl
@[simp] theorem Response.error_err (e : Err) : (Response.error e).err = e.code := rfl
@[simp] theorem Response.error_val (e : Err) : (Response.error e).val = 0 := rfl
@[simp] theorem Response.error_data (e : Err) : (Response.error e).data = [] := rfl

/-- No error has the code of success. -/
theorem Err.code_ne_zero (e : Err) : e.code ≠ 0 := by cases e <;> decide

@[simp] theorem State.powerOn_banks (cfg : Config) :
    (State.powerOn cfg).banks = List.replicate cfg.nctx Bank.powerOn := rfl
@[simp] theorem State.powerOn_nctx (cfg : Config) : (State.powerOn cfg).nctx = cfg.nctx := by
  simp [State.nctx]
@[simp] theorem State.powerOn_config (cfg : Config) : (State.powerOn cfg).config = cfg := by
  cases cfg; simp [State.config, State.powerOn, State.nctx]

end Sys2Proof.Machine
end

