-- ==== Sys2Proof/Laws/Buffer.lean ====
section
/-! SUPPORT. The laws of feeding: what `APPEND` does to each register, what it keeps, and how feeding
splits (spec/40_context.md R123, R133). -/

namespace Sys2Proof.Machine

@[simp] theorem feed_nil (r : Passes) (be : Bank × Engine) : feed r [] be = be := rfl

@[simp] theorem feed_cons (r : Passes) (byte : Byte) (bytes : List Byte) (be : Bank × Engine) :
    feed r (byte :: bytes) be = feed r bytes (append r be byte) := rfl

theorem feed_append (r : Passes) (xs ys : List Byte) (be : Bank × Engine) :
    feed r (xs ++ ys) be = feed r ys (feed r xs be) := by
  simp [feed, List.foldl_append]

/-- After the store the buffer is full exactly when 127 bytes were in it. -/
theorem bufferFull_store (b : Bank) (byte : Byte) :
    bufferFull (b.store byte).buflen = true ↔ b.buflen.toNat = 127 := by
  have hb := b.buflen.isLt
  simp only [bufferFull, Bank.store_buflen, beq_iff_eq]
  constructor
  · intro h
    have := congrArg BitVec.toNat h
    simp [BitVec.toNat_add] at this
    omega
  · intro h
    apply BitVec.eq_of_toNat_eq
    simp [BitVec.toNat_add, h]

/-- `APPEND` of a byte that does not fill the buffer. -/
theorem append_store (r : Passes) (be : Bank × Engine) (byte : Byte) (h : be.1.buflen.toNat ≠ 127) :
    append r be byte = (be.1.store byte, be.2) := by
  unfold append
  rw [if_neg]
  exact fun hf => h ((bufferFull_store _ _).1 hf)

/-- `APPEND` of the byte that fills the buffer. -/
theorem append_full (r : Passes) (be : Bank × Engine) (byte : Byte) (h : be.1.buflen.toNat = 127) :
    append r be byte =
      ((xform r (be.1.store byte, be.2)).1.clearBuffer, be.2.retire) := by
  unfold append
  rw [if_pos ((bufferFull_store _ _).2 h)]
  rfl

/-- The two cases of `APPEND`. -/
theorem append_cases (r : Passes) (be : Bank × Engine) (byte : Byte) :
    (be.1.buflen.toNat ≠ 127 ∧ append r be byte = (be.1.store byte, be.2)) ∨
      (be.1.buflen.toNat = 127 ∧
        append r be byte = ((xform r (be.1.store byte, be.2)).1.clearBuffer, be.2.retire)) := by
  by_cases h : be.1.buflen.toNat = 127
  · exact .inr ⟨h, append_full r be byte h⟩
  · exact .inl ⟨h, append_store r be byte h⟩

@[simp] theorem append_valid (r : Passes) (be : Bank × Engine) (byte : Byte) :
    (append r be byte).1.valid = be.1.valid := by
  rcases append_cases r be byte with ⟨_, h⟩ | ⟨_, h⟩ <;> simp [h]

@[simp] theorem append_cfg (r : Passes) (be : Bank × Engine) (byte : Byte) :
    (append r be byte).1.cfg = be.1.cfg := by
  rcases append_cases r be byte with ⟨_, h⟩ | ⟨_, h⟩ <;> simp [h]

@[simp] theorem append_count (r : Passes) (be : Bank × Engine) (byte : Byte) :
    (append r be byte).1.count = be.1.count + 1 := by
  rcases append_cases r be byte with ⟨_, h⟩ | ⟨_, h⟩ <;> simp [h]

/-- `APPEND` leaves the sequencer IDLE if it was. -/
theorem append_phase (r : Passes) (be : Bank × Engine) (byte : Byte) (hp : be.2.seq.phase = .idle) :
    (append r be byte).2.seq.phase = .idle := by
  rcases append_cases r be byte with ⟨_, h⟩ | ⟨_, h⟩ <;> simp [h, hp]

/-- `BUFLEN` after `APPEND`: one more, modulo 128 (R24). -/
theorem append_buflen (r : Passes) (be : Bank × Engine) (byte : Byte) (hb : be.1.buflen.toNat < 128) :
    (append r be byte).1.buflen.toNat = (be.1.buflen.toNat + 1) % 128 := by
  rcases append_cases r be byte with ⟨hn, h⟩ | ⟨hn, h⟩
  · rw [h]
    simp [BitVec.toNat_add]
    omega
  · rw [h, hn]
    rfl

@[simp] theorem feed_valid (r : Passes) (bytes : List Byte) (be : Bank × Engine) :
    (feed r bytes be).1.valid = be.1.valid := by
  induction bytes generalizing be with
  | nil => rfl
  | cons byte bytes ih => rw [feed_cons, ih, append_valid]

@[simp] theorem feed_cfg (r : Passes) (bytes : List Byte) (be : Bank × Engine) :
    (feed r bytes be).1.cfg = be.1.cfg := by
  induction bytes generalizing be with
  | nil => rfl
  | cons byte bytes ih => rw [feed_cons, ih, append_cfg]

/-- Feeding leaves the sequencer IDLE if it was. -/
theorem feed_phase (r : Passes) (bytes : List Byte) (be : Bank × Engine)
    (hp : be.2.seq.phase = .idle) : (feed r bytes be).2.seq.phase = .idle := by
  induction bytes generalizing be with
  | nil => exact hp
  | cons byte bytes ih => exact ih _ (append_phase r be byte hp)

/-- `COUNT` after feeding: one more per byte, modulo 2^64 (R23). -/
theorem feed_count (r : Passes) (bytes : List Byte) (be : Bank × Engine) :
    (feed r bytes be).1.count = be.1.count + BitVec.ofNat 64 bytes.length := by
  induction bytes generalizing be with
  | nil => simp
  | cons byte bytes ih =>
    rw [feed_cons, ih, append_count, List.length_cons, BitVec.add_assoc]
    congr 1
    apply BitVec.eq_of_toNat_eq
    simp [BitVec.toNat_add, BitVec.toNat_ofNat, Nat.add_comm]

/-- `BUFLEN` after feeding (R24). -/
theorem feed_buflen (r : Passes) (bytes : List Byte) (be : Bank × Engine)
    (hb : be.1.buflen.toNat < 128) :
    (feed r bytes be).1.buflen.toNat = (be.1.buflen.toNat + bytes.length) % 128 := by
  induction bytes generalizing be with
  | nil => simp [Nat.mod_eq_of_lt hb]
  | cons byte bytes ih =>
    have h1 := append_buflen r be byte hb
    have h2 : (append r be byte).1.buflen.toNat < 128 := by rw [h1]; exact Nat.mod_lt _ (by decide)
    rw [feed_cons, ih _ h2, h1, List.length_cons]
    omega

end Sys2Proof.Machine
end

