-- ==== Sys2Proof/Laws/Decode.lean ====
section
/-! SUPPORT. The laws of the encoding: each field of a packed command word is the value packed, a word is
determined by its fields, and packing is the formula of spec/30_encoding.md R91. -/

namespace Sys2Proof

theorem pack_toNat (opc : Byte) (cd cs : BankNo) (p : Bool) (a b : Byte) :
    (pack opc cd cs p a b).toNat =
      opc.toNat * 2 ^ 24 + cd.toNat * 2 ^ 21 + cs.toNat * 2 ^ 18 + p.toNat * 2 ^ 17 + a.toNat * 2 ^ 8 +
        b.toNat := by
  have hp : (bitOf p).toNat = p.toNat := by cases p <;> rfl
  simp only [pack, BitVec.toNat_append, hp]
  have h1 := opc.isLt; have h2 := cd.isLt; have h3 := cs.isLt; have h4 := a.isLt; have h5 := b.isLt
  have h6 : p.toNat < 2 := by cases p <;> decide
  have hz : (0 : BitVec 1).toNat = 0 := rfl
  have h7 : p.toNat < 2 ^ 1 := h6
  have h8 : 0 < 2 ^ 1 := by decide
  rw [hz, ← Nat.shiftLeft_add_eq_or_of_lt h2, ← Nat.shiftLeft_add_eq_or_of_lt h3,
    ← Nat.shiftLeft_add_eq_or_of_lt h7, ← Nat.shiftLeft_add_eq_or_of_lt h8,
    ← Nat.shiftLeft_add_eq_or_of_lt h4, ← Nat.shiftLeft_add_eq_or_of_lt h5]
  simp only [Nat.shiftLeft_eq]
  omega

/-- Packing is the sum of R91. -/
theorem pack_eq_asmWord (opc : Byte) (cd cs : BankNo) (p : Bool) (a b : Byte) :
    pack opc cd cs p a b = Machine.asmWord opc.toNat cd.toNat cs.toNat p.toNat a.toNat b.toNat := by
  apply BitVec.eq_of_toNat_eq
  rw [pack_toNat, Machine.asmWord, BitVec.toNat_ofNat, Nat.mod_eq_of_lt]
  have h1 := opc.isLt; have h2 := cd.isLt; have h3 := cs.isLt; have h4 := a.isLt; have h5 := b.isLt
  have h6 : p.toNat < 2 := by cases p <;> decide
  omega

@[simp] theorem opcOf_pack (opc : Byte) (cd cs : BankNo) (p : Bool) (a b : Byte) :
    opcOf (pack opc cd cs p a b) = opc := by
  apply BitVec.eq_of_toNat_eq
  have h1 := opc.isLt; have h2 := cd.isLt; have h3 := cs.isLt; have h4 := a.isLt; have h5 := b.isLt
  have h6 : p.toNat < 2 := by cases p <;> decide
  simp only [opcOf, BitVec.extractLsb'_toNat, pack_toNat, Nat.shiftRight_eq_div_pow]
  omega

@[simp] theorem cdOf_pack (opc : Byte) (cd cs : BankNo) (p : Bool) (a b : Byte) :
    cdOf (pack opc cd cs p a b) = cd := by
  apply BitVec.eq_of_toNat_eq
  have h1 := opc.isLt; have h2 := cd.isLt; have h3 := cs.isLt; have h4 := a.isLt; have h5 := b.isLt
  have h6 : p.toNat < 2 := by cases p <;> decide
  simp only [cdOf, BitVec.extractLsb'_toNat, pack_toNat, Nat.shiftRight_eq_div_pow]
  omega

@[simp] theorem csOf_pack (opc : Byte) (cd cs : BankNo) (p : Bool) (a b : Byte) :
    csOf (pack opc cd cs p a b) = cs := by
  apply BitVec.eq_of_toNat_eq
  have h1 := opc.isLt; have h2 := cd.isLt; have h3 := cs.isLt; have h4 := a.isLt; have h5 := b.isLt
  have h6 : p.toNat < 2 := by cases p <;> decide
  simp only [csOf, BitVec.extractLsb'_toNat, pack_toNat, Nat.shiftRight_eq_div_pow]
  omega

@[simp] theorem pOf_pack (opc : Byte) (cd cs : BankNo) (p : Bool) (a b : Byte) :
    pOf (pack opc cd cs p a b) = p := by
  have h1 := opc.isLt; have h2 := cd.isLt; have h3 := cs.isLt; have h4 := a.isLt; have h5 := b.isLt
  simp only [pOf, BitVec.getLsbD, pack_toNat, Nat.testBit_eq_decide_div_mod_eq]
  cases p <;> simp <;> omega

@[simp] theorem zOf_pack (opc : Byte) (cd cs : BankNo) (p : Bool) (a b : Byte) :
    zOf (pack opc cd cs p a b) = false := by
  have h1 := opc.isLt; have h2 := cd.isLt; have h3 := cs.isLt; have h4 := a.isLt; have h5 := b.isLt
  simp only [zOf, BitVec.getLsbD, pack_toNat, Nat.testBit_eq_decide_div_mod_eq]
  cases p <;> simp <;> omega

@[simp] theorem aOf_pack (opc : Byte) (cd cs : BankNo) (p : Bool) (a b : Byte) :
    aOf (pack opc cd cs p a b) = a := by
  apply BitVec.eq_of_toNat_eq
  have h1 := opc.isLt; have h2 := cd.isLt; have h3 := cs.isLt; have h4 := a.isLt; have h5 := b.isLt
  have h6 : p.toNat < 2 := by cases p <;> decide
  simp only [aOf, BitVec.extractLsb'_toNat, pack_toNat, Nat.shiftRight_eq_div_pow]
  omega

@[simp] theorem bOf_pack (opc : Byte) (cd cs : BankNo) (p : Bool) (a b : Byte) :
    bOf (pack opc cd cs p a b) = b := by
  apply BitVec.eq_of_toNat_eq
  have h1 := opc.isLt; have h2 := cd.isLt; have h3 := cs.isLt; have h4 := a.isLt; have h5 := b.isLt
  have h6 : p.toNat < 2 := by cases p <;> decide
  simp only [bOf, BitVec.extractLsb'_toNat, pack_toNat, Nat.shiftRight_eq_div_pow]
  omega

/-- A word whose bit 16 is zero is the packing of its fields. -/
theorem pack_fields (w : Word) (hz : zOf w = false) :
    pack (opcOf w) (cdOf w) (csOf w) (pOf w) (aOf w) (bOf w) = w := by
  apply BitVec.eq_of_toNat_eq
  have hw := w.isLt
  have hp : (pOf w).toNat = w.toNat / 2 ^ 17 % 2 := by
    simp only [pOf, BitVec.getLsbD, Nat.testBit_eq_decide_div_mod_eq]
    rcases Nat.mod_two_eq_zero_or_one (w.toNat / 2 ^ 17) with h | h <;> rw [h] <;> rfl
  have hz' : w.toNat / 2 ^ 16 % 2 = 0 := by
    simp only [zOf, BitVec.getLsbD, Nat.testBit_eq_decide_div_mod_eq, decide_eq_false_iff_not] at hz
    omega
  rw [pack_toNat, hp]
  simp only [opcOf, cdOf, csOf, aOf, bOf, BitVec.extractLsb'_toNat, Nat.shiftRight_eq_div_pow]
  omega

/-- The row of an operation's own code. -/
@[simp] theorem opOf_code (op : Op) : opOf op.code = some op := by cases op <;> rfl

/-- The code of the row found. -/
theorem code_of_opOf (b : Byte) (op : Op) (h : opOf b = some op) : op.code = b := by
  have := List.find?_some h
  simpa using this

/-- The decoder never looks past the words R97 gives. -/
theorem decode_cons (nctx : Nat) (cw : Word) (rest : List Word) :
    decode nctx (cw :: rest) =
      if commandLength cw = 1 then judge nctx cw 0 0 rest
      else match rest with
        | off :: len :: rest' => judge nctx cw off len rest'
        | _ => .incomplete := rfl

/-- What the decoder judges of a whole command, by cases: nothing else can come out of it. -/
theorem judge_command (nctx : Nat) (cw off len : Word) (rest : List Word) (i : Instr)
    (rest' : List Word) (h : judge nctx cw off len rest = .command i rest') :
    ∃ op, opOf (opcOf cw) = some op ∧ op.format.free.admits cw = true ∧
      i = buildInstr op cw off len ∧ i.wf nctx = true ∧ rest' = rest := by
  unfold judge at h
  split at h
  · cases h
  · rename_i op hop
    split at h
    · rename_i hadm
      split at h
      · rename_i hwf
        cases h
        exact ⟨op, hop, hadm, rfl, hwf, rfl⟩
      · cases h
    · cases h

end Sys2Proof
end

