-- ==== Sys2Proof/Laws/Memory.lean ====
section
/-! SUPPORT. The laws of the input memory: what a read gives after a write, and that every memory
operation keeps the canonical form and the bound on addresses. -/

namespace Sys2Proof.Machine

@[simp] theorem Memory.read_nil (a : Nat) : Memory.read [] a = Memory.unlisted := rfl

theorem Memory.read_cons (k : Nat) (b : Byte) (m : Memory) (a : Nat) :
    Memory.read ((k, b) :: m) a = if k = a then b else Memory.read m a := rfl

/-- An address the list does not mention reads as the unlisted byte. -/
theorem Memory.read_of_not_mem (m : Memory) (a : Nat) (h : ∀ p ∈ m, p.1 ≠ a) :
    Memory.read m a = Memory.unlisted := by
  induction m with
  | nil => rfl
  | cons p m ih =>
    obtain ⟨k, b⟩ := p
    have hk : k ≠ a := h (k, b) (by simp)
    rw [Memory.read_cons, if_neg hk]
    exact ih fun p hp => h p (List.mem_cons_of_mem _ hp)

/-- A listed byte in front is read first. -/
theorem Memory.read_cell_append (k : Nat) (b : Byte) (m : Memory) (a : Nat)
    (h : ∀ p ∈ m, p.1 ≠ k) :
    Memory.read (Memory.cell k b ++ m) a = if k = a then b else Memory.read m a := by
  unfold Memory.cell
  by_cases hb : b = Memory.unlisted
  · by_cases hk : k = a
    · subst hk
      simp [hb, Memory.read_of_not_mem m k h]
    · simp [hb, hk]
  · simp [hb, Memory.read_cons]

/-- A read after a write: the byte written, and every other byte as before. -/
theorem Memory.read_write (m : Memory) (hm : Memory.wf m) (a : Nat) (b : Byte) (x : Nat) :
    Memory.read (Memory.write m a b) x = if a = x then b else Memory.read m x := by
  induction m with
  | nil =>
    have := Memory.read_cell_append a b [] x (by simp)
    simpa [Memory.write] using this
  | cons p m ih =>
    obtain ⟨k, c⟩ := p
    obtain ⟨hsort, hne⟩ := hm
    rw [List.pairwise_cons] at hsort
    have hm' : Memory.wf m := ⟨hsort.2, fun p hp => hne p (List.mem_cons_of_mem _ hp)⟩
    unfold Memory.write
    by_cases h1 : a < k
    · rw [if_pos h1, Memory.read_cell_append]
      intro p hp
      rcases List.mem_cons.1 hp with rfl | hp
      · simp; omega
      · exact fun hpa => absurd (hsort.1 p hp) (by simp only [hpa]; omega)
    · rw [if_neg h1]
      by_cases h2 : a = k
      · rw [if_pos h2, Memory.read_cell_append]
        · subst h2
          by_cases hx : a = x <;> simp [hx, Memory.read_cons]
        · intro p hp
          exact fun hpa => absurd (hsort.1 p hp) (by simp only [hpa]; omega)
      · rw [if_neg h2, Memory.read_cons, Memory.read_cons, ih hm']
        by_cases hx : a = x
        · subst hx; simp [Ne.symm h2]
        · simp [hx]

/-- What a cell list holds. -/
theorem Memory.mem_cell (a : Nat) (b : Byte) (p : Host.Cell) :
    p ∈ Memory.cell a b ↔ b ≠ Memory.unlisted ∧ p = (a, b) := by
  unfold Memory.cell
  by_cases hb : b = Memory.unlisted <;> simp [hb]

/-- The entries after a write: the byte written, or entries there before. -/
theorem Memory.mem_write (m : Memory) (a : Nat) (b : Byte) (p : Host.Cell)
    (hp : p ∈ Memory.write m a b) : (b ≠ Memory.unlisted ∧ p = (a, b)) ∨ p ∈ m := by
  induction m with
  | nil => exact .inl ((Memory.mem_cell a b p).1 hp)
  | cons q m ih =>
    obtain ⟨k, c⟩ := q
    unfold Memory.write at hp
    split at hp
    · rcases List.mem_append.1 hp with h | h
      · exact .inl ((Memory.mem_cell a b p).1 h)
      · exact .inr h
    · split at hp
      · rcases List.mem_append.1 hp with h | h
        · exact .inl ((Memory.mem_cell a b p).1 h)
        · exact .inr (List.mem_cons_of_mem _ h)
      · rcases List.mem_cons.1 hp with h | h
        · exact .inr (h ▸ List.mem_cons_self ..)
        · rcases ih h with h | h
          · exact .inl h
          · exact .inr (List.mem_cons_of_mem _ h)

/-- A cell in front of a list whose addresses are all higher keeps the form. -/
theorem Memory.wf_cell_append (a : Nat) (b : Byte) (m : Memory) (hm : Memory.wf m)
    (h : ∀ p ∈ m, a < p.1) : Memory.wf (Memory.cell a b ++ m) := by
  unfold Memory.cell
  by_cases hb : b = Memory.unlisted
  · simpa [hb] using hm
  · simp only [hb, if_false, List.cons_append, List.nil_append]
    refine ⟨List.pairwise_cons.2 ⟨h, hm.1⟩, fun p hp => ?_⟩
    rcases List.mem_cons.1 hp with rfl | hp
    · exact hb
    · exact hm.2 p hp

/-- A write keeps the canonical form. -/
theorem Memory.wf_write (m : Memory) (hm : Memory.wf m) (a : Nat) (b : Byte) :
    Memory.wf (Memory.write m a b) := by
  induction m with
  | nil =>
    have := Memory.wf_cell_append a b [] ⟨List.Pairwise.nil, nofun⟩ nofun
    simpa [Memory.write] using this
  | cons p m ih =>
    obtain ⟨k, c⟩ := p
    have hm0 := hm
    obtain ⟨hsort, hne⟩ := hm
    rw [List.pairwise_cons] at hsort
    have hm' : Memory.wf m := ⟨hsort.2, fun p hp => hne p (List.mem_cons_of_mem _ hp)⟩
    unfold Memory.write
    split
    · rename_i h1
      refine Memory.wf_cell_append a b _ hm0 fun p hp => ?_
      rcases List.mem_cons.1 hp with rfl | hp
      · exact h1
      · exact Nat.lt_trans h1 (hsort.1 p hp)
    · split
      · rename_i h1 h2
        exact Memory.wf_cell_append a b m hm' fun p hp => h2 ▸ hsort.1 p hp
      · rename_i h1 h2
        refine ⟨List.pairwise_cons.2 ⟨fun p hp => ?_, (ih hm').1⟩, fun p hp => ?_⟩
        · rcases Memory.mem_write m a b p hp with ⟨_, rfl⟩ | hp
          · simp; omega
          · exact hsort.1 p hp
        · rcases List.mem_cons.1 hp with rfl | hp
          · exact hne (k, c) (List.mem_cons_self ..)
          · exact (ih hm').2 p hp

/-- Writing a list of bytes keeps the canonical form. -/
theorem Memory.wf_writeList (m : Memory) (hm : Memory.wf m) (a : Nat) (bs : List Byte) :
    Memory.wf (Memory.writeList m a bs) := by
  induction bs generalizing m a with
  | nil => exact hm
  | cons b bs ih => exact ih _ (Memory.wf_write m hm a b) _

@[simp] theorem Memory.readRange_length (m : Memory) (a n : Nat) :
    (Memory.readRange m a n).length = n := by simp [Memory.readRange]

theorem Memory.readRange_getElem (m : Memory) (a n i : Nat) (h : i < (Memory.readRange m a n).length) :
    (Memory.readRange m a n)[i] = Memory.read m (a + i) := by simp [Memory.readRange]

/-- A range read in two parts. -/
theorem Memory.readRange_add (m : Memory) (a n k : Nat) :
    Memory.readRange m a (n + k) = Memory.readRange m a n ++ Memory.readRange m (a + n) k := by
  simp [Memory.readRange, List.range_add, Nat.add_assoc, Function.comp_def]

/-- Two memories with the same bytes in a range give the same read of it. -/
theorem Memory.readRange_congr (m m' : Memory) (a n : Nat)
    (h : ∀ x, a ≤ x → x < a + n → Memory.read m x = Memory.read m' x) :
    Memory.readRange m a n = Memory.readRange m' a n := by
  refine List.map_congr_left fun i hi => h _ (by omega) ?_
  have := List.mem_range.1 hi; omega

/-! ### The host's writes -/

@[simp] theorem State.hostWrite_banks (s : State) (a : Nat) (b : Byte) :
    (s.hostWrite a b).banks = s.banks := by unfold State.hostWrite; split <;> rfl
@[simp] theorem State.hostWrite_engine (s : State) (a : Nat) (b : Byte) :
    (s.hostWrite a b).engine = s.engine := by unfold State.hostWrite; split <;> rfl
@[simp] theorem State.hostWrite_scratch (s : State) (a : Nat) (b : Byte) :
    (s.hostWrite a b).scratch = s.scratch := by unfold State.hostWrite; split <;> rfl
@[simp] theorem State.hostWrite_inSize (s : State) (a : Nat) (b : Byte) :
    (s.hostWrite a b).inSize = s.inSize := by unfold State.hostWrite; split <;> rfl
@[simp] theorem State.hostWrite_algName (s : State) (a : Nat) (b : Byte) :
    (s.hostWrite a b).algName = s.algName := by unfold State.hostWrite; split <;> rfl
@[simp] theorem State.hostWrite_port (s : State) (a : Nat) (b : Byte) :
    (s.hostWrite a b).port = s.port := by unfold State.hostWrite; split <;> rfl
@[simp] theorem State.hostWrite_resp (s : State) (a : Nat) (b : Byte) :
    (s.hostWrite a b).resp = s.resp := by unfold State.hostWrite; split <;> rfl
@[simp] theorem State.hostWrite_config (s : State) (a : Nat) (b : Byte) :
    (s.hostWrite a b).config = s.config := by simp [State.config, State.nctx]

/-- A host's write inside `IN` is a write of the memory. -/
theorem State.hostWrite_input (s : State) (a : Nat) (b : Byte) (h : a < s.inSize) :
    (s.hostWrite a b).input = Memory.write s.input a b := by simp [State.hostWrite, h]

/-- A host's write keeps the canonical form and the bound on addresses. -/
theorem State.hostWrite_input_wf (s : State) (a : Nat) (b : Byte) (hw : Memory.wf s.input)
    (hb : ∀ p ∈ s.input, p.1 < s.inSize) :
    Memory.wf (s.hostWrite a b).input ∧ ∀ p ∈ (s.hostWrite a b).input, p.1 < s.inSize := by
  unfold State.hostWrite
  split
  · rename_i h
    refine ⟨Memory.wf_write _ hw a b, fun p hp => ?_⟩
    rcases Memory.mem_write _ a b p hp with ⟨_, rfl⟩ | hp
    · exact h
    · exact hb p hp
  · exact ⟨hw, hb⟩

end Sys2Proof.Machine
end

