-- ==== Sys2Proof/Laws/Ops.lean ====
section
/-! SUPPORT. One law per shared operation of the commands: everything it can answer, so that no proof
unfolds it. -/

namespace Sys2Proof.Machine

/-! ### The banks -/

theorem State.bank?_eq (s : State) (c : BankNo) : s.bank? c = s.banks[c.toNat]? := rfl

/-- A bank exists exactly when its number is `< NCTX`. -/
theorem State.bank?_isSome (s : State) (c : BankNo) :
    (s.bank? c).isSome = true ↔ c.toNat < s.nctx := by
  simp [State.bank?, State.nctx]

theorem State.bank?_none (s : State) (c : BankNo) : s.bank? c = none ↔ s.nctx ≤ c.toNat := by
  simp [State.bank?, State.nctx]

/-- A bank that exists is one of the banks. -/
theorem State.bank?_mem (s : State) (c : BankNo) (b : Bank) (h : s.bank? c = some b) : b ∈ s.banks :=
  List.mem_of_getElem? h

/-- The bank just replaced. -/
theorem State.setBank_bank?_self (s : State) (c : BankNo) (b : Bank) (h : c.toNat < s.nctx) :
    (s.setBank c b).bank? c = some b := by
  have : c.toNat < s.banks.length := h
  simp [State.bank?, this]

/-- Every other bank is as before (R32). -/
theorem State.setBank_bank?_ne (s : State) (c d : BankNo) (b : Bank) (h : d ≠ c) :
    (s.setBank c b).bank? d = s.bank? d := by
  have : c.toNat ≠ d.toNat := fun he => h (BitVec.eq_of_toNat_eq he.symm)
  simp [State.bank?, this]

/-- What a replaced list of banks holds. -/
theorem State.mem_setBank (s : State) (c : BankNo) (b p : Bank) (h : p ∈ (s.setBank c b).banks) :
    p = b ∨ p ∈ s.banks := by
  rcases List.mem_or_eq_of_mem_set h with h | h
  · exact .inr h
  · exact .inl h

/-! ### Ending a command -/

theorem respond_eq (val : Word) (data : List Byte) (s : State) :
    respond val data s = .next (s.answer (Response.ok val data)) := rfl

theorem raise_eq (e : Err) (s : State) : raise e s = .next (s.answer (Response.error e)) := rfl

/-! ### The checks -/

/-- The bank number: `IllegalCommand`, or the bank. -/
theorem withSlot_cases (c : BankNo) (s : State) (k : Bank → Host.Outcome State Fault Refusal) :
    (s.bank? c = none ∧ withSlot c s k = raise .illegalCommand s) ∨
      ∃ b, s.bank? c = some b ∧ withSlot c s k = k b := by
  unfold withSlot
  cases h : s.bank? c with
  | none => exact .inl ⟨rfl, rfl⟩
  | some b => exact .inr ⟨b, rfl, rfl⟩

theorem withSlot_some (c : BankNo) (s : State) (k : Bank → Host.Outcome State Fault Refusal)
    (b : Bank) (h : s.bank? c = some b) : withSlot c s k = k b := by simp [withSlot, h]

/-- `BANK(c)`: `IllegalCommand`, `NoInstance`, or the valid bank (R136). -/
theorem withInstance_cases (c : BankNo) (s : State) (k : Bank → Host.Outcome State Fault Refusal) :
    (s.bank? c = none ∧ withInstance c s k = raise .illegalCommand s) ∨
      (∃ b, s.bank? c = some b ∧ b.valid = false ∧ withInstance c s k = raise .noInstance s) ∨
      ∃ b, s.bank? c = some b ∧ b.valid = true ∧ withInstance c s k = k b := by
  unfold withInstance
  rcases withSlot_cases c s (fun b => if b.valid then k b else raise .noInstance s) with
    ⟨h, he⟩ | ⟨b, h, he⟩
  · exact .inl ⟨h, he⟩
  · cases hv : b.valid with
    | false => exact .inr (.inl ⟨b, h, hv, by rw [he]; simp [hv]⟩)
    | true => exact .inr (.inr ⟨b, h, hv, by rw [he]; simp [hv]⟩)

theorem withInstance_valid (c : BankNo) (s : State) (k : Bank → Host.Outcome State Fault Refusal)
    (b : Bank) (h : s.bank? c = some b) (hv : b.valid = true) : withInstance c s k = k b := by
  simp [withInstance, withSlot_some c s _ b h, hv]

theorem withInstance_invalid (c : BankNo) (s : State) (k : Bank → Host.Outcome State Fault Refusal)
    (b : Bank) (h : s.bank? c = some b) (hv : b.valid = false) :
    withInstance c s k = raise .noInstance s := by
  simp [withInstance, withSlot_some c s _ b h, hv]

/-- `CHECKCFG`: `ConfigurationError`, or the configuration (R120). -/
theorem withSetup_cases (hsize rounds : Byte) (s : State)
    (k : Setup → Host.Outcome State Fault Refusal) :
    (setupOf? hsize rounds = none ∧ withSetup hsize rounds s k = raise .configuration s) ∨
      ∃ st, setupOf? hsize rounds = some st ∧ withSetup hsize rounds s k = k st := by
  unfold withSetup
  cases h : setupOf? hsize rounds with
  | none => exact .inl ⟨rfl, rfl⟩
  | some st => exact .inr ⟨st, rfl, rfl⟩

theorem withSetup_some (hsize rounds : Byte) (s : State)
    (k : Setup → Host.Outcome State Fault Refusal) (st : Setup)
    (h : setupOf? hsize rounds = some st) : withSetup hsize rounds s k = k st := by
  simp [withSetup, h]

/-- `CHECKIN`: `InvalidInputError`, or the bytes (R121). -/
theorem withInput_cases (d : Desc) (s : State) (k : List Byte → Host.Outcome State Fault Refusal) :
    (descAdmitted d s.inSize = false ∧ withInput d s k = raise .invalidInput s) ∨
      (descAdmitted d s.inSize = true ∧ withInput d s k = k (s.inputBytes d)) := by
  unfold withInput
  cases h : descAdmitted d s.inSize with
  | false => exact .inl ⟨rfl, rfl⟩
  | true => exact .inr ⟨rfl, rfl⟩

theorem withInput_admitted (d : Desc) (s : State) (k : List Byte → Host.Outcome State Fault Refusal)
    (h : descAdmitted d s.inSize = true) : withInput d s k = k (s.inputBytes d) := by
  simp [withInput, h]

/-- A descriptor is admitted when its input is present and inside `IN` (R62). -/
theorem descAdmitted_iff (d : Desc) (n : Nat) :
    descAdmitted d n = true ↔ d.present = true ∧ d.off.toNat + d.len.toNat ≤ n := by
  simp [descAdmitted]

@[simp] theorem State.inputBytes_length (s : State) (d : Desc) :
    (s.inputBytes d).length = d.len.toNat := by simp [State.inputBytes]

/-- The registers of a bank about to be fed: the model's fault, or the configuration. -/
theorem withReady_cases (b : Bank) (k : Setup → Host.Outcome State Fault Refusal) :
    (b.ready? = none ∧ withReady b k = .fault .impossibleBank) ∨
      ∃ st, b.ready? = some st ∧ withReady b k = k st := by
  unfold withReady
  cases h : b.ready? with
  | none => exact .inl ⟨rfl, rfl⟩
  | some st => exact .inr ⟨st, rfl, rfl⟩

theorem withReady_some (b : Bank) (k : Setup → Host.Outcome State Fault Refusal) (st : Setup)
    (h : b.ready? = some st) : withReady b k = k st := by simp [withReady, h]

/-- What feeding a bank answers: always a next state. -/
theorem feedBank_eq (c : BankNo) (r : Passes) (bytes : List Byte) (b : Bank) (s : State) :
    feedBank c r bytes b s =
      .next (((s.setEngine (feed r bytes (b, s.engine)).2).setBank c
        (feed r bytes (b, s.engine)).1).answer (Response.ok 0 [])) := rfl

/-! ### One step -/

/-- Everything a step can do: idle, refuse a reserved word, or execute the command it decodes. -/
theorem step_cases (s : State) :
    (s.fetch = .incomplete ∧ step s = .next s.idle) ∨
      (∃ why rest, s.fetch = .reserved why rest ∧ step s = raise .illegalCommand (s.consume rest)) ∨
      ∃ i rest, s.fetch = .command i rest ∧ step s = exec i (s.consume rest) := by
  unfold step
  cases h : s.fetch with
  | incomplete => exact .inl ⟨rfl, rfl⟩
  | reserved why rest => exact .inr (.inl ⟨why, rest, rfl, rfl⟩)
  | command i rest => exact .inr (.inr ⟨i, rest, rfl, rfl⟩)

end Sys2Proof.Machine
end

