-- ==== Sys2Proof/Laws/PerInstr.lean ====
section
/-! SUPPORT. Statements about every command as syntax, one lemma per constructor (LAWS.json). -/

namespace Sys2Proof.Laws.EncodedLength

/-- The words a command encodes to are as many as its first word says (spec/30_encoding.md R97). -/
def Statement (i : Instr) : Prop :=
  ∃ cw rest, encode i = cw :: rest ∧ (encode i).length = commandLength cw

theorem init (c : BankNo) (hsize rounds : Byte) : Statement (.init c hsize rounds) :=
  ⟨_, _, rfl, by simp [encode, commandLength, longOpcodes]⟩

theorem initu (c : BankNo) (hsize rounds : Byte) (d : Desc) : Statement (.initu c hsize rounds d) :=
  ⟨_, _, rfl, by simp [encode, commandLength, longOpcodes]⟩

theorem upd1 (c : BankNo) (byte : Byte) : Statement (.upd1 c byte) :=
  ⟨_, _, rfl, by simp [encode, commandLength, longOpcodes]⟩

theorem updn (c : BankNo) (d : Desc) : Statement (.updn c d) :=
  ⟨_, _, rfl, by simp [encode, commandLength, longOpcodes]⟩

theorem digest (c : BankNo) : Statement (.digest c) :=
  ⟨_, _, rfl, by simp [encode, commandLength, longOpcodes]⟩

theorem reset (c : BankNo) : Statement (.reset c) :=
  ⟨_, _, rfl, by simp [encode, commandLength, longOpcodes]⟩

theorem clone (cd cs : BankNo) : Statement (.clone cd cs) :=
  ⟨_, _, rfl, by simp [encode, commandLength, longOpcodes]⟩

theorem blksz : Statement .blksz := ⟨_, _, rfl, by simp [encode, commandLength, longOpcodes]⟩

theorem hsz (c : BankNo) : Statement (.hsz c) :=
  ⟨_, _, rfl, by simp [encode, commandLength, longOpcodes]⟩

theorem name : Statement .name := ⟨_, _, rfl, by simp [encode, commandLength, longOpcodes]⟩

theorem hash (hsize rounds : Byte) (d : Desc) : Statement (.hash hsize rounds d) :=
  ⟨_, _, rfl, by simp [encode, commandLength, longOpcodes]⟩

theorem hexenc (d : Desc) : Statement (.hexenc d) :=
  ⟨_, _, rfl, by simp [encode, commandLength, longOpcodes]⟩

theorem hexval (d : Desc) : Statement (.hexval d) :=
  ⟨_, _, rfl, by simp [encode, commandLength, longOpcodes]⟩

end Sys2Proof.Laws.EncodedLength
end

