-- ==== Sys2Proof/Tests/Slice0.lean ====
section
/-! SUPPORT. Tests of the model, one step each, with expected results from the vectors of
spec/95_test_vectors.md and the examples of the rules; and, for every obligation that has hypotheses, a
concrete state and operands that meet them. -/

namespace Sys2Proof.Tests

open Sys2Proof.Machine Sys2Proof.Claims

-- One kernel evaluation at a time, to bound memory.
set_option Elab.async false

/-! ### Helpers -/

/-- The state an outcome gives, if it is a next state. -/
def nextOf : Host.Outcome State Fault Refusal → Option State
  | .next s => some s
  | .fault _ => none
  | .refused _ => none

/-- The response an outcome gives. -/
def respOf (o : Host.Outcome State Fault Refusal) : Option Response := (nextOf o).bind State.resp

/-- The bank `c` of the state an outcome gives. -/
def bankOf (c : BankNo) (o : Host.Outcome State Fault Refusal) : Option Bank :=
  (nextOf o).bind fun s => s.bank? c

/-- The response of a step that runs the given words. -/
def respOfWords (s : State) (words : List Word) : Option Response := respOf (step (s.hostIssue words))

/-- A success with the given `VAL` and `DATA`. -/
def ok (val : Word) (data : List Byte) : Option Response := some { err := 0, val := val, data := data }

/-- An error with the given code. -/
def err (code : BitVec 8) : Option Response := some { err := code, val := 0, data := [] }

/-- A machine with two banks and 64 bytes of `IN`, right after power-on. -/
def bare : State := State.powerOn { nctx := 2, inSize := 64, algName := [0x68, 0x61, 0x76, 0x61, 0x6C] }

/-- A fresh instance of the given configuration, as the table of R39 gives it. -/
def freshBank (st : Setup) : Bank := initialBank st.cfg

/-- The 3-pass, 128-bit configuration. -/
def s16x3 : Setup := { width := .w128, passes := .three }

/-- An instance with `n` bytes of value `a` (0x61) buffered. -/
def bufferedBank (n : Nat) : Bank :=
  { freshBank s16x3 with
    count := BitVec.ofNat 64 n
    buflen := BitVec.ofNat 8 n
    buf := Vector.ofFn fun i : Fin 128 => if i.val < n then 0x61 else 0 }

/-- `bare` with bank 0 holding `b`. -/
def holding (b : Bank) : State := { bare with banks := [b, Bank.powerOn] }

/-- `bare` with a fresh instance in bank 0 and the text `"abc"` at `IN[0]`. -/
def abc : State := (holding (freshBank s16x3)).hostPlace 0 [0x61, 0x62, 0x63]

/-! ### WellFormed: an ill-formed command for each check -/

theorem test_wf_bank_two_of_two_refused :
    (Instr.init 2 16 3).wf 2 = false ∧ (Instr.initu 2 16 3 ⟨true, 0, 0⟩).wf 2 = false ∧
      (Instr.upd1 2 0).wf 2 = false ∧ (Instr.updn 2 ⟨true, 0, 0⟩).wf 2 = false ∧
      (Instr.digest 2).wf 2 = false ∧ (Instr.reset 2).wf 2 = false ∧ (Instr.hsz 2).wf 2 = false := by
  decide

theorem test_wf_clone_destination_refused : (Instr.clone 2 0).wf 2 = false := by decide

theorem test_wf_clone_source_refused : (Instr.clone 0 2).wf 2 = false := by decide

theorem test_wf_last_bank_accepted : (Instr.clone 1 1).wf 2 = true ∧ (Instr.clone 7 7).wf 8 = true := by
  decide

/-! ### Decoding: words written out bit by bit from R91, fields OPC, CD, CS, P, Z, A, B -/

theorem test_decode_init :
    decode 8 [0b00000001#8 ++ 0b010#3 ++ 0b000#3 ++ 0b0#1 ++ 0b0#1 ++ 0b00010100#8 ++ 0b00000100#8] =
      .command (.init 2 20 4) [] := by
  decide

theorem test_decode_initu :
    decode 8 [0b00000010#8 ++ 0b001#3 ++ 0b000#3 ++ 0b1#1 ++ 0b0#1 ++ 0b00100000#8 ++ 0b00000101#8, 0, 3] =
      .command (.initu 1 32 5 ⟨true, 0, 3⟩) [] := by
  decide

theorem test_decode_upd1 :
    decode 8 [0b00000011#8 ++ 0b111#3 ++ 0b000#3 ++ 0b0#1 ++ 0b0#1 ++ 0b00000000#8 ++ 0b11111111#8] =
      .command (.upd1 7 0xFF) [] := by
  decide

theorem test_decode_updn :
    decode 8 [0b00000100#8 ++ 0b010#3 ++ 0b000#3 ++ 0b1#1 ++ 0b0#1 ++ 0b00000000#8 ++ 0b00000000#8, 100, 99] =
      .command (.updn 2 ⟨true, 100, 99⟩) [] := by
  decide

theorem test_decode_digest :
    decode 8 [0b00000101#8 ++ 0b011#3 ++ 0b000#3 ++ 0b0#1 ++ 0b0#1 ++ 0b00000000#8 ++ 0b00000000#8] =
      .command (.digest 3) [] := by
  decide

theorem test_decode_reset :
    decode 8 [0b00000110#8 ++ 0b100#3 ++ 0b000#3 ++ 0b0#1 ++ 0b0#1 ++ 0b00000000#8 ++ 0b00000000#8] =
      .command (.reset 4) [] := by
  decide

theorem test_decode_clone :
    decode 8 [0b00000111#8 ++ 0b001#3 ++ 0b110#3 ++ 0b0#1 ++ 0b0#1 ++ 0b00000000#8 ++ 0b00000000#8] =
      .command (.clone 1 6) [] := by
  decide

theorem test_decode_blksz :
    decode 8 [0b00001000#8 ++ 0b000#3 ++ 0b000#3 ++ 0b0#1 ++ 0b0#1 ++ 0b00000000#8 ++ 0b00000000#8] =
      .command .blksz [] := by
  decide

theorem test_decode_hsz :
    decode 8 [0b00001001#8 ++ 0b001#3 ++ 0b000#3 ++ 0b0#1 ++ 0b0#1 ++ 0b00000000#8 ++ 0b00000000#8] =
      .command (.hsz 1) [] := by
  decide

theorem test_decode_name :
    decode 8 [0b00001010#8 ++ 0b000#3 ++ 0b000#3 ++ 0b0#1 ++ 0b0#1 ++ 0b00000000#8 ++ 0b00000000#8] =
      .command .name [] := by
  decide

theorem test_decode_hash :
    decode 8 [0b00001011#8 ++ 0b000#3 ++ 0b000#3 ++ 0b1#1 ++ 0b0#1 ++ 0b00010000#8 ++ 0b00000011#8, 0, 43] =
      .command (.hash 16 3 ⟨true, 0, 43⟩) [] := by
  decide

theorem test_decode_hexenc :
    decode 8 [0b00001100#8 ++ 0b000#3 ++ 0b000#3 ++ 0b1#1 ++ 0b0#1 ++ 0b00000000#8 ++ 0b00000000#8, 5, 4] =
      .command (.hexenc ⟨true, 5, 4⟩) [] := by
  decide

theorem test_decode_hexval :
    decode 8 [0b00001101#8 ++ 0b000#3 ++ 0b000#3 ++ 0b0#1 ++ 0b0#1 ++ 0b00000000#8 ++ 0b00000000#8, 5, 4] =
      .command (.hexval ⟨false, 5, 4⟩) [] := by
  decide

/-- The reserved words of V31. -/
theorem test_decode_reserved_words :
    decode 8 [0x00000000] = .reserved .opcode [] ∧ decode 8 [0xFFFFFFFF] = .reserved .opcode [] ∧
      decode 8 [0x0E000000] = .reserved .opcode [] ∧ decode 8 [0x01011003] = .reserved .zeroField [] ∧
      decode 8 [0x03040061] = .reserved .zeroField [] ∧
      decode 8 [0x04010000, 1, 2, 3] = .reserved .zeroField [3] ∧
      decode 8 [0x05000001] = .reserved .zeroField [] ∧ decode 8 [0x06040000] = .reserved .zeroField [] ∧
      decode 8 [0x08200000] = .reserved .zeroField [] ∧
      decode 8 [0x0A000001] = .reserved .zeroField [] := by
  decide

/-- A bank number not below NCTX (R96 (c)), and a command short of its words. -/
theorem test_decode_bank_number_and_incomplete :
    decode 2 [0x01401404] = .reserved .bankNumber [] ∧ decode 2 [0x07080000] = .reserved .bankNumber [] ∧
      decode 2 [0x04020000, 0] = .incomplete ∧ decode 2 [] = .incomplete := by
  decide

/-- The numbering of spec/opcode_table.json: the first word in the low bits. -/
theorem test_decode_table_word :
    decodeTableWord 32 0x0B021003 = some (.hash 16 3 ⟨true, 0, 0⟩) ∧
      decodeTableWord 96 0x0000002B_00000000_04020000 = some (.updn 0 ⟨true, 0, 43⟩) := by
  decide

/-! ### One step per command -/

/-- Example of R124. -/
theorem test_init_fresh :
    bankOf 0 (step (bare.hostIssue [0x01001003])) =
      some
        { valid := true
          cfg := 0x1003
          h := #v[0x243F6A88, 0x85A308D3, 0x13198A2E, 0x03707344, 0xA4093822, 0x299F31D0, 0x082EFA98,
            0xEC4E6C89]
          count := 0
          buflen := 0
          buf := Vector.replicate 128 0 } := by
  decide +kernel

/-- Example of R124: six passes. -/
theorem test_init_illegal :
    nextOf (step (abc.hostIssue [0x01001006])) = some { abc with resp := err 1 } := by
  decide +kernel

/-- Example of R125. -/
theorem test_initu_abc :
    (bankOf 1 (step (abc.hostIssue [0x02222005, 0, 3]))).map
        (fun b => (b.valid, b.cfg, b.count, b.buflen, b.buf.toList.take 4)) =
      some (true, 0x2005, 3, 3, [0x61, 0x62, 0x63, 0x00]) := by
  decide +kernel

/-- Example of R287: the configuration before the input. -/
theorem test_initu_configuration_first : respOfWords abc [0x02001103, 0, 0] = err 1 := by decide +kernel

/-- Example of R126. -/
theorem test_upd1_first_byte :
    (bankOf 0 (step (abc.hostIssue [0x03000061]))).map
        (fun b => (b.count, b.buflen, b.buf.toList.take 2, b.h == IV)) =
      some (1, 1, [0x61, 0x00], true) := by
  decide +kernel

/-- V80: a bank never constructed. -/
theorem test_upd1_no_instance : respOfWords bare [0x03000061] = err 5 := by decide +kernel

/-- Example of R127: the bytes 0 to 127, the last of them from `IN`. -/
theorem test_updn_whole_block :
    (bankOf 0 (step
        (((holding
          { bufferedBank 127 with
            buf := Vector.ofFn fun i : Fin 128 => BitVec.ofNat 8 i.val }).hostPlace 0 [0x7F]).hostIssue
          [0x04020000, 0, 1]))).map
        (fun b => (b.count, b.buflen, b.h)) =
      some (128, 0, #v[0x72F00E89, 0xD82006E4, 0xFC157C10, 0xBB198175, 0xC8E3118D, 0x32FECFF3, 0x284CB48D,
        0xD98A8E30]) := by
  decide +kernel

/-- V80 with `IN_SIZE = 64`: 60 + 5, 60 + 4, no wrap of `OFF + LEN`, and the bank before the input. -/
theorem test_updn_range :
    respOfWords abc [0x04020000, 60, 5] = err 2 ∧ respOfWords abc [0x04020000, 60, 4] = ok 0 [] ∧
      respOfWords abc [0x04020000, 0xFFFFFFFF, 2] = err 2 ∧ respOfWords abc [0x04200000, 0, 0] = err 5 := by
  decide +kernel

/-- V11: 128 bits, 3 passes, the empty message. -/
theorem test_digest_empty :
    respOfWords abc [0x05000000] =
      ok 0 [0xC6, 0x8F, 0x39, 0x91, 0x3F, 0x90, 0x1F, 0x3D, 0xDF, 0x44, 0xC7, 0x07, 0x35, 0x7A, 0x7D, 0x70] := by
  decide +kernel

/-- V80: a bank never constructed. -/
theorem test_digest_no_instance : respOfWords bare [0x05000000] = err 5 := by decide +kernel

/-- Example of R128. -/
theorem test_reset_buffered :
    bankOf 0 (step ((holding (bufferedBank 3)).hostIssue [0x06000000])) = some (freshBank s16x3) := by
  decide +kernel

/-- Example of R129: destination first. -/
theorem test_clone_into_bank_one :
    (nextOf (step ((holding (bufferedBank 1)).hostIssue [0x07200000]))).map State.banks =
      some [bufferedBank 1, bufferedBank 1] := by
  decide +kernel

/-- `CLONE 0, 1` with an empty source (R129). -/
theorem test_clone_no_source : respOfWords abc [0x07040000] = err 5 := by decide +kernel

/-- Example of R130. -/
theorem test_blksz : respOfWords bare [0x08000000] = ok 128 [] := by decide +kernel

/-- P1: `HSZ 0` of a 128-bit instance. -/
theorem test_hsz : respOfWords abc [0x09000000] = ok 16 [] := by decide +kernel

/-- Example of R132. -/
theorem test_name : respOfWords bare [0x0A000000] = ok 0 [0x68, 0x61, 0x76, 0x61, 0x6C] := by
  decide +kernel

/-- V1: the known answer of the source, as the 32 characters `713502673d67e5fa557629a71d331945`. -/
theorem test_hash_fox :
    respOfWords (bare.hostPlace 0 (asciiBytes "The quick brown fox jumps over the lazy dog"))
        [0x0B021003, 0, 0x2B] =
      ok 0 (asciiBytes "713502673d67e5fa557629a71d331945") := by
  decide +kernel

/-- V80: the configuration before the input, and an absent input. -/
theorem test_hash_errors :
    respOfWords bare [0x0B001103, 0, 0] = err 1 ∧ respOfWords bare [0x0B001003, 0, 0] = err 2 := by
  decide +kernel

/-- V70. -/
theorem test_hexenc :
    respOfWords (bare.hostPlace 0 [0x71, 0x35, 0x02, 0x67]) [0x0C020000, 0, 4] =
        ok 0 [0x37, 0x31, 0x33, 0x35, 0x30, 0x32, 0x36, 0x37] ∧
      respOfWords (bare.hostPlace 0 [0x00, 0xAB, 0xFF]) [0x0C020000, 0, 3] = ok 0 (asciiBytes "00abff") := by
  decide +kernel

/-- V71: the 31 characters printed in the source are of odd length, the 32 are accepted. -/
theorem test_hexval_length :
    respOfWords (bare.hostPlace 0 (asciiBytes "713502673d67e5fa557629a71d331945")) [0x0D020000, 0, 31] = err 3 ∧
      respOfWords (bare.hostPlace 0 (asciiBytes "713502673d67e5fa557629a71d331945")) [0x0D020000, 0, 32] =
        ok 0 [] := by
  decide +kernel

/-- V71: both cases of letters, a letter past `f`, and the empty string. -/
theorem test_hexval_characters :
    respOfWords (bare.hostPlace 0 (asciiBytes "AbCd")) [0x0D020000, 0, 4] = ok 0 [] ∧
      respOfWords (bare.hostPlace 0 (asciiBytes "12g4")) [0x0D020000, 0, 4] = err 3 ∧
      respOfWords bare [0x0D020000, 64, 0] = ok 0 [] := by
  decide +kernel

/-- P4: a reserved word. -/
theorem test_reserved_word_step :
    nextOf (step (abc.hostIssue [0x0E000000, 0x08000000])) =
      some { abc with port := [0x08000000], resp := err 4 } := by
  decide +kernel

/-! ### The compression, the tables and the finalizer -/

/-- Example of R160 with 4 passes, `B[i] = i`. -/
theorem test_compress_four :
    compress .four IV (Vector.ofFn fun i : Fin 128 => BitVec.ofNat 8 i.val) =
      #v[0xE523FF1A, 0x75C09F43, 0x858CCE94, 0x386FDE2E, 0x8621E0A3, 0xBC57AAFD, 0x588B9ECB, 0x378163D0] := by
  decide +kernel

/-- Example of R160 with 5 passes. -/
theorem test_compress_five :
    compress .five IV (Vector.ofFn fun i : Fin 128 => BitVec.ofNat 8 i.val) =
      #v[0xB534DD62, 0x168A9CA5, 0xBD893B00, 0xF6C08F5D, 0x593148D7, 0xFBC9987F, 0x413FF7EC, 0x6A97CA1F] := by
  decide +kernel

/-- Example of R166: the first step of the empty message writes `T[7]`. -/
theorem test_first_step :
    mixStep .p1 ⟨1, 0, 3, 5, 6, 2, 4⟩ ((Vector.replicate 32 0).set 0 1) IV 0 =
      IV.set 7 0x4A8B047E := by
  decide +kernel

/-- The check values of spec/42_tables.md section 4. -/
theorem test_pass_functions :
    [Pass.p1, .p2, .p3, .p4, .p5].map (fun p =>
        passFn p (0x243F6A88 : Word) 0x85A308D3 0x13198A2E 0x03707344 0xA4093822 0x299F31D0 0x082EFA98) =
      [0x8508A00A, 0x0D1FEAD8, 0x8D26D29A, 0x2E3F00DC, 0x8D24A80A] := by
  decide +kernel

/-- V48, input A, at 128 and 160 bits. -/
theorem test_tailor_narrow :
    ((tailor .w128 #v[0x5D7FAC18, 0xAEEF492A, 0xC35CB01C, 0xB39EB616, 0xC315AE1F, 0x47E3C494, 0xB9DE6A30,
        0xBC448E33]).toList.take 4 = [0x91398FC6, 0x3D1F903F, 0x07C744DF, 0x707D7A35]) ∧
      ((tailor .w160 #v[0x5D7FAC18, 0xAEEF492A, 0xC35CB01C, 0xB39EB616, 0xC315AE1F, 0x47E3C494, 0xB9DE6A30,
        0xBC448E33]).toList.take 5 = [0x5D862354, 0xAEF6614D, 0xC3613A30, 0xB39FCFA8, 0xC3218BDB]) := by
  decide +kernel

/-- V48, input A, at 192 and 224 bits. -/
theorem test_tailor_wide :
    ((tailor .w192 #v[0x5D7FAC18, 0xAEEF492A, 0xC35CB01C, 0xB39EB616, 0xC315AE1F, 0x47E3C494, 0xB9DE6A30,
        0xBC448E33]).toList.take 6 =
          [0x5D7FB106, 0xAEEF4B5A, 0xC35CB48D, 0xB39EB730, 0xC315AE7D, 0x47E3CA82]) ∧
      ((tailor .w224 #v[0x5D7FAC18, 0xAEEF492A, 0xC35CB01C, 0xB39EB616, 0xC315AE1F, 0x47E3C494, 0xB9DE6A30,
        0xBC448E33]).toList.take 7 =
          [0x5D7FAC2F, 0xAEEF493B, 0xC35CB01D, 0xB39EB61A, 0xC315AE26, 0x47E3C497, 0xB9DE6A33]) := by
  decide +kernel

/-- P3: `PADBYTES` of 200 bytes at 160 bits and 4 passes. -/
theorem test_pad_bytes :
    padBytes 200 { width := .w160, passes := .four } =
      0x01 :: List.replicate 45 0 ++ [0x21, 0x28, 0x40, 0x06, 0, 0, 0, 0, 0, 0] := by
  decide +kernel

/-- V30: the text and the words of a listing line. -/
theorem test_listing_line :
    (AsmLine.updn 2 (.at 100 100)).words = [0x04420000, 0x64, 0x64] ∧
      (AsmLine.updn 2 .null).words = [0x04400000, 0, 0] := by
  decide

/-- Worked encodings of R99, read from their text, a comment and a hexadecimal number among them; and
the directive of R100. -/
theorem test_listing_text :
    readText "INIT 0, 16, 3" = .line (.init 0 16 3) ∧ readText "UPD1 0, 0x61 ; a" = .line (.upd1 0 0x61) ∧
      readText "CLONE 1, 0" = .line (.clone 1 0) ∧ readText "UPDN 2, NULL" = .line (.updn 2 .null) ∧
      readText "HASH 32, 5, 0, 0" = .line (.hash 32 5 (.at 0 0)) ∧
      readText ".in 0, \"a;b\" ; text" = .line (.dotIn 0 [0x61, 0x3B, 0x62]) ∧
      readText "INIT 8, 16, 3" = .bad := by
  decide +kernel

/-- The model's choices of log 20: no bytes, the empty text, a character outside ASCII, a quotation mark
in the text. -/
theorem test_listing_directive_edges :
    readText ".in 0" = .bad ∧ readText ".in 0, \"\"" = .line (.dotIn 0 []) ∧
      readText (AsmLine.dotIn 0 []).text = .line (.dotIn 0 []) ∧ readText ".in 0, \"é\"" = .bad ∧
      readText ".in 0, \"a\"b\"" = .bad := by
  decide +kernel

/-- The model's choices of log 23: a comma between quotes, and a bare command word. -/
theorem test_listing_quotes_and_bare_word :
    readText ".in 0, \"a,b\"" = .line (.dotIn 0 [0x61, 0x2C, 0x62]) ∧ readText "0x0E000000" = .bad := by
  decide +kernel

/-- The fetch helper of the host places exactly the command's own words. -/
theorem test_with_fetch_word :
    (State.reset.withFetchWord 32 0x01001003).port = [0x01001003] ∧
      (State.reset.withFetchWord 96 0x0000002B_00000000_04020000).port = [0x04020000, 0, 0x2B] := by
  decide +kernel

/-! ### Witnesses: a state and operands that meet the hypotheses of each obligation, clause by clause -/

/-- O1, O9: a well-formed command with the last bank of eight. -/
theorem test_witness_EncodeThenDecode : (Instr.clone 7 7).wf 8 = true := by decide

/-- O2. -/
theorem test_witness_DecodeThenEncode :
    decode 8 [0x04020000, 0, 0x2B, 0x08000000] = .command (.updn 0 ⟨true, 0, 0x2B⟩) [0x08000000] := by
  decide

/-- O4: the port holds a whole command with a reserved OPC (the last), a field that must be zero (bit 16,
three words), and a bank number equal to NCTX. -/
theorem test_witness_ReservedWord :
    (([] : List Word).length + 1 = wordsOf 0xFF000000 ∧ ReservedOpcode 0xFF000000) ∧
    ([(2 : Word), 3].length + 1 = wordsOf 0x04010000 ∧ ReservedField 0x04010000) ∧
    (([] : List Word).length + 1 = wordsOf 0x05400000 ∧ ReservedBank bare.nctx 0x05400000) :=
  ⟨⟨rfl, .inr (by decide)⟩, ⟨rfl, .updn, rfl, by decide⟩, ⟨rfl, .digest, rfl, by decide⟩⟩

/-- O4: and one with a word that is not reserved, its bank number NCTX - 1. -/
theorem test_witness_NotReserved :
    ¬ (ReservedOpcode 0x05200000 ∨ ReservedField 0x05200000 ∨ ReservedBank bare.nctx 0x05200000) := by
  rintro (h | ⟨op, h⟩ | ⟨op, h⟩)
  · unfold ReservedOpcode at h; revert h; decide
  · cases op <;> revert h <;> decide
  · cases op <;> revert h <;> decide

/-- O5: a word short, and just enough. -/
theorem test_witness_CommandLengthByOpcode :
    [(0 : Word)].length + 1 < wordsOf 0x04000000 ∧ wordsOf 0x04000000 ≤ [(0 : Word), 0].length + 1 := by
  decide

/-- O8: a line that is a command, and one that is none. -/
theorem test_witness_ListingLines :
    (AsmLine.updn 2 .null).instr? = some (.updn 2 ⟨false, 0, 0⟩) ∧
      (AsmLine.dotIn 0 [0x61]).instr? = none := by
  decide

/-- O9: a decoded command at the port. -/
theorem test_witness_StepRunsDecodedCommand :
    (bare.hostIssue [0x07200000, 0x08000000]).fetch = .command (.clone 1 0) [0x08000000] ∧
      (Instr.clone 1 0).wf bare.nctx = true ∧
      (bare.hostIssue [0x07200000, 0x08000000]).port = encode (.clone 1 0) ++ [0x08000000] := by
  decide

/-- O10: an empty port, and a port one word short. -/
theorem test_witness_IdleWithoutWholeCommand :
    bare.port = [] ∧
      ∃ cw rest, (bare.hostIssue [0x0D020000, 0]).port = cw :: rest ∧ rest.length + 1 < wordsOf cw :=
  ⟨rfl, 0x0D020000, [0], rfl, by decide⟩

/-- O11, O12, O22: the last legal operands, and the first illegal ones past them. -/
theorem test_witness_InitResult :
    (1 : BankNo).toNat < bare.nctx ∧ LegalSetup 32 5 ∧ LegalSetup 16 3 ∧ ¬ LegalSetup 33 5 ∧
      ¬ LegalSetup 32 6 ∧ ¬ LegalSetup 0 0 := by
  simp only [LegalSetup]; decide

/-- O12, O14, O22, O24, O25: an input that ends at `IN_SIZE`, one that ends past it, one that is absent,
and the empty input at `IN_SIZE`. -/
theorem test_witness_Admitted :
    Admitted bare ⟨true, 60, 4⟩ ∧ ¬ Admitted bare ⟨true, 60, 5⟩ ∧ ¬ Admitted bare ⟨false, 0, 0⟩ ∧
      Admitted bare ⟨true, 64, 0⟩ := by
  simp only [Admitted]; decide

/-- O13, O14, O17, O19, O20, O21, O36: a bank without an instance. -/
theorem test_witness_NoInstance : bare.bank? 1 = some Bank.powerOn ∧ Bank.powerOn.valid = false := ⟨rfl, rfl⟩

/-- O13, O14, O17: banks that can be fed, with 126 and with 127 bytes buffered, `BUFLEN = COUNT mod 128`
(O17, O55). -/
theorem test_witness_Upd1Result :
    (∀ n ∈ [0, 117, 118, 126, 127], (holding (bufferedBank n)).bank? 0 = some (bufferedBank n) ∧
      (bufferedBank n).valid = true ∧ setupOfCfg? (bufferedBank n).cfg = some s16x3 ∧
      (bufferedBank n).buflen.toNat < 128 ∧
      (bufferedBank n).buflen.toNat = (bufferedBank n).count.toNat % 128) ∧
    (bufferedBank 126).buflen.toNat ≠ 127 ∧ (bufferedBank 127).buflen.toNat = 127 := by
  decide +kernel

/-- O13, O14, O17: the same as the premise of those statements. -/
theorem test_witness_Feedable : Feedable (bufferedBank 127) s16x3 := by
  refine ⟨rfl, ?_, ?_⟩ <;> decide +kernel

/-- O14, O15: 127 - 124 = 3 bytes more stay inside the block. -/
theorem test_witness_UpdnWithinBlock :
    Feedable (bufferedBank 124) s16x3 ∧ Admitted (holding (bufferedBank 124)) ⟨true, 0, 3⟩ ∧
      (bufferedBank 124).buflen.toNat + (3 : Word).toNat < 128 := by
  refine ⟨⟨rfl, ?_, ?_⟩, ⟨rfl, ?_⟩, ?_⟩ <;> decide +kernel

/-- O16: a whole block of `IN`. -/
theorem test_witness_WholeBlockFromInput :
    Feedable (bufferedBank 0) s16x3 ∧
      Admitted { holding (bufferedBank 0) with inSize := 128 } ⟨true, 0, 128⟩ ∧
      (bufferedBank 0).buflen = 0 := by
  refine ⟨⟨rfl, ?_, ?_⟩, ⟨rfl, ?_⟩, rfl⟩ <;> decide +kernel

/-- O18, O27, O28: a valid bank as the invariant has it. -/
theorem test_witness_Ok :
    (holding (bufferedBank 3)).bank? 0 = some (bufferedBank 3) ∧ (bufferedBank 3).valid = true ∧
      (bufferedBank 3).Ok := by
  decide +kernel

/-- O20, O29: source and destination, different and the same. -/
theorem test_witness_CloneResult :
    (1 : BankNo).toNat < abc.nctx ∧ abc.bank? 0 = some (freshBank s16x3) ∧
      (freshBank s16x3).valid = true ∧ (0 : BankNo).toNat < abc.nctx ∧ (0 : BankNo) ≠ 1 := by
  decide +kernel

/-- O22: two `HASH` in a row complete. -/
theorem test_witness_HashTwice : ∃ t u, exec (.hash 16 3 ⟨true, 0, 0⟩) bare = .next t ∧
    exec (.hash 16 3 ⟨true, 0, 0⟩) t = .next u :=
  ⟨_, _, rfl, rfl⟩

/-- O23: two states with the same `IN` and different banks. -/
theorem test_witness_HashReadsInputOnly :
    bare.inSize = (holding (bufferedBank 3)).inSize ∧
      (∀ a : Nat, a < bare.inSize →
        Memory.read bare.input a = Memory.read (holding (bufferedBank 3)).input a) ∧
      bare.banks ≠ (holding (bufferedBank 3)).banks :=
  ⟨rfl, fun _ _ => rfl, by decide +kernel⟩

/-- O25: a string of two hex digits, one with a bad character, one of odd length. -/
theorem test_witness_HexvalResult :
    (∀ i : Nat, i < 2 → HexCharacter (Memory.read abc.input (0 + i))) ∧
      ¬ HexCharacter (Memory.read abc.input 3) ∧ (3 : Word).toNat % 2 ≠ 0 := by
  simp only [HexCharacter]; decide

/-- O26: the output of `HEXENC 0, 1` on `"abc"`, put at the end of `IN`. -/
theorem test_witness_HexencOutputPassesHexval :
    Memory.wf abc.input ∧ Admitted abc ⟨true, 0, 1⟩ ∧
      (∃ t, exec (.hexenc ⟨true, 0, 1⟩) abc = .next t ∧
        t.resp = some { err := 0, val := 0, data := [0x36, 0x31] }) ∧
      (2 : Word).toNat = [(0x36 : Byte), 0x31].length ∧ (62 : Word).toNat + (2 : Word).toNat ≤ abc.inSize := by
  refine ⟨by decide +kernel, ⟨rfl, by decide +kernel⟩, ⟨_, rfl, ?_⟩, rfl, by decide +kernel⟩
  decide +kernel

/-- O27: two bytes by two UPD1 and by one UPDN. -/
theorem test_witness_BulkFeeding :
    (∀ x ∈ [BankCommand.upd1 0x61, .upd1 0x62], x.feeds abc = true) ∧
      (∀ y ∈ [BankCommand.updn ⟨true, 0, 2⟩], y.feeds abc = true) ∧
      [BankCommand.upd1 0x61, .upd1 0x62].flatMap (BankCommand.fedBytes abc) =
        [BankCommand.updn ⟨true, 0, 2⟩].flatMap (BankCommand.fedBytes abc) := by
  decide +kernel

/-- O30: commands on banks 0 and 1, one after the other. -/
theorem test_witness_CommandsOnDifferentBanksCommute :
    (0 : BankNo) ≠ 1 ∧ ∃ s1 s2, exec (BankCommand.reset.on 0) abc = .next s1 ∧
      exec ((BankCommand.init 16 3).on 1) s1 = .next s2 :=
  ⟨by decide, _, _, rfl, rfl⟩

/-- O31: INIT sets VALID of an invalid bank; RESET keeps a valid one (O32, O35, O37, too). -/
theorem test_witness_ValidBit :
    (∃ t, exec (.init 1 32 5) abc = .next t ∧ (t.bank? 1).map Bank.valid = some true) ∧
      (∃ t, exec (.reset 0) abc = .next t ∧ (t.bank? 0).map Bank.valid = some true) :=
  ⟨⟨_, rfl, by decide +kernel⟩, ⟨_, rfl, by decide +kernel⟩⟩

/-- O33, O40, O42: a state that meets the invariant, with a valid bank. -/
theorem test_witness_Inv : abc.Inv := by decide +kernel

/-- O33: each error applies to some command, and none to some. -/
theorem test_witness_Applies :
    Applies (.upd1 2 0) abc .illegalCommand ∧ Applies (.upd1 1 0) abc .noInstance ∧
      Applies (.hash 17 3 ⟨true, 0, 0⟩) abc .configuration ∧
      Applies (.hexenc ⟨true, 60, 5⟩) abc .invalidInput ∧ Applies (.hexval ⟨true, 0, 1⟩) abc .format := by
  refine ⟨by rfl, ⟨1, Bank.powerOn, rfl, rfl, rfl⟩, ⟨17, 3, rfl, ?_⟩, ⟨_, rfl, ?_⟩, ⟨_, rfl, ?_⟩⟩
  · simp only [LegalSetup]; decide
  · simp only [Admitted]; decide +kernel
  · rintro ⟨h, -⟩; revert h; decide

/-- O33: two errors at once, the second in the order of R287 not reported; and a command to which none
applies. -/
theorem test_witness_NoneApplies : ∀ e : Err, ¬ Applies .blksz abc e := by
  intro e h
  cases e with
  | configuration => obtain ⟨_, _, h, -⟩ := h; cases h
  | invalidInput => obtain ⟨_, h, -⟩ := h; cases h
  | format => obtain ⟨_, h, -⟩ := h; cases h
  | illegalCommand => cases h
  | noInstance => obtain ⟨_, _, h, -⟩ := h; cases h

/-- O34: a command that ends with an error. -/
theorem test_witness_ErrorsChangeNothing :
    ∃ t, exec (.upd1 1 0) abc = .next t ∧ t.resp = err 5 :=
  ⟨_, rfl, rfl⟩

/-- O38, O40: a step, from a state that meets the invariant, that gives a next state. -/
theorem test_witness_Step :
    (abc.hostIssue [0x06000000]).Inv ∧ ∃ t, step (abc.hostIssue [0x06000000]) = .next t :=
  ⟨by decide +kernel, _, rfl⟩

/-- O39: two commands at the port, which run one after the other. -/
theorem test_witness_CommandsRunInIssueOrder :
    (∀ i ∈ [Instr.reset 0, .clone 1 0], i.wf abc.nctx = true) ∧
      (abc.hostIssue [0x06000000, 0x07200000]).port = [Instr.reset 0, .clone 1 0].flatMap encode ++ [] ∧
      (runCommands [.reset 0, .clone 1 0] (abc.hostIssue [0x06000000, 0x07200000])).isSome = true := by
  decide +kernel

/-- O43: a reachable state with a valid bank. -/
theorem test_witness_Reachable : ∃ s, Reachable s ∧ ∃ b ∈ s.banks, b.valid = true := by
  have h0 : Reachable (bare.hostIssue [0x01001003]) :=
    .issue _ _ (.powerOn { nctx := 2, inSize := 64, algName := [0x68, 0x61, 0x76, 0x61, 0x6C] } (by decide))
  have h1 : ∃ t, step (bare.hostIssue [0x01001003]) = .next t ∧ ∃ b ∈ t.banks, b.valid = true :=
    ⟨_, rfl, _, List.mem_cons_self .., rfl⟩
  obtain ⟨t, ht, hb⟩ := h1
  exact ⟨t, .step _ _ h0 ht, hb⟩

/-- O44: two states that differ in the engine's registers. -/
theorem test_witness_UnobservableState :
    ∃ s t : State, s.Inv ∧ t.Inv ∧ s.SameVisible t ∧ s ≠ t := by
  refine ⟨bare, bare.setEngine { bare.engine with t := Vector.replicate 8 1 }, by decide +kernel,
    by decide +kernel, ⟨rfl, rfl, rfl, fun _ _ => rfl, ?_⟩, by decide +kernel⟩
  exact .cons ⟨rfl, fun h => by cases h⟩ (.cons ⟨rfl, fun h => by cases h⟩ .nil)

/-- O46: the last byte of `IN`, and the first address past it. -/
theorem test_witness_HostWriteReadsBack : Memory.wf abc.input ∧ 63 < abc.inSize ∧ abc.inSize ≤ 64 := by
  decide +kernel

/-- O50: the engine at rest, and the last pass and step of five. -/
theorem test_witness_Sequencer :
    bare.engine.seq.phase = .idle ∧ 4 < Passes.five.count ∧ 31 < 32 := by
  decide

/-- O51: the smallest and the largest amount. -/
theorem test_witness_Rotation : (0 < 1 ∧ 1 < 32) ∧ 0 < 31 ∧ 31 < 32 := by decide

/-- O53: the last pass of a schedule, and the last constant. -/
theorem test_witness_PassSelection :
    (schedule .five)[4]? = some (.p5, ⟨2, 5, 0, 6, 4, 3, 1⟩) ∧ 2 ≤ Pass.p5.number ∧
      (127 : Fin 128).val = 32 * (Pass.p5.number - 2) + (31 : Fin 32).val := by
  decide

/-- O56, O57: the last retained word and the first one folded away, at 160 bits. -/
theorem test_witness_Widths :
    (4 : Fin 8).val < Width.w160.bytes / 4 ∧ Width.w160.bytes / 4 ≤ (5 : Fin 8).val := by
  decide

end Sys2Proof.Tests
end

section
/-! SUPPORT. What a command that completes can do, said once for all thirteen commands, and what that
leaves of `VALID` and `CFG` in each bank (spec/10_state.md R22, R26, R38). -/

namespace Sys2Proof.Machine

open Sys2Proof.Claims

/-! ### Inversion of `exec` -/

/-- A bank and the engine after bytes were fed, put back where they came from. -/
def State.putFed (s : State) (c : BankNo) (be : Bank × Engine) : State :=
  (s.setEngine be.2).setBank c be.1

/-- The ways a command takes a state to a next one: an error answers and changes nothing else, or every
check has passed and the command has its effect. -/
inductive Completes (s : State) : Instr → State → Prop
  | error (i : Instr) (e : Err) : Completes s i (s.answer (Response.error e))
  | init {c : BankNo} {hsize rounds : Byte} {b : Bank} {st : Setup} (hb : s.bank? c = some b)
      (hst : setupOf? hsize rounds = some st) :
      Completes s (.init c hsize rounds)
        ((s.setBank c (b.construct st)).answer (Response.ok 0 []))
  | initu {c : BankNo} {hsize rounds : Byte} {d : Desc} {b : Bank} {st : Setup}
      (hb : s.bank? c = some b) (hst : setupOf? hsize rounds = some st)
      (hd : descAdmitted d s.inSize = true) :
      Completes s (.initu c hsize rounds d)
        ((s.putFed c (feed st.passes (s.inputBytes d) (b.construct st, s.engine))).answer
          (Response.ok 0 []))
  | upd1 {c : BankNo} {byte : Byte} {b : Bank} {st : Setup} (hb : s.bank? c = some b)
      (hv : b.valid = true) (hst : b.ready? = some st) :
      Completes s (.upd1 c byte)
        ((s.putFed c (feed st.passes [byte] (b, s.engine))).answer (Response.ok 0 []))
  | updn {c : BankNo} {d : Desc} {b : Bank} {st : Setup} (hb : s.bank? c = some b)
      (hv : b.valid = true) (hd : descAdmitted d s.inSize = true) (hst : b.ready? = some st) :
      Completes s (.updn c d)
        ((s.putFed c (feed st.passes (s.inputBytes d) (b, s.engine))).answer (Response.ok 0 []))
  | digest {c : BankNo} {b : Bank} {st : Setup} (hb : s.bank? c = some b) (hv : b.valid = true)
      (hst : b.ready? = some st) :
      Completes s (.digest c)
        ((s.putFed c ((padded st (b, s.engine)).1.ctxReset, (padded st (b, s.engine)).2)).answer
          (Response.ok 0 (digestBytes st.width (padded st (b, s.engine)).1.h)))
  | reset {c : BankNo} {b : Bank} (hb : s.bank? c = some b) (hv : b.valid = true) :
      Completes s (.reset c) ((s.setBank c b.ctxReset).answer (Response.ok 0 []))
  | clone {cd cs : BankNo} {old src : Bank} (hold : s.bank? cd = some old)
      (hsrc : s.bank? cs = some src) (hv : src.valid = true) :
      Completes s (.clone cd cs)
        ((s.setBank cd { src with valid := true }).answer (Response.ok 0 []))
  | blksz : Completes s .blksz (s.answer (Response.ok 128 []))
  | hsz {c : BankNo} {b : Bank} (hb : s.bank? c = some b) (hv : b.valid = true) :
      Completes s (.hsz c) (s.answer (Response.ok ((cfgHsize b.cfg).setWidth 32) []))
  | name : Completes s .name (s.answer (Response.ok 0 s.algName))
  | hash {hsize rounds : Byte} {d : Desc} {st : Setup} (hst : setupOf? hsize rounds = some st)
      (hd : descAdmitted d s.inSize = true) :
      Completes s (.hash hsize rounds d)
        ((s.retireScratch (hashed st (s.inputBytes d) s).2).answer
          (Response.ok 0 (hexOf (digestBytes st.width (hashed st (s.inputBytes d) s).1.h))))
  | hexenc {d : Desc} (hd : descAdmitted d s.inSize = true) :
      Completes s (.hexenc d) (s.answer (Response.ok 0 (hexOf (s.inputBytes d))))
  | hexval {d : Desc} (hd : descAdmitted d s.inSize = true) (hlen : d.len.toNat % 2 ≠ 1)
      (hhex : (s.inputBytes d).all isHex = true) :
      Completes s (.hexval d) (s.answer (Response.ok 0 []))

section Checks

variable {s t : State} {i : Instr}

theorem Completes.of_raise {e : Err} (h : raise e s = .next t) : Completes s i t := by
  cases h
  exact .error i e

theorem Completes.of_withSlot {c : BankNo} {k : Bank → Host.Outcome State Fault Refusal}
    (h : withSlot c s k = .next t)
    (hk : ∀ b, s.bank? c = some b → k b = .next t → Completes s i t) : Completes s i t := by
  rcases withSlot_cases c s k with ⟨_, he⟩ | ⟨b, hb, he⟩
  · exact .of_raise (he ▸ h)
  · exact hk b hb (he ▸ h)

theorem Completes.of_withInstance {c : BankNo} {k : Bank → Host.Outcome State Fault Refusal}
    (h : withInstance c s k = .next t)
    (hk : ∀ b, s.bank? c = some b → b.valid = true → k b = .next t → Completes s i t) :
    Completes s i t := by
  rcases withInstance_cases c s k with ⟨_, he⟩ | ⟨_, _, _, he⟩ | ⟨b, hb, hv, he⟩
  · exact .of_raise (he ▸ h)
  · exact .of_raise (he ▸ h)
  · exact hk b hb hv (he ▸ h)

theorem Completes.of_withSetup {hsize rounds : Byte} {k : Setup → Host.Outcome State Fault Refusal}
    (h : withSetup hsize rounds s k = .next t)
    (hk : ∀ st, setupOf? hsize rounds = some st → k st = .next t → Completes s i t) :
    Completes s i t := by
  rcases withSetup_cases hsize rounds s k with ⟨_, he⟩ | ⟨st, hst, he⟩
  · exact .of_raise (he ▸ h)
  · exact hk st hst (he ▸ h)

theorem Completes.of_withInput {d : Desc} {k : List Byte → Host.Outcome State Fault Refusal}
    (h : withInput d s k = .next t)
    (hk : descAdmitted d s.inSize = true → k (s.inputBytes d) = .next t → Completes s i t) :
    Completes s i t := by
  rcases withInput_cases d s k with ⟨_, he⟩ | ⟨hd, he⟩
  · exact .of_raise (he ▸ h)
  · exact hk hd (he ▸ h)

/-- The registers of a bank can be fed if the command completed. -/
theorem withReady_next {b : Bank} {k : Setup → Host.Outcome State Fault Refusal}
    (h : withReady b k = .next t) : ∃ st, b.ready? = some st ∧ k st = .next t := by
  rcases withReady_cases b k with ⟨_, he⟩ | ⟨st, hst, he⟩
  · cases he ▸ h
  · exact ⟨st, hst, he ▸ h⟩

end Checks

/-- Everything `exec` can do when it gives a next state. -/
theorem exec_completes {s t : State} {i : Instr} (h : exec i s = .next t) : Completes s i t := by
  cases i with
  | init c hsize rounds =>
    refine .of_withSlot h fun b hb h => .of_withSetup h fun st hst h => ?_
    cases h
    exact .init hb hst
  | initu c hsize rounds d =>
    refine .of_withSlot h fun b hb h => .of_withSetup h fun st hst h => .of_withInput h fun hd h => ?_
    cases h
    exact .initu hb hst hd
  | upd1 c byte =>
    refine .of_withInstance h fun b hb hv h => ?_
    obtain ⟨st, hst, h⟩ := withReady_next h
    cases h
    exact .upd1 hb hv hst
  | updn c d =>
    refine .of_withInstance h fun b hb hv h => .of_withInput h fun hd h => ?_
    obtain ⟨st, hst, h⟩ := withReady_next h
    cases h
    exact .updn hb hv hd hst
  | digest c =>
    refine .of_withInstance h fun b hb hv h => ?_
    obtain ⟨st, hst, h⟩ := withReady_next h
    cases h
    exact .digest hb hv hst
  | reset c =>
    refine .of_withInstance h fun b hb hv h => ?_
    cases h
    exact .reset hb hv
  | clone cd cs =>
    refine .of_withSlot h fun old hold h => .of_withInstance h fun src hsrc hv h => ?_
    cases h
    exact .clone hold hsrc hv
  | blksz =>
    cases h
    exact .blksz
  | hsz c =>
    refine .of_withInstance h fun b hb hv h => ?_
    cases h
    exact .hsz hb hv
  | name =>
    cases h
    exact .name
  | hash hsize rounds d =>
    refine .of_withSetup h fun st hst h => .of_withInput h fun hd h => ?_
    cases h
    exact .hash hst hd
  | hexenc d =>
    change execHexenc d s = .next t at h
    refine .of_withInput h fun hd h => ?_
    cases h
    exact .hexenc hd
  | hexval d =>
    change execHexval d s = .next t at h
    refine .of_withInput h fun hd h => ?_
    split at h
    · exact .of_raise h
    · next hlen =>
      split at h
      · next hhex =>
        cases h
        exact .hexval hd hlen hhex
      · exact .of_raise h

/-! ### `VALID` and `CFG` of a bank -/

/-- The command is one that constructs the bank `c` (R26). -/
def Constructs (i : Instr) (c : BankNo) : Prop :=
  (∃ hsize rounds, i = .init c hsize rounds) ∨ (∃ hsize rounds d, i = .initu c hsize rounds d) ∨
    ∃ cs, i = .clone c cs

/-- What became of a bank `b` of number `c`: `VALID` and `CFG` are kept, or the command succeeded in
constructing the bank. -/
def KeptOrConstructed (i : Instr) (t : State) (c : BankNo) (b b' : Bank) : Prop :=
  (b'.valid = b.valid ∧ b'.cfg = b.cfg) ∨
    (Constructs i c ∧ b'.valid = true ∧ t.resp = some okResponse)

@[simp] theorem padded_valid (st : Setup) (be : Bank × Engine) :
    (padded st be).1.valid = be.1.valid := feed_valid ..

@[simp] theorem padded_cfg (st : Setup) (be : Bank × Engine) :
    (padded st be).1.cfg = be.1.cfg := feed_cfg ..

/-- Any bank that exists, after one bank is replaced. -/
theorem State.setBank_bank?_some {s : State} {d : BankNo} {b : Bank} (h : s.bank? d = some b)
    (c : BankNo) (new : Bank) : (s.setBank c new).bank? d = some (if d = c then new else b) := by
  by_cases hdc : d = c
  · subst hdc
    rw [if_pos rfl]
    exact s.setBank_bank?_self d new ((s.bank?_isSome d).1 (h ▸ rfl))
  · rw [if_neg hdc, s.setBank_bank?_ne c d new hdc, h]

/-- Any bank that exists, after one bank is fed. -/
theorem State.putFed_bank?_some {s : State} {d : BankNo} {b : Bank} (h : s.bank? d = some b)
    (c : BankNo) (be : Bank × Engine) :
    (s.putFed c be).bank? d = some (if d = c then be.1 else b) :=
  State.setBank_bank?_some (s := s.setEngine be.2) h c be.1

/-- A replaced bank that keeps `VALID` and `CFG`: so does every bank. -/
theorem keptOrConstructed_of_kept {i : Instr} {s t : State} {c d : BankNo} {b old new : Bank}
    (hb : s.bank? d = some b) (hold : s.bank? c = some old) (hv : new.valid = old.valid)
    (hcfg : new.cfg = old.cfg) : KeptOrConstructed i t d b (if d = c then new else b) := by
  by_cases hdc : d = c
  · subst hdc
    obtain rfl : b = old := Option.some.inj (hb.symm.trans hold)
    rw [if_pos rfl]
    exact .inl ⟨hv, hcfg⟩
  · rw [if_neg hdc]
    exact .inl ⟨rfl, rfl⟩

/-- A constructed bank: every other bank is as it was. -/
theorem keptOrConstructed_of_constructs {i : Instr} {t : State} {c d : BankNo} {b new : Bank}
    (hi : Constructs i c) (hv : new.valid = true) (ht : t.resp = some okResponse) :
    KeptOrConstructed i t d b (if d = c then new else b) := by
  by_cases hdc : d = c
  · subst hdc
    rw [if_pos rfl]
    exact .inr ⟨hi, hv, ht⟩
  · rw [if_neg hdc]
    exact .inl ⟨rfl, rfl⟩

/-- R26, R318: a command that completes keeps `VALID` and `CFG` of every bank but the one it
constructs. -/
theorem Completes.keptOrConstructed {s t : State} {i : Instr} (h : Completes s i t) {d : BankNo}
    {b : Bank} (hb : s.bank? d = some b) :
    ∃ b', t.bank? d = some b' ∧ KeptOrConstructed i t d b b' := by
  cases h with
  | error | blksz | hsz | name | hash | hexenc | hexval => exact ⟨b, hb, .inl ⟨rfl, rfl⟩⟩
  | init =>
    exact ⟨_, State.setBank_bank?_some hb ..,
      keptOrConstructed_of_constructs (.inl ⟨_, _, rfl⟩) rfl rfl⟩
  | initu =>
    exact ⟨_, State.putFed_bank?_some hb ..,
      keptOrConstructed_of_constructs (.inr (.inl ⟨_, _, _, rfl⟩)) (feed_valid ..) rfl⟩
  | clone =>
    exact ⟨_, State.setBank_bank?_some hb ..,
      keptOrConstructed_of_constructs (.inr (.inr ⟨_, rfl⟩)) rfl rfl⟩
  | upd1 hold | updn hold =>
    exact ⟨_, State.putFed_bank?_some hb ..,
      keptOrConstructed_of_kept hb hold (feed_valid ..) (feed_cfg ..)⟩
  | digest hold =>
    exact ⟨_, State.putFed_bank?_some hb ..,
      keptOrConstructed_of_kept hb hold (padded_valid ..) (padded_cfg ..)⟩
  | reset hold =>
    exact ⟨_, State.setBank_bank?_some hb .., keptOrConstructed_of_kept hb hold rfl rfl⟩

/-! ### Power-on reset -/

@[simp] theorem State.hostReset_banks (s : State) :
    s.hostReset.banks = List.replicate s.nctx Bank.powerOn := rfl
@[simp] theorem State.hostReset_phase (s : State) : s.hostReset.engine.seq.phase = .idle := rfl
@[simp] theorem State.hostReset_config (s : State) : s.hostReset.config = s.config :=
  State.powerOn_config s.config

/-- R38: no bank is valid after power-on reset. -/
theorem State.hostReset_valid (s : State) : ∀ b ∈ s.hostReset.banks, b.valid = false := by
  intro b hb
  rw [s.hostReset_banks] at hb
  rw [List.eq_of_mem_replicate hb]
  rfl

/-! ### The statements -/

/-- Settles O31: a completing command keeps `VALID` of every bank or has constructed it, and every bank
of a reset machine is a power-on bank. -/
theorem validBitSetByConstruction : Obligations.ValidBitSetByConstruction := by
  refine ⟨fun s t i c b h hb => ?_, State.hostReset_valid⟩
  obtain ⟨b', hb', ⟨hv, -⟩ | ⟨hi, hv, hresp⟩⟩ := (exec_completes h).keptOrConstructed hb
  · refine ⟨b', hb', hv.trans, fun hinvalid hvalid => ?_⟩
    exact absurd (hv.symm.trans hvalid) (by simp [hinvalid])
  · exact ⟨b', hb', fun _ => hv, fun _ _ => ⟨hresp, hi⟩⟩

/-- Settles O45, field by field of the power-on state. -/
theorem powerOnState : Obligations.PowerOnState := fun s =>
  ⟨s.hostReset_valid, s.hostReset_phase, s.hostReset_config⟩

end Sys2Proof.Machine
end

section
/-! SUPPORT. The value of the words that are put together from bytes, and of the words of a block
(spec/00_scope.md R9, spec/41_compress.md R161). -/

namespace Sys2Proof.Machine

/-- The value of two bit vectors written side by side: the right one holds the low bits. -/
theorem toNat_append_eq_add {m n : Nat} (hi : BitVec m) (lo : BitVec n) :
    (hi ++ lo).toNat = 2 ^ n * hi.toNat + lo.toNat := by
  rw [BitVec.toNat_append, ← Nat.shiftLeft_add_eq_or_of_lt lo.isLt, Nat.shiftLeft_eq, Nat.mul_comm]

/-- R9: the value of the word of four bytes, the first one least significant. -/
theorem le32_toNat (b0 b1 b2 b3 : Byte) :
    (le32 b0 b1 b2 b3).toNat =
      b0.toNat + 2 ^ 8 * b1.toNat + 2 ^ 16 * b2.toNat + 2 ^ 24 * b3.toNat := by
  unfold le32
  simp only [toNat_append_eq_add]
  omega

/-- R161: word `i` of a block is made of the four bytes from `4 * i` on. -/
theorem loadX_get (block : Vector Byte 128) (i : Fin 32) :
    (loadX block).get i =
      le32 (block.get ⟨4 * i.val, by omega⟩) (block.get ⟨4 * i.val + 1, by omega⟩)
        (block.get ⟨4 * i.val + 2, by omega⟩) (block.get ⟨4 * i.val + 3, by omega⟩) :=
  Vector.getElem_ofFn i.isLt

/-- Settles O47: each word of a block is the little-endian word of its four bytes. -/
theorem blockWordsLittleEndian : Obligations.BlockWordsLittleEndian := by
  intro block i
  rw [loadX_get, le32_toNat]

end Sys2Proof.Machine
end

section
/-! SUPPORT. What the opcode table says of a command word (spec/30_encoding.md R91 to R97): a word field
by field, the rows' masks and operands in terms of their formats, and what the decoder makes of a word
that is reserved and of one that is not. -/

namespace Sys2Proof

open Sys2Proof.Claims

/-! ### A word field by field (R91) -/

/-- Bit vectors written side by side are equal when their parts are. -/
theorem append_eq_append_iff {m n : Nat} (hi hi' : BitVec m) (lo lo' : BitVec n) :
    hi ++ lo = hi' ++ lo' ↔ hi = hi' ∧ lo = lo' := by
  constructor
  · intro h
    have hhi := congrArg (BitVec.extractLsb' n m) h
    have hlo := congrArg (BitVec.extractLsb' 0 n) h
    rw [BitVec.extractLsb'_append_eq_left, BitVec.extractLsb'_append_eq_left] at hhi
    rw [BitVec.extractLsb'_append_eq_right, BitVec.extractLsb'_append_eq_right] at hlo
    exact ⟨hhi, hlo⟩
  · rintro ⟨rfl, rfl⟩
    rfl

/-- A single bit of a word, as a field of the word. -/
theorem bitOf_getLsbD (w : Word) (i : Nat) : bitOf (w.getLsbD i) = w.extractLsb' i 1 := by
  apply BitVec.eq_of_getLsbD_eq
  intro j hj
  obtain rfl : j = 0 := by omega
  simp [bitOf]

/-- R91: a command word is its seven fields side by side. -/
theorem append_fields (w : Word) :
    opcOf w ++ cdOf w ++ csOf w ++ bitOf (pOf w) ++ bitOf (zOf w) ++ aOf w ++ bOf w = w := by
  simp only [opcOf, cdOf, csOf, pOf, zOf, aOf, bOf, bitOf_getLsbD]
  iterate 6 rw [BitVec.extractLsb'_append_extractLsb'_eq_extractLsb' (by rfl)]
  exact BitVec.extractLsb'_eq_self

/-! ### Masks and matches (R95) -/

/-- The mask of a field: none of its bits where it is free, all of them where it must be zero. -/
def fieldMask (n : Nat) (free : Bool) : BitVec n := if free then 0 else BitVec.allOnes n

theorem and_fieldMask_eq_zero {n : Nat} (x : BitVec n) (free : Bool) :
    x &&& fieldMask n free = 0 ↔ free = true ∨ x = 0 := by
  cases free <;> simp [fieldMask]

/-- The mask of a row is that of its fields: `OPC` and bit 16 always, the others as its format says. -/
theorem rowMask_eq_append (op : Op) :
    rowMask op =
      BitVec.allOnes 8 ++ fieldMask 3 op.format.free.cd ++ fieldMask 3 op.format.free.cs ++
        fieldMask 1 op.format.free.p ++ BitVec.allOnes 1 ++ fieldMask 8 op.format.free.a ++
        fieldMask 8 op.format.free.b := by
  cases op <;> rfl

/-- The match of a row is its `OPC` and zeros. -/
theorem rowMatch_eq_append (op : Op) :
    rowMatch op =
      op.code ++ (0 : BitVec 3) ++ (0 : BitVec 3) ++ (0 : BitVec 1) ++ (0 : BitVec 1) ++
        (0 : BitVec 8) ++ (0 : BitVec 8) := by
  cases op <;> rfl

theorem bitOf_eq_zero (p : Bool) : bitOf p = 0 ↔ p = false := by cases p <;> decide

/-- What a format admits, field by field (R92, R96 (b)). -/
theorem FreeFields.admits_iff (f : FreeFields) (w : Word) :
    f.admits w = true ↔
      (f.cd = true ∨ cdOf w = 0) ∧ (f.cs = true ∨ csOf w = 0) ∧ (f.p = true ∨ pOf w = false) ∧
        zOf w = false ∧ (f.a = true ∨ aOf w = 0) ∧ (f.b = true ∨ bOf w = 0) := by
  simp [FreeFields.admits, and_assoc]

/-- R95: the mask and the match of a row test its `OPC` and the fields its format marks "0". -/
theorem and_rowMask_eq_rowMatch_iff (w : Word) (op : Op) :
    w &&& rowMask op = rowMatch op ↔ op.code = opcOf w ∧ op.format.free.admits w = true := by
  conv_lhs => rw [← append_fields w, rowMask_eq_append, rowMatch_eq_append]
  change (_ : BitVec (8 + 3 + 3 + 1 + 1 + 8 + 8)) &&& _ = _ ↔ _
  simp only [BitVec.and_append, append_eq_append_iff, BitVec.and_allOnes, and_fieldMask_eq_zero,
    bitOf_eq_zero, FreeFields.admits_iff, and_assoc, eq_comm (a := opcOf w)]

/-! ### Rows and their operands (R92 to R95) -/

/-- The row of an `OPC`. -/
theorem opOf_eq_some_iff (b : Byte) (op : Op) : opOf b = some op ↔ op.code = b :=
  ⟨code_of_opOf b op, fun h => h ▸ opOf_code op⟩

/-- The bank numbers among the operands are the bank fields the format marks "free". -/
theorem bankFields_buildInstr (op : Op) (cw off len : Word) :
    (buildInstr op cw off len).bankFields =
      (if op.format.free.cd then [cdOf cw] else []) ++
        (if op.format.free.cs then [csOf cw] else []) := by
  cases op <;> rfl

theorem wf_iff (i : Instr) (nctx : Nat) :
    i.wf nctx = true ↔ ∀ c ∈ i.bankFields, c.toNat < nctx := by
  simp [Instr.wf]

/-- Every encoding of R95 in one line: `OPC` and the free fields packed, then the two extension words
where `P` is free (R91 to R93). -/
theorem encode_buildInstr (op : Op) (cw off len : Word) :
    encode (buildInstr op cw off len) =
      pack op.code (if op.format.free.cd then cdOf cw else 0)
          (if op.format.free.cs then csOf cw else 0) (if op.format.free.p then pOf cw else false)
          (if op.format.free.a then aOf cw else 0) (if op.format.free.b then bOf cw else 0) ::
        if op.format.free.p then [off, len] else [] := by
  cases op <;> rfl

/-- A field that a format admits is the field of the word, free or not. -/
theorem ite_free_eq {α : Type} {free : Bool} {x zero : α} (h : free = true ∨ x = zero) :
    (if free then x else zero) = x := by
  rcases h with rfl | rfl <;> simp

/-- A word its row admits is the command word of the command read from it. -/
theorem encode_buildInstr_of_admits {op : Op} {cw : Word} (hop : op.code = opcOf cw)
    (hadm : op.format.free.admits cw = true) (off len : Word) :
    encode (buildInstr op cw off len) = cw :: if op.format.free.p then [off, len] else [] := by
  obtain ⟨hcd, hcs, hp, hz, ha, hb⟩ := (FreeFields.admits_iff _ _).1 hadm
  rw [encode_buildInstr, hop, ite_free_eq hcd, ite_free_eq hcs, ite_free_eq hp, ite_free_eq ha,
    ite_free_eq hb, pack_fields cw hz]

/-- Operations of one `OPC` are the same. -/
theorem Op.code_inj {op op' : Op} (h : op.code = op'.code) : op = op' :=
  Option.some.inj (by rw [← opOf_code op, h, opOf_code op'])

/-- Commands read by different rows differ, as their encodings do in `OPC`. -/
theorem buildInstr_op_inj {op op' : Op} {cw off len : Word}
    (h : buildInstr op cw off len = buildInstr op' cw off len) : op = op' := by
  have henc := congrArg encode h
  rw [encode_buildInstr, encode_buildInstr] at henc
  have hopc := congrArg opcOf (List.cons.inj henc).1
  rw [opcOf_pack, opcOf_pack] at hopc
  exact Op.code_inj hopc

/-! ### Judging a whole command (R96) -/

/-- A word its row admits, with every bank number below `NCTX`, is the command of that row. -/
theorem judge_of_admits {nctx : Nat} {cw : Word} {op : Op} {off len : Word}
    (hop : op.code = opcOf cw) (hadm : op.format.free.admits cw = true)
    (hwf : (buildInstr op cw off len).wf nctx = true) (rest : List Word) :
    judge nctx cw off len rest = .command (buildInstr op cw off len) rest := by
  simp [judge, (opOf_eq_some_iff _ _).2 hop, hadm, hwf]

/-- The decoder reads the command of a row exactly when the row admits the word and the bank numbers are
below `NCTX`. -/
theorem judge_eq_command_iff (nctx : Nat) (cw off len : Word) (rest : List Word) (op : Op) :
    judge nctx cw off len rest = .command (buildInstr op cw off len) rest ↔
      (op.code = opcOf cw ∧ op.format.free.admits cw = true) ∧
        (buildInstr op cw off len).wf nctx = true := by
  constructor
  · intro h
    obtain ⟨op', hop, hadm, hi, hwf, -⟩ := judge_command _ _ _ _ _ _ _ h
    obtain rfl := buildInstr_op_inj hi
    exact ⟨⟨code_of_opOf _ _ hop, hadm⟩, hwf⟩
  · rintro ⟨⟨hop, hadm⟩, hwf⟩
    exact judge_of_admits hop hadm hwf rest

/-- Settles O3: the mask and match test what the row admits. -/
theorem opcodeTableSelectsRow : Obligations.OpcodeTableSelectsRow := by
  intro nctx cw off len rest op
  rw [judge_eq_command_iff, and_rowMask_eq_rowMatch_iff, wf_iff]

/-- A reserved word: one of the three cases of R96. -/
def ReservedWord (nctx : Nat) (cw : Word) : Prop :=
  ReservedOpcode cw ∨ ReservedField cw ∨ ReservedBank nctx cw

/-- R96 (a): the reserved values of `OPC` are those without a row. -/
theorem reservedOpcode_iff (cw : Word) : ReservedOpcode cw ↔ opOf (opcOf cw) = none := by
  have hall : ∀ b : Byte, (b.toNat = 0x00 ∨ 0x0E ≤ b.toNat) ↔ opOf b = none := by decide
  exact hall (opcOf cw)

/-- A statement about the row of a word's `OPC` is one about the row found. -/
theorem exists_row_iff {cw : Word} {op : Op} (hop : op.code = opcOf cw) (p : Op → Prop) :
    (∃ op' : Op, op'.code = opcOf cw ∧ p op') ↔ p op := by
  constructor
  · rintro ⟨op', hop', hp⟩
    exact Op.code_inj (hop'.trans hop.symm) ▸ hp
  · exact fun hp => ⟨op, hop, hp⟩

/-- R96 (b): a word with a row has a reserved field when the row's format does not admit it. -/
theorem reservedField_iff {cw : Word} {op : Op} (hop : op.code = opcOf cw) :
    ReservedField cw ↔ ¬ op.format.free.admits cw = true := by
  unfold ReservedField
  rw [exists_row_iff hop, FreeFields.admits_iff]
  simp only [not_and_or, not_or, Bool.not_eq_true, Bool.not_eq_false, ne_eq]

/-- R96 (c): a word with a row has a reserved bank number when the command read from it has. -/
theorem reservedBank_iff {nctx : Nat} {cw : Word} {op : Op} (hop : op.code = opcOf cw)
    (off len : Word) :
    ReservedBank nctx cw ↔ ¬ (buildInstr op cw off len).wf nctx = true := by
  unfold ReservedBank
  rw [exists_row_iff hop, wf_iff, bankFields_buildInstr]
  cases op.format.free.cd <;> cases op.format.free.cs <;> simp [imp_iff_not_or]

/-- Everything the decoder can make of a whole command: a reserved word, or the command its words
encode. -/
theorem judge_cases (nctx : Nat) (cw off len : Word) (rest : List Word) :
    (ReservedWord nctx cw ∧ ∃ why, judge nctx cw off len rest = .reserved why rest) ∨
      (¬ ReservedWord nctx cw ∧ ∃ op : Op, op.code = opcOf cw ∧ op.format.free.admits cw = true ∧
        judge nctx cw off len rest = .command (buildInstr op cw off len) rest) := by
  cases hrow : opOf (opcOf cw) with
  | none => exact .inl ⟨.inl ((reservedOpcode_iff cw).2 hrow), .opcode, by simp [judge, hrow]⟩
  | some op =>
    have hop := code_of_opOf _ _ hrow
    by_cases hadm : op.format.free.admits cw = true
    · by_cases hwf : (buildInstr op cw off len).wf nctx = true
      · refine .inr ⟨?_, op, hop, hadm, judge_of_admits hop hadm hwf rest⟩
        rw [ReservedWord, reservedOpcode_iff, reservedField_iff hop, reservedBank_iff hop off len]
        simp [hrow, hadm, hwf]
      · exact .inl ⟨.inr (.inr ((reservedBank_iff hop off len).2 hwf)), .bankNumber,
          by simp [judge, hrow, hadm, hwf]⟩
    · exact .inl ⟨.inr (.inl ((reservedField_iff hop).2 hadm)), .zeroField,
        by simp [judge, hrow, hadm]⟩

/-! ### The words of a command (R97) -/

theorem commandLength_eq_wordsOf (cw : Word) : commandLength cw = wordsOf cw := by
  have hall : ∀ b : Byte,
      longOpcodes.contains b = true ↔ b.toNat ∈ [0x02, 0x04, 0x0B, 0x0C, 0x0D] := by decide
  exact if_congr (hall (opcOf cw)) rfl rfl

/-- The two lengths of R97. -/
theorem wordsOf_eq_one_or_three (cw : Word) : wordsOf cw = 1 ∨ wordsOf cw = 3 := by
  unfold wordsOf
  split
  · exact .inr rfl
  · exact .inl rfl

/-- The formats with two extension words are those with a free `P`. -/
theorem wordsOf_of_code {cw : Word} {op : Op} (hop : op.code = opcOf cw) :
    wordsOf cw = if op.format.free.p then 3 else 1 := by
  rw [wordsOf, ← hop]
  cases op <;> rfl

/-- A port that holds a whole command is judged by its word and its extension words, if it has them. -/
theorem decode_whole (nctx : Nat) (cw : Word) (ext rest : List Word)
    (hlen : ext.length + 1 = wordsOf cw) :
    decode nctx (cw :: ext ++ rest) = judge nctx cw (ext.getD 0 0) (ext.getD 1 0) rest := by
  rw [List.cons_append, decode_cons, commandLength_eq_wordsOf]
  rcases wordsOf_eq_one_or_three cw with hw | hw
  · obtain rfl : ext = [] := List.eq_nil_of_length_eq_zero (by omega)
    simp [hw]
  · obtain ⟨off, len, rfl⟩ := List.length_eq_two.1 (show ext.length = 2 by omega)
    simp [hw]

/-- Fewer words than R97 gives are no whole command. -/
theorem decode_short (nctx : Nat) (cw : Word) (rest : List Word)
    (hlen : rest.length + 1 < wordsOf cw) : decode nctx (cw :: rest) = .incomplete := by
  rw [decode_cons, commandLength_eq_wordsOf]
  rcases wordsOf_eq_one_or_three cw with hw | hw
  · omega
  · match rest, hlen with
    | [], _ => simp [hw]
    | [_], _ => simp [hw]
    | _ :: _ :: _, hlen =>
      simp only [List.length_cons] at hlen
      omega

/-- Settles O5: a short port is incomplete, and a whole command is judged with the words after it. -/
theorem commandLengthByOpcode : Obligations.CommandLengthByOpcode := by
  intro nctx cw rest
  refine ⟨decode_short nctx cw rest, fun hlen => ?_⟩
  obtain ⟨n, hn⟩ : ∃ n, wordsOf cw = n + 1 :=
    ⟨wordsOf cw - 1, by rcases wordsOf_eq_one_or_three cw with hw | hw <;> omega⟩
  have hwhole := decode_whole nctx cw (rest.take n) (rest.drop n)
    (by rw [List.length_take]; omega)
  rw [List.cons_append, List.take_append_drop] at hwhole
  rw [hwhole, hn, List.drop_succ_cons]
  rcases judge_cases nctx cw ((rest.take n).getD 0 0) ((rest.take n).getD 1 0) (rest.drop n) with
    ⟨-, hreserved⟩ | ⟨-, op, -, -, hcommand⟩
  · exact .inl hreserved
  · exact .inr ⟨_, hcommand⟩

/-- The words of a whole command that is not reserved are the encoding of what is read from them. -/
theorem encode_buildInstr_whole {cw : Word} {ext : List Word} {op : Op}
    (hlen : ext.length + 1 = wordsOf cw) (hop : op.code = opcOf cw)
    (hadm : op.format.free.admits cw = true) :
    encode (buildInstr op cw (ext.getD 0 0) (ext.getD 1 0)) = cw :: ext := by
  rw [encode_buildInstr_of_admits hop hadm]
  rw [wordsOf_of_code hop] at hlen
  cases hp : op.format.free.p with
  | false =>
    obtain rfl : ext = [] := List.eq_nil_of_length_eq_zero (by simpa [hp] using hlen)
    rfl
  | true =>
    obtain ⟨off, len, rfl⟩ := List.length_eq_two.1 (show ext.length = 2 by simpa [hp] using hlen)
    rfl

end Sys2Proof

namespace Sys2Proof.Machine

open Sys2Proof.Claims

theorem step_of_fetch_command {s : State} {i : Instr} {rest : List Word}
    (h : s.fetch = .command i rest) : step s = exec i (s.consume rest) := by
  simp [step, h]

theorem step_of_fetch_reserved {s : State} {why : Reserved} {rest : List Word}
    (h : s.fetch = .reserved why rest) : step s = raise .illegalCommand (s.consume rest) := by
  simp [step, h]

/-- Settles O4: what the port holds is judged a reserved word or the command its words encode. -/
theorem reservedWordRaisesIllegalCommand : Obligations.ReservedWordRaisesIllegalCommand := by
  intro s cw ext rest hport hlen
  change (ReservedWord s.nctx cw → _) ∧ (¬ ReservedWord s.nctx cw → _)
  have hfetch : s.fetch = judge s.nctx cw (ext.getD 0 0) (ext.getD 1 0) rest := by
    rw [State.fetch, hport, decode_whole _ _ _ _ hlen]
  rcases judge_cases s.nctx cw (ext.getD 0 0) (ext.getD 1 0) rest with
    ⟨hres, why, hjudge⟩ | ⟨hres, op, hop, hadm, hjudge⟩
  · exact ⟨fun _ => step_of_fetch_reserved (hfetch.trans hjudge), fun h => absurd hres h⟩
  · exact ⟨fun h => absurd h hres, fun _ =>
      ⟨_, encode_buildInstr_whole hlen hop hadm, step_of_fetch_command (hfetch.trans hjudge)⟩⟩

end Sys2Proof.Machine
end

section
/-! SUPPORT. Bytes and their number: words moved as bytes (spec/30_encoding.md R102), and the lengths of
what a command can return in `DATA` (R98; spec/43_finalize.md R234; spec/44_hexcodec.md R262). -/

namespace Sys2Proof.Machine

open Sys2Proof.Claims

/-! ### Words as bytes -/

/-- R66: byte `k` of a value. -/
theorem byteAt_eq_ofNat {n : Nat} (v : BitVec n) (k : Nat) :
    byteAt v k = BitVec.ofNat 8 (v.toNat / 256 ^ k) := by
  rw [show (256 : Nat) ^ k = 2 ^ (8 * k) by rw [Nat.pow_mul], ← Nat.shiftRight_eq_div_pow]
  rfl

/-- R102: a word moves as its four bytes, byte 0 first. -/
theorem wordBytes_eq_map_byteAt (w : Word) : wordBytes w = (List.range 4).map (byteAt w) := rfl

/-- The four bytes of a word make the word again. -/
theorem le32_byteAt (w : Word) : le32 (byteAt w 0) (byteAt w 1) (byteAt w 2) (byteAt w 3) = w := by
  apply BitVec.eq_of_toNat_eq
  rw [le32_toNat]
  simp only [byteAt_eq_ofNat, BitVec.toNat_ofNat]
  have hw := w.isLt
  omega

/-- A word moved in front of other bytes is the first word they carry. -/
theorem bytesWords_wordBytes_append (w : Word) (bytes : List Byte) :
    bytesWords (wordBytes w ++ bytes) = w :: bytesWords bytes :=
  congrArg (· :: bytesWords bytes) (le32_byteAt w)

/-- Settles O7, the second part by induction on the list of words. -/
theorem wordsMoveLeastSignificantByteFirst : Obligations.WordsMoveLeastSignificantByteFirst := by
  refine ⟨fun w k hk => ?_, fun words => ?_⟩
  · rw [wordBytes_eq_map_byteAt, List.getElem?_map, List.getElem?_range hk, Option.map_some,
      byteAt_eq_ofNat]
  · induction words with
    | nil => rfl
    | cons w words ih => rw [List.flatMap_cons, bytesWords_wordBytes_append, ih]

/-! ### Lengths -/

@[simp] theorem bytesLe_length {w : Nat} (v : BitVec w) (n : Nat) : (bytesLe v n).length = n := by
  simp [bytesLe]

/-- R262: two digits per byte. -/
@[simp] theorem hexOf_length (bytes : List Byte) : (hexOf bytes).length = 2 * bytes.length := by
  simp [hexOf, List.length_flatMap, Nat.mul_comm]

/-- R234: the words retained for a width hold as many bytes as the width has. -/
@[simp] theorem serialize_length (w : Width) (d : Vector Word 8) :
    (serialize w d).length = w.bytes := by
  have hwords : 4 * min (w.bytes / 4) 8 = w.bytes := by cases w <;> rfl
  simp only [serialize, List.length_flatMap, bytesLe_length, List.map_const', List.sum_replicate,
    List.length_take, Vector.length_toList, smul_eq_mul]
  omega

@[simp] theorem digestBytes_length (w : Width) (h : Vector Word 8) :
    (digestBytes w h).length = w.bytes := serialize_length ..

/-- R22: `CFG.HSIZE` is the upper byte of `CFG`. -/
theorem cfgHsize_toNat (cfg : BitVec 16) : (cfgHsize cfg).toNat = cfg.toNat / 256 := by
  have hcfg := cfg.isLt
  rw [cfgHsize, BitVec.extractLsb'_toNat, Nat.shiftRight_eq_div_pow]
  omega

/-- The digest of a bank that can be fed is as long as its `CFG` says. -/
theorem width_bytes_of_ready? {b : Bank} {st : Setup} (h : b.ready? = some st) :
    st.width.bytes = b.cfg.toNat / 256 := by
  obtain ⟨-, hst⟩ := (Bank.ready?_eq b st).1 h
  have hwidth : st.width.bytes < 2 ^ 8 := by cases st.width <;> decide
  rw [← cfg_of_setupOfCfg? _ _ hst, ← cfgHsize_toNat, cfgHsize_cfg, BitVec.toNat_ofNat,
    Nat.mod_eq_of_lt hwidth]

/-! ### The table of responses (R98) -/

/-- A response as R98 gives it for a command in a state. -/
def FitsResponseTable (s : State) (i : Instr) (r : Response) : Prop :=
  (r.err ≠ 0 → r.val = 0 ∧ r.data = []) ∧
    (r.err = 0 → r.val = successVal s i ∧ r.data.length = successLength s i ∧
      (i = .name → r.data = s.algName))

theorem fitsResponseTable_error (s : State) (i : Instr) (e : Err) :
    FitsResponseTable s i (Response.error e) :=
  ⟨fun _ => ⟨rfl, rfl⟩, fun h => absurd h e.code_ne_zero⟩

theorem fitsResponseTable_ok {s : State} {i : Instr} {val : Word} {data : List Byte}
    (hval : val = successVal s i) (hlen : data.length = successLength s i)
    (hname : i = .name → data = s.algName) : FitsResponseTable s i (Response.ok val data) :=
  ⟨fun h => absurd rfl h, fun _ => ⟨hval, hlen, hname⟩⟩

/-- R98: the response of a command that completes is the one of the table. -/
theorem Completes.fitsResponseTable {s t : State} {i : Instr} (h : Completes s i t) :
    ∃ r, t.resp = some r ∧ FitsResponseTable s i r := by
  cases h with
  | error _ e => exact ⟨_, rfl, fitsResponseTable_error s i e⟩
  | init | initu | upd1 | updn | reset | clone | blksz | hexval =>
    exact ⟨_, rfl, fitsResponseTable_ok rfl rfl nofun⟩
  | name => exact ⟨_, rfl, fitsResponseTable_ok rfl rfl fun _ => rfl⟩
  | digest hb _ hst =>
    refine ⟨_, rfl, fitsResponseTable_ok rfl ?_ nofun⟩
    rw [digestBytes_length, width_bytes_of_ready? hst]
    simp [successLength, hb]
  | hsz hb =>
    refine ⟨_, rfl, fitsResponseTable_ok ?_ rfl nofun⟩
    simp [successVal, hb, ← cfgHsize_toNat]
  | hash hst =>
    obtain ⟨hwidth, -⟩ := setupOf?_some _ _ _ hst
    refine ⟨_, rfl, fitsResponseTable_ok rfl ?_ nofun⟩
    rw [hexOf_length, digestBytes_length, hwidth]
    rfl
  | hexenc =>
    refine ⟨_, rfl, fitsResponseTable_ok rfl ?_ nofun⟩
    rw [hexOf_length, State.inputBytes_length]
    rfl

/-- Settles O35: by the cases of a command that completes. -/
theorem responseTable : Obligations.ResponseTable := fun _ _ _ h =>
  (exec_completes h).fitsResponseTable

end Sys2Proof.Machine
end

section
/-! SUPPORT. What the context commands INIT, UPD1, UPDN, RESET, CLONE, BLKSZ, HSZ and NAME answer: the
equation of each command on each outcome of its checks (spec/40_context.md R120 to R132), and the run of
UPD1 commands that UPDN stands for (R127). -/

namespace Sys2Proof.Machine

open Sys2Proof.Claims

/-! ### The checks in the words of the claims -/

/-- R120: the legal configurations are those `CHECKCFG` finds. -/
theorem legalSetup_iff (hsize rounds : Byte) :
    LegalSetup hsize rounds ↔ ∃ st, setupOf? hsize rounds = some st := by
  rw [LegalSetup, ← setupOf?_isSome, Option.isSome_iff_exists]

/-- R120: an illegal configuration is error 1, before anything is written. -/
theorem withSetup_illegal {hsize rounds : Byte} (s : State)
    (k : Setup → Host.Outcome State Fault Refusal) (h : ¬ LegalSetup hsize rounds) :
    withSetup hsize rounds s k = .next (afterError s 1) := by
  rcases withSetup_cases hsize rounds s k with ⟨-, he⟩ | ⟨st, hst, -⟩
  · exact he
  · exact absurd ((legalSetup_iff hsize rounds).2 ⟨st, hst⟩) h

/-- R121: the admitted inputs are those `CHECKIN` lets pass. -/
theorem admitted_iff (s : State) (d : Desc) : Admitted s d ↔ descAdmitted d s.inSize = true :=
  (descAdmitted_iff d s.inSize).symm

/-- R121: an input absent or out of range is error 2. -/
theorem withInput_not_admitted {s : State} {d : Desc}
    (k : List Byte → Host.Outcome State Fault Refusal) (h : ¬ Admitted s d) :
    withInput d s k = .next (afterError s 2) := by
  rcases withInput_cases d s k with ⟨-, he⟩ | ⟨hd, -⟩
  · exact he
  · exact absurd ((admitted_iff s d).2 hd) h

/-- R20: a number below `NCTX` names a bank. -/
theorem State.exists_bank? {s : State} {c : BankNo} (h : c.toNat < s.nctx) :
    ∃ b, s.bank? c = some b := Option.isSome_iff_exists.1 ((s.bank?_isSome c).2 h)

/-- R123: a bank that can be fed passes the model's own check of its registers. -/
theorem Bank.ready?_of_feedable {b : Bank} {st : Setup} (h : Feedable b st) :
    b.ready? = some st := by
  obtain ⟨-, hcfg, hlen⟩ := h
  exact (b.ready?_eq st).2 ⟨hlen, hcfg⟩

/-! ### The initial state of a bank (R39, R122) -/

/-- R124: a construction keeps nothing of what the bank held. -/
theorem Bank.construct_eq_initialBank (b : Bank) (st : Setup) :
    b.construct st = initialBank st.cfg := rfl

/-- R122: on a valid bank `CTXRESET` keeps nothing but `CFG`. -/
theorem Bank.ctxReset_eq_initialBank {b : Bank} (h : b.valid = true) :
    b.ctxReset = initialBank b.cfg := by
  simp [Bank.ctxReset, initialBank, h]

/-! ### INIT, RESET, CLONE and the queries -/

/-- Settles O11: after the bank number the configuration decides, and a construction leaves the
initial state whatever the bank held. -/
theorem initResult : Obligations.InitResult := by
  intro s c hsize rounds hc
  obtain ⟨b, hb⟩ := State.exists_bank? hc
  have hexec : exec (.init c hsize rounds) s =
      withSetup hsize rounds s fun st => respond 0 [] (s.setBank c (b.construct st)) :=
    withSlot_some c s _ b hb
  refine ⟨congrArg ([·]) (pack_eq_asmWord 0x01 c 0 false hsize rounds), fun hlegal => ?_,
    fun hillegal => hexec.trans (withSetup_illegal s _ hillegal)⟩
  obtain ⟨st, hst⟩ := (legalSetup_iff hsize rounds).1 hlegal
  rw [hexec, withSetup_some hsize rounds s _ st hst, b.construct_eq_initialBank,
    setup_cfg_eq hsize rounds st hst]
  rfl

/-- Settles O19: a valid bank goes back to the initial state with its `CFG`. -/
theorem resetResult : Obligations.ResetResult := by
  intro s c b hb
  refine ⟨congrArg ([·]) (pack_eq_asmWord 0x06 c 0 false 0 0),
    fun hv => withInstance_invalid c s _ b hb hv, fun hv => ?_⟩
  rw [← Bank.ctxReset_eq_initialBank hv]
  exact withInstance_valid c s _ b hb hv

/-- Writing back what a bank holds changes nothing. -/
theorem State.banks_set_self {s : State} {c : BankNo} {b : Bank} (h : s.bank? c = some b) :
    s.banks.set c.toNat b = s.banks := by
  obtain ⟨hc, rfl⟩ := List.getElem?_eq_some_iff.1 h
  exact List.set_getElem_self hc

/-- Settles O20: the destination is a copy of the source, which for `cd = cs` it already is. -/
theorem cloneResult : Obligations.CloneResult := by
  intro s cd cs src hcd hsrc
  obtain ⟨old, hold⟩ := State.exists_bank? hcd
  have hexec : exec (.clone cd cs) s = withInstance cs s fun src =>
      respond 0 [] (s.setBank cd { src with valid := true }) := withSlot_some cd s _ old hold
  have hcopy (hv : src.valid = true) : exec (.clone cd cs) s =
      .next { s with banks := s.banks.set cd.toNat src, resp := some okResponse } := by
    rw [hexec, withInstance_valid cs s _ src hsrc hv, ← hv]
    rfl
  refine ⟨congrArg ([·]) (pack_eq_asmWord 0x07 cd cs false 0 0),
    fun hv => hexec.trans (withInstance_invalid cs s _ src hsrc hv), hcopy, fun hv heq => ?_⟩
  rw [hcopy hv, heq, State.banks_set_self hsrc]

/-- Settles O21: BLKSZ and NAME check nothing; HSZ reads the upper byte of `CFG` of a valid bank. -/
theorem queryResults : Obligations.QueryResults := by
  refine fun s => ⟨⟨rfl, rfl⟩, ⟨rfl, rfl⟩, fun c b hb =>
    ⟨congrArg ([·]) (pack_eq_asmWord 0x09 c 0 false 0 0),
      fun hv => withInstance_invalid c s _ b hb hv, fun hv => ?_⟩⟩
  rw [← cfgHsize_toNat, BitVec.ofNat_toNat]
  exact withInstance_valid c s _ b hb hv

/-! ### UPD1 and UPDN -/

/-- R126: UPD1 of a bank that can be fed is `APPEND` of its byte. -/
theorem exec_upd1 {s : State} {c : BankNo} {b : Bank} {st : Setup} (hb : s.bank? c = some b)
    (hf : Feedable b st) (byte : Byte) :
    exec (.upd1 c byte) s =
      .next ((s.putFed c (append st.passes (b, s.engine) byte)).answer okResponse) :=
  (withInstance_valid c s _ b hb hf.1).trans
    (withReady_some b _ st (Bank.ready?_of_feedable hf))

/-- R127: UPDN of a bank that can be fed is `APPEND` of each byte of an admitted input. -/
theorem exec_updn {s : State} {c : BankNo} {b : Bank} {st : Setup} {d : Desc}
    (hb : s.bank? c = some b) (hf : Feedable b st) (hd : Admitted s d) :
    exec (.updn c d) s =
      .next ((s.putFed c (feed st.passes (s.inputBytes d) (b, s.engine))).answer okResponse) := by
  refine (withInstance_valid c s _ b hb hf.1).trans ?_
  rw [withInput_admitted d s _ ((admitted_iff s d).1 hd)]
  exact withReady_some b _ st (Bank.ready?_of_feedable hf)

/-- Settles O13: by the two cases of `APPEND`. -/
theorem upd1Result : Obligations.Upd1Result := by
  intro s c byte b st hb
  refine ⟨congrArg ([·]) (pack_eq_asmWord 0x03 c 0 false 0 byte),
    fun hv => withInstance_invalid c s _ b hb hv, fun hf hn => ?_, fun hf hn => ?_⟩
  · rw [exec_upd1 hb hf, append_store st.passes (b, s.engine) byte hn]
    rfl
  · refine ⟨s.engine.retire, s.engine.retire_phase, ?_⟩
    have hbuf : (b.store byte).buf = b.buf.set 127 byte := by
      rw [Bank.store_buf, hn]
      ext i hi
      rw [Vector.getElem_setIfInBounds, Vector.getElem_set]
    rw [exec_upd1 hb hf, append_full st.passes (b, s.engine) byte hn, ← hbuf]
    rfl

/-- A bank that can be fed can still be fed after `APPEND` (R22, R24). -/
theorem feedable_append {be : Bank × Engine} {st : Setup} (h : Feedable be.1 st) (byte : Byte) :
    Feedable (append st.passes be byte).1 st := by
  obtain ⟨hv, hcfg, hlen⟩ := h
  refine ⟨by rw [append_valid, hv], by rw [append_cfg, hcfg], ?_⟩
  rw [append_buflen st.passes be byte hlen]
  exact Nat.mod_lt _ (by decide)

/-- Putting back what is there changes nothing. -/
theorem State.putFed_self {s : State} {c : BankNo} {b : Bank} (hb : s.bank? c = some b) :
    s.putFed c (b, s.engine) = s := by
  have hbanks : s.banks.set c.toNat b = s.banks := State.banks_set_self hb
  simp only [State.putFed, State.setBank, State.setEngine, hbanks]

/-- Of two feedings of one bank the second is what stays. -/
theorem State.putFed_answer_putFed (s : State) (c : BankNo) (be be' : Bank × Engine)
    (r : Response) : ((s.putFed c be).answer r).putFed c be' = (s.putFed c be').answer r := by
  simp [State.putFed, State.setBank, State.setEngine, State.answer]

/-- R127, R133: UPD1 of each byte of a list feeds the list; nothing else changes but the response. -/
theorem runCommands_upd1 {s : State} {c : BankNo} {b : Bank} {st : Setup}
    (hb : s.bank? c = some b) (hf : Feedable b st) (bytes : List Byte) :
    ∃ r, runCommands (bytes.map (.upd1 c)) s =
      some { s.putFed c (feed st.passes bytes (b, s.engine)) with resp := r } := by
  induction bytes generalizing s b with
  | nil =>
    refine ⟨s.resp, ?_⟩
    rw [feed_nil, State.putFed_self hb]
    rfl
  | cons byte bytes ih =>
    let be := append st.passes (b, s.engine) byte
    have hbank : ((s.putFed c be).answer okResponse).bank? c = some be.1 := by
      simpa using State.putFed_bank?_some hb c be
    obtain ⟨r, hr⟩ := ih hbank (feedable_append hf byte)
    rw [State.putFed_answer_putFed] at hr
    refine ⟨r, ?_⟩
    rw [List.map_cons, runCommands, exec_upd1 hb hf byte]
    exact hr

/-- Settles O14: UPDN and the run of UPD1 commands feed the same bytes to the same bank. -/
theorem updnResult : Obligations.UpdnResult := by
  intro s c d b hb
  refine ⟨congrArg (· :: [d.off, d.len]) (pack_eq_asmWord 0x04 c 0 d.present 0 0),
    fun hv => withInstance_invalid c s _ b hb hv,
    fun hv hd => (withInstance_valid c s _ b hb hv).trans (withInput_not_admitted _ hd),
    fun st hf hd => ?_⟩
  have ⟨hv, _, hlen⟩ := hf
  obtain ⟨r, hr⟩ := runCommands_upd1 hb hf (s.inputBytes d)
  rw [State.inputBytes, Memory.readRange, List.map_map] at hr
  refine ⟨_, _, _, exec_updn hb hf hd, hr, rfl, ?_, ?_, ?_, ?_⟩
  · rw [feed_valid, hv]
  · rw [feed_cfg]
  · rw [feed_count, State.inputBytes_length, BitVec.ofNat_toNat]
  · rw [feed_buflen _ _ _ hlen, State.inputBytes_length]

end Sys2Proof.Machine
end

section
/-! SUPPORT. One mixing step of the indexed form: where the role registers stand and what the step writes
(spec/41_compress.md R163, R166). -/

namespace Sys2Proof.Machine

/-- R163: `(k - s) mod 8`, with 32, a multiple of 8, added to keep the difference natural. -/
theorem roleIndex_val (s : Fin 32) (k : Fin 8) : (roleIndex s k).val = (k.val + 32 - s.val) % 8 := by
  simp only [roleIndex, Fin.val_sub, Fin.val_ofNat]
  omega

/-- R163: the role register `x_k` is the working register of that index. -/
theorem role_eq_get (t : Vector Word 8) (s : Fin 32) (k : Fin 8) :
    role t s k = t.get ⟨(k.val + 32 - s.val) % 8, Nat.mod_lt _ (by decide)⟩ :=
  congrArg t.get (Fin.ext (roleIndex_val s k))

/-- R166: a step writes its value to the register in role 7. -/
theorem mixStep_get_role7 (p : Pass) (w : Wiring) (x : Vector Word 32) (t : Vector Word 8)
    (s : Fin 32) : (mixStep p w x t s).get (roleIndex s 7) =
      mixValue p w (role t s) (x.get (ORD p s)) (roundConst p s) :=
  Vector.getElem_set_self _

/-- R166: a step leaves every register in another role. -/
theorem mixStep_get_of_ne (p : Pass) (w : Wiring) (x : Vector Word 32) (t : Vector Word 8)
    {s : Fin 32} {j : Fin 8} (h : j ≠ roleIndex s 7) : (mixStep p w x t s).get j = t.get j :=
  Vector.getElem_set_ne _ _ (Fin.val_ne_of_ne h.symm)

/-- Settles O48: the register in role 7 gets the value of R166, in which `x_7` is that register
itself; any other keeps its value. -/
theorem stepReplacesOneRegister : Obligations.StepReplacesOneRegister := by
  intro p w x t s j
  have hrole7 : (roleIndex s 7).val = (39 - s.val) % 8 := roleIndex_val s 7
  split
  next hj =>
    obtain rfl : j = roleIndex s 7 := Fin.ext (hj.trans hrole7.symm)
    rw [mixStep_get_role7]
    simp only [mixValue, wired, ← role_eq_get]
    rfl
  next hj =>
    exact mixStep_get_of_ne p w x t fun h => hj (h ▸ hrole7)

end Sys2Proof.Machine
end

section
/-! SUPPORT. The pass functions: each acts on every bit position by itself, and its XOR of products
factors into the equivalent form (spec/42_tables.md R207 to R211, R172). -/

namespace Sys2Proof.Machine

open Sys2Proof.Claims

/-- R172: a pass function reads bit `i` of its arguments, and nothing else, for bit `i` of its result. -/
theorem passFn_getLsbD {w : Nat} (p : Pass) (x6 x5 x4 x3 x2 x1 x0 : BitVec w) (i : Nat) :
    (passFn p x6 x5 x4 x3 x2 x1 x0).getLsbD i =
      (passFn p (.ofBool (x6.getLsbD i)) (.ofBool (x5.getLsbD i)) (.ofBool (x4.getLsbD i))
        (.ofBool (x3.getLsbD i)) (.ofBool (x2.getLsbD i)) (.ofBool (x1.getLsbD i))
        (.ofBool (x0.getLsbD i))).getLsbD 0 := by
  cases p <;>
    simp only [passFn, F1, F2, F3, F4, F5, BitVec.getLsbD_xor, BitVec.getLsbD_and,
      BitVec.getLsbD_ofBool, decide_true, Bool.true_and]

/-- R207 to R211: on single bits a pass function is its truth table, read at the number whose binary
digits are the arguments. -/
theorem passFn_ofBool (p : Pass) : ∀ b6 b5 b4 b3 b2 b1 b0 : Bool,
    (passFn p (.ofBool b6) (.ofBool b5) (.ofBool b4) (.ofBool b3) (.ofBool b2) (.ofBool b1)
        (.ofBool b0)).getLsbD 0 =
      (truthTable p).getLsbD (64 * b6.toNat + 32 * b5.toNat + 16 * b4.toNat + 8 * b3.toNat +
        4 * b2.toNat + 2 * b1.toNat + b0.toNat) := by
  cases p <;> decide

section EquivalentForms
/-! Bitwise AND distributes over XOR, and a complement is a XOR with ones, so each equivalent form
multiplies out to the products of its rule, in another order. (`F2` and `F4` hold a product that is also
part of a longer one; `BitVec.and_comm` puts it in one order first, since `ac_rfl` does not sort it.) -/

variable {w : Nat} (x6 x5 x4 x3 x2 x1 x0 : BitVec w)

theorem and_xor_distrib (a b c : BitVec w) : a &&& (b ^^^ c) = (a &&& b) ^^^ (a &&& c) :=
  BitVec.eq_of_getLsbD_eq fun i _ => by
    simp only [BitVec.getLsbD_and, BitVec.getLsbD_xor, Bool.and_xor_distrib_left]

theorem and_not_eq_xor_and (a b : BitVec w) : a &&& ~~~b = a ^^^ (a &&& b) := by
  rw [← BitVec.xor_allOnes, and_xor_distrib, BitVec.and_allOnes, BitVec.xor_comm]

/-- The equivalent form of R207. -/
theorem F1_factored : F1 x6 x5 x4 x3 x2 x1 x0 =
    (x1 &&& (x0 ^^^ x4)) ^^^ (x2 &&& x5) ^^^ (x3 &&& x6) ^^^ x0 := by
  simp only [F1, and_xor_distrib]
  ac_rfl

/-- The equivalent form of R208. -/
theorem F2_factored : F2 x6 x5 x4 x3 x2 x1 x0 =
    (x2 &&& ((x1 &&& ~~~x3) ^^^ (x4 &&& x5) ^^^ x6 ^^^ x0)) ^^^ (x4 &&& (x1 ^^^ x5)) ^^^
      (x3 &&& x5) ^^^ x0 := by
  simp only [F2, and_xor_distrib, and_not_eq_xor_and, BitVec.and_comm]
  ac_rfl

/-- The equivalent form of R209. -/
theorem F3_factored : F3 x6 x5 x4 x3 x2 x1 x0 =
    (x3 &&& ((x1 &&& x2) ^^^ x6 ^^^ x0)) ^^^ (x1 &&& x4) ^^^ (x2 &&& x5) ^^^ x0 := by
  simp only [F3, and_xor_distrib]
  ac_rfl

/-- The equivalent form of R210. -/
theorem F4_factored : F4 x6 x5 x4 x3 x2 x1 x0 =
    (x4 &&& ((x5 &&& ~~~x2) ^^^ (x3 &&& ~~~x6) ^^^ x1 ^^^ x6 ^^^ x0)) ^^^
      (x3 &&& ((x1 &&& x2) ^^^ x5 ^^^ x6)) ^^^ (x2 &&& x6) ^^^ x0 := by
  simp only [F4, and_xor_distrib, and_not_eq_xor_and, BitVec.and_comm]
  ac_rfl

/-- The equivalent form of R211. -/
theorem F5_factored : F5 x6 x5 x4 x3 x2 x1 x0 =
    (x0 &&& ((x1 &&& x2 &&& x3) ^^^ ~~~x5)) ^^^ (x1 &&& x4) ^^^ (x2 &&& x5) ^^^ (x3 &&& x6) := by
  simp only [F5, and_xor_distrib, and_not_eq_xor_and]
  ac_rfl

end EquivalentForms

/-- Settles O52: bit `i` of the result is the function of the seven bits `i`, which the truth table
lists, and the equivalent forms multiply out to the functions. -/
theorem passFunctions : Obligations.PassFunctions := by
  refine ⟨fun p x6 x5 x4 x3 x2 x1 x0 i _ => ?_, fun x6 x5 x4 x3 x2 x1 x0 => ⟨?_, ?_, ?_, ?_, ?_⟩⟩
  · exact (passFn_getLsbD p x6 x5 x4 x3 x2 x1 x0 i).trans (passFn_ofBool p ..)
  · exact F1_factored ..
  · exact F2_factored ..
  · exact F3_factored ..
  · exact F4_factored ..
  · exact F5_factored ..

end Sys2Proof.Machine
end

section
/-! SUPPORT. The digest of a final state: where the bytes of the retained words stand (spec/43_finalize.md
R234), and which bit fields of the folded words tailoring adds to the retained ones (R228 to R233). -/

namespace Sys2Proof.Machine

/-! ### Serialization -/

/-- Byte `k` of word `j` of a list of words, each moved as four bytes. -/
theorem flatMap_bytesLe_getElem? {n : Nat} (words : List (BitVec n)) (j k : Nat) (hk : k < 4) :
    (words.flatMap fun v => bytesLe v 4)[4 * j + k]? = words[j]?.map fun v => byteAt v k := by
  induction words generalizing j with
  | nil => rfl
  | cons v words ih =>
    cases j with
    | zero =>
      rw [List.flatMap_cons, List.getElem?_append_left (by simp; omega)]
      simp [bytesLe, hk]
    | succ j =>
      rw [List.flatMap_cons, List.getElem?_append_right (by simp; omega), bytesLe_length,
        show 4 * (j + 1) + k - 4 = 4 * j + k by omega, ih]
      rfl

/-- Settles O56: the retained words come first, and each takes four bytes. -/
theorem serializationPlacement : Obligations.SerializationPlacement := by
  refine fun w d => ⟨serialize_length w d, fun j k hj hk => ?_⟩
  rw [serialize, flatMap_bytesLe_getElem? _ _ _ hk, List.getElem?_take_of_lt hj, Vector.getElem?_toList,
    Vector.getElem?_eq_getElem j.isLt, Option.map_some, byteAt_eq_ofNat]
  rfl

/-! ### Tailoring -/

section Fields

/-- A bit field, its lowest bit at position `lo` of a word that is zero elsewhere. -/
def place {len : Nat} (lo : Nat) (f : BitVec len) : Word := f.setWidth 32 <<< lo

variable {len len' : Nat}

theorem place_getLsbD (lo : Nat) (f : BitVec len) (i : Nat) :
    (place lo f).getLsbD i = (decide (lo ≤ i ∧ i < 32) && f.getLsbD (i - lo)) := by
  by_cases hlo : lo ≤ i <;> by_cases hi : i < 32 <;> simp [place, hlo, hi]

/-- A field at position 0 is the field, widened. -/
theorem place_zero (f : BitVec len) : place 0 f = f.setWidth 32 := BitVec.shiftLeft_zero ..

/-- Masking a word cuts out the field where the mask has its ones. -/
theorem and_mask_eq_place {mask : Word} (lo len : Nat) (hmask : mask = place lo (BitVec.allOnes len))
    (x : Word) : x &&& mask = place lo (x.extractLsb' lo len) := by
  subst hmask
  refine BitVec.eq_of_getLsbD_eq fun i _ => ?_
  simp only [BitVec.getLsbD_and, place_getLsbD, BitVec.getLsbD_allOnes, BitVec.getLsbD_extractLsb']
  by_cases hlo : lo ≤ i
  · rw [Nat.add_sub_cancel' hlo, Bool.and_comm, Bool.and_assoc]
  · simp [hlo]

/-- Shifting a word first and masking then cuts the field out and puts it at position 0. -/
theorem shiftRight_and_mask_eq_place {mask : Word} (lo len : Nat)
    (hmask : mask = place 0 (BitVec.allOnes len)) (x : Word) :
    (x >>> lo) &&& mask = place 0 (x.extractLsb' lo len) := by
  rw [and_mask_eq_place 0 len hmask]
  rfl

/-- Of fields side by side the right one lies at the position of the whole. -/
theorem place_append (lo : Nat) (f : BitVec len) (g : BitVec len') :
    place lo (f ++ g) = place (lo + len') f ||| place lo g := by
  refine BitVec.eq_of_getLsbD_eq fun i _ => ?_
  simp only [BitVec.getLsbD_or, place_getLsbD, BitVec.getLsbD_append, ← Nat.sub_sub]
  by_cases hg : i - lo < len'
  · have hf : ¬ lo + len' ≤ i := by omega
    simp [hg, hf]
  · rw [if_neg hg, BitVec.getLsbD_of_ge g _ (by omega), Bool.and_false, Bool.or_false]
    congr 2
    exact propext (by omega)

theorem place_shiftRight {lo k : Nat} (f : BitVec len) (hk : k ≤ lo) (hlo : lo + len ≤ 32) :
    place lo f >>> k = place (lo - k) f := by
  refine BitVec.eq_of_getLsbD_eq fun i _ => ?_
  rw [BitVec.getLsbD_ushiftRight, place_getLsbD, place_getLsbD, show k + i - lo = i - (lo - k) by omega]
  by_cases hf : i - (lo - k) < len
  · congr 2
    exact propext (by omega)
  · rw [BitVec.getLsbD_of_ge f _ (by omega), Bool.and_false, Bool.and_false]

theorem place_shiftRight_eq_zero {lo k : Nat} (f : BitVec len) (hk : lo + len ≤ k) :
    place lo f >>> k = 0#32 := by
  refine BitVec.eq_of_getLsbD_eq fun i _ => ?_
  rw [BitVec.getLsbD_ushiftRight, place_getLsbD, BitVec.getLsbD_of_ge f _ (by omega)]
  simp

theorem place_shiftLeft (lo k : Nat) (f : BitVec len) : place lo f <<< k = place (lo + k) f :=
  (BitVec.shiftLeft_add ..).symm

theorem place_eq_zero {lo : Nat} (f : BitVec len) (hlo : 32 ≤ lo) : place lo f = 0#32 :=
  BitVec.shiftLeft_eq_zero hlo

/-! Rotation moves each field by itself: down, or round to the top. -/

theorem rotr_or (a b : Word) (k : Nat) : rotr (a ||| b) k = rotr a k ||| rotr b k := by
  simp only [rotr, BitVec.ushiftRight_or_distrib, BitVec.shiftLeft_or_distrib]
  ac_rfl

theorem rotr_place_of_le {lo k : Nat} (f : BitVec len) (hk : k ≤ lo) (hlo : lo + len ≤ 32) :
    rotr (place lo f) k = place (lo - k) f := by
  rw [rotr, place_shiftRight f hk hlo, place_shiftLeft,
    place_eq_zero (lo := lo + (32 - k)) f (by omega), BitVec.or_zero]

theorem rotr_place_of_ge {lo k : Nat} (f : BitVec len) (hk : lo + len ≤ k) :
    rotr (place lo f) k = place (lo + (32 - k)) f := by
  rw [rotr, place_shiftRight_eq_zero f hk, place_shiftLeft, BitVec.zero_or]

/-- A field of at most `len` bits adds less than `2^len`. -/
theorem toNat_add_setWidth_sub_lt {n : Nat} (a : Word) (f : BitVec n) (hn : n ≤ len) :
    (a + f.setWidth 32 - a).toNat < 2 ^ len := by
  rw [add_sub_cancel_left, BitVec.toNat_setWidth]
  calc
    f.toNat % 2 ^ 32 ≤ f.toNat := Nat.mod_le ..
    _ < 2 ^ n := f.isLt
    _ ≤ 2 ^ len := Nat.pow_le_pow_right (by decide) hn

end Fields

/-! The words of each width: every mask cuts out a field, and a rotation or a shift moves it to its place. -/

/-- R229, 128 bits. -/
theorem tailor_w128_eq_fields (h : Vector Word 8) : tailor .w128 h =
    #v[h[0] + (h[7].extractLsb' 0 8 ++ h[6].extractLsb' 24 8 ++ h[5].extractLsb' 16 8 ++
        h[4].extractLsb' 8 8).setWidth 32,
      h[1] + (h[7].extractLsb' 8 8 ++ h[6].extractLsb' 0 8 ++ h[5].extractLsb' 24 8 ++
        h[4].extractLsb' 16 8).setWidth 32,
      h[2] + (h[7].extractLsb' 16 8 ++ h[6].extractLsb' 8 8 ++ h[5].extractLsb' 0 8 ++
        h[4].extractLsb' 24 8).setWidth 32,
      h[3] + (h[7].extractLsb' 24 8 ++ h[6].extractLsb' 16 8 ++ h[5].extractLsb' 8 8 ++
        h[4].extractLsb' 0 8).setWidth 32,
      h[4], h[5], h[6], h[7]] := by
  simp only [← place_zero, place_append]
  simp (disch := decide) only [tailor, tailor128, BitVec.natCast_eq_ofNat, BitVec.ofNat_eq_ofNat,
    and_mask_eq_place (mask := 0x000000FF#32) 0 8 rfl, and_mask_eq_place (mask := 0x0000FF00#32) 8 8 rfl,
    and_mask_eq_place (mask := 0x00FF0000#32) 16 8 rfl, and_mask_eq_place (mask := 0xFF000000#32) 24 8 rfl,
    rotr_or, rotr_place_of_le, rotr_place_of_ge, Nat.reduceAdd, Nat.reduceSub]

/-- R230, 160 bits. -/
theorem tailor_w160_eq_fields (h : Vector Word 8) : tailor .w160 h =
    #v[h[0] + (h[7].extractLsb' 0 6 ++ h[6].extractLsb' 25 7 ++ h[5].extractLsb' 19 6).setWidth 32,
      h[1] + (h[7].extractLsb' 6 6 ++ h[6].extractLsb' 0 6 ++ h[5].extractLsb' 25 7).setWidth 32,
      h[2] + (h[7].extractLsb' 12 7 ++ h[6].extractLsb' 6 6 ++ h[5].extractLsb' 0 6).setWidth 32,
      h[3] + (h[7].extractLsb' 19 6 ++ h[6].extractLsb' 12 7 ++ h[5].extractLsb' 6 6).setWidth 32,
      h[4] + (h[7].extractLsb' 25 7 ++ h[6].extractLsb' 19 6 ++ h[5].extractLsb' 12 7).setWidth 32,
      h[5], h[6], h[7]] := by
  simp only [← place_zero, place_append]
  simp (disch := decide) only [tailor, tailor160, BitVec.natCast_eq_ofNat, BitVec.ofNat_eq_ofNat,
    and_mask_eq_place (mask := 0x0000003F#32) 0 6 rfl, and_mask_eq_place (mask := 0x00000FC0#32) 6 6 rfl,
    and_mask_eq_place (mask := 0x0007F000#32) 12 7 rfl, and_mask_eq_place (mask := 0x01F80000#32) 19 6 rfl,
    and_mask_eq_place (mask := 0xFE000000#32) 25 7 rfl, rotr_or, rotr_place_of_le, rotr_place_of_ge,
    BitVec.ushiftRight_or_distrib, place_shiftRight, Nat.reduceAdd, Nat.reduceSub]

/-- R231, 192 bits. -/
theorem tailor_w192_eq_fields (h : Vector Word 8) : tailor .w192 h =
    #v[h[0] + (h[7].extractLsb' 0 5 ++ h[6].extractLsb' 26 6).setWidth 32,
      h[1] + (h[7].extractLsb' 5 5 ++ h[6].extractLsb' 0 5).setWidth 32,
      h[2] + (h[7].extractLsb' 10 6 ++ h[6].extractLsb' 5 5).setWidth 32,
      h[3] + (h[7].extractLsb' 16 5 ++ h[6].extractLsb' 10 6).setWidth 32,
      h[4] + (h[7].extractLsb' 21 5 ++ h[6].extractLsb' 16 5).setWidth 32,
      h[5] + (h[7].extractLsb' 26 6 ++ h[6].extractLsb' 21 5).setWidth 32,
      h[6], h[7]] := by
  simp only [← place_zero, place_append]
  simp (disch := decide) only [tailor, tailor192, BitVec.natCast_eq_ofNat, BitVec.ofNat_eq_ofNat,
    and_mask_eq_place (mask := 0x0000001F#32) 0 5 rfl, and_mask_eq_place (mask := 0x000003E0#32) 5 5 rfl,
    and_mask_eq_place (mask := 0x0000FC00#32) 10 6 rfl, and_mask_eq_place (mask := 0x001F0000#32) 16 5 rfl,
    and_mask_eq_place (mask := 0x03E00000#32) 21 5 rfl, and_mask_eq_place (mask := 0xFC000000#32) 26 6 rfl,
    rotr_or, rotr_place_of_le, rotr_place_of_ge, BitVec.ushiftRight_or_distrib, place_shiftRight,
    Nat.reduceAdd, Nat.reduceSub]

/-- R232, 224 bits. -/
theorem tailor_w224_eq_fields (h : Vector Word 8) : tailor .w224 h =
    #v[h[0] + (h[7].extractLsb' 27 5).setWidth 32,
      h[1] + (h[7].extractLsb' 22 5).setWidth 32,
      h[2] + (h[7].extractLsb' 18 4).setWidth 32,
      h[3] + (h[7].extractLsb' 13 5).setWidth 32,
      h[4] + (h[7].extractLsb' 9 4).setWidth 32,
      h[5] + (h[7].extractLsb' 4 5).setWidth 32,
      h[6] + (h[7].extractLsb' 0 4).setWidth 32,
      h[7]] := by
  simp only [← place_zero, tailor, tailor224, BitVec.ofNat_eq_ofNat,
    shiftRight_and_mask_eq_place (mask := 0x1F#32) _ 5 rfl,
    shiftRight_and_mask_eq_place (mask := 0x0F#32) _ 4 rfl, and_mask_eq_place (mask := 0x0F#32) 0 4 rfl]

/-- R230: the fields added to the first four words have 19 bits. -/
theorem tailor_w160_added_lt (h : Vector Word 8) (j : Fin 8) (hj : j.val < 4) :
    ((tailor .w160 h).get j - h.get j).toNat < 2 ^ 19 := by
  rw [tailor_w160_eq_fields]
  obtain rfl | rfl | rfl | rfl : j = 0 ∨ j = 1 ∨ j = 2 ∨ j = 3 := by omega
  all_goals exact toNat_add_setWidth_sub_lt _ _ (by decide)

/-- R231: the fields added have 10 or 11 bits. -/
theorem tailor_w192_added_lt (h : Vector Word 8) (j : Fin 8) (hj : j.val < 6) :
    ((tailor .w192 h).get j - h.get j).toNat < 2 ^ 11 := by
  rw [tailor_w192_eq_fields]
  obtain rfl | rfl | rfl | rfl | rfl | rfl :
    j = 0 ∨ j = 1 ∨ j = 2 ∨ j = 3 ∨ j = 4 ∨ j = 5 := by omega
  all_goals exact toNat_add_setWidth_sub_lt _ _ (by decide)

/-- R229 to R233: a word that is not retained is not changed. -/
theorem tailor_get_of_le (w : Width) (h : Vector Word 8) (j : Fin 8) (hj : w.bytes / 4 ≤ j.val) :
    (tailor w h).get j = h.get j := by
  cases w with
  | w128 =>
    obtain rfl | rfl | rfl | rfl : j = 4 ∨ j = 5 ∨ j = 6 ∨ j = 7 := by
      simp only [Width.bytes] at hj; omega
    all_goals rfl
  | w160 =>
    obtain rfl | rfl | rfl : j = 5 ∨ j = 6 ∨ j = 7 := by simp only [Width.bytes] at hj; omega
    all_goals rfl
  | w192 =>
    obtain rfl | rfl : j = 6 ∨ j = 7 := by simp only [Width.bytes] at hj; omega
    all_goals rfl
  | w224 =>
    obtain rfl : j = 7 := by simp only [Width.bytes] at hj; omega
    rfl
  | w256 => rfl

/-- R230: the fields added to the fifth word have 20 bits. -/
theorem tailor_w160_last_added_lt (h : Vector Word 8) :
    ((tailor .w160 h).get 4 - h.get 4).toNat < 2 ^ 20 := by
  rw [tailor_w160_eq_fields]
  exact toNat_add_setWidth_sub_lt _ _ (by decide)

/-- Settles O57: the words of each width are read off its equation, and fields of few bits add little. -/
theorem tailoringFolds : Obligations.TailoringFolds := by
  intro h
  have h160 := tailor_w160_added_lt h
  have h160_last := tailor_w160_last_added_lt h
  have h192 := tailor_w192_added_lt h
  simp only [tailor_w128_eq_fields, tailor_w160_eq_fields, tailor_w192_eq_fields, tailor_w224_eq_fields]
    at h160 h160_last h192 ⊢
  exact ⟨rfl, rfl, rfl, rfl, rfl, rfl, rfl, rfl, rfl, rfl, rfl, rfl, rfl, rfl, rfl, rfl, rfl, rfl, rfl, rfl,
    rfl, rfl, h160, h160_last, h192, fun w => tailor_get_of_le w h, rfl⟩

end Sys2Proof.Machine
end

section
/-! SUPPORT. The padding (spec/43_finalize.md R221 to R227): its length, the byte at each place of it, the
blocks it fills, and DIGEST, which compresses them (R220, R235). -/

namespace Sys2Proof.Machine

open Sys2Proof.Claims

/-! ### The length of the padding -/

/-- R227: the padding is `padLen` bytes and the ten of the trailer. -/
theorem padBytes_length (count : BitVec 64) (st : Setup) :
    (padBytes count st).length = padLen (count.toNat % 128) + 10 := by
  have hpos : 0 < padLen (count.toNat % 128) := by unfold padLen; split <;> omega
  simp only [padBytes, List.length_append, List.length_cons, List.length_replicate, List.length_nil,
    bytesLe_length]
  omega

/-- R24: feeding the padding of a bank's message empties its buffer. -/
theorem padded_buflen (b : Bank) (e : Engine) (st : Setup)
    (hn : b.buflen.toNat = b.count.toNat % 128) : (padded st (b, e)).1.buflen = 0 := by
  apply BitVec.eq_of_toNat_eq
  change _ = 0
  rw [padded, feed_buflen _ _ _ (by dsimp only; omega), padBytes_length, padLen]
  dsimp only
  split <;> omega

/-- Settles O55: by the two cases of `padLen`. -/
theorem paddingLength : Obligations.PaddingLength := by
  intro b e st
  have hlen : (padBytes b.count st).length =
      (if b.count.toNat % 128 < 118 then 118 - b.count.toNat % 128
        else 246 - b.count.toNat % 128) + 10 := padBytes_length ..
  refine ⟨hlen, ?_, ?_, ?_, padded_buflen b e st⟩
  all_goals rw [hlen]; split <;> omega

/-! ### Filling the buffer -/

/-- A bank after bytes were stored and before a block is compressed. -/
def Bank.storeAll (b : Bank) (bytes : List Byte) : Bank := bytes.foldl Bank.store b

@[simp] theorem Bank.storeAll_cons (b : Bank) (byte : Byte) (bytes : List Byte) :
    b.storeAll (byte :: bytes) = (b.store byte).storeAll bytes := rfl

@[simp] theorem Bank.storeAll_h (b : Bank) (bytes : List Byte) : (b.storeAll bytes).h = b.h := by
  induction bytes generalizing b with
  | nil => rfl
  | cons byte bytes ih => rw [storeAll_cons, ih, store_h]

/-- A byte stored with room left in the buffer raises `BUFLEN` by one. -/
theorem Bank.store_buflen_toNat {b : Bank} (byte : Byte) (hb : b.buflen.toNat < 128) :
    (b.store byte).buflen.toNat = b.buflen.toNat + 1 := by
  rw [store_buflen, BitVec.toNat_add]
  exact Nat.mod_eq_of_lt (by simp; omega)

theorem Bank.store_buf_get (b : Bank) (byte : Byte) (i : Fin 128) :
    (b.store byte).buf.get i = if i.val = b.buflen.toNat then byte else b.buf.get i := by
  rw [store_buf, Vector.get_eq_getElem, Vector.getElem_setIfInBounds]
  simp only [eq_comm]
  rfl

/-- R123: bytes that fill the buffer follow those in it. -/
theorem Bank.storeAll_buf_get {b : Bank} {bytes : List Byte}
    (hfill : b.buflen.toNat + bytes.length = 128) (i : Fin 128) :
    (b.storeAll bytes).buf.get i =
      if i.val < b.buflen.toNat then b.buf.get i else bytes.getD (i.val - b.buflen.toNat) 0 := by
  induction bytes generalizing b with
  | nil =>
    have hi : i.val < b.buflen.toNat := by rw [List.length_nil] at hfill; omega
    exact (if_pos hi).symm
  | cons byte bytes ih =>
    rw [List.length_cons] at hfill
    have hstore := b.store_buflen_toNat byte (by omega)
    rw [storeAll_cons, ih (by omega), hstore]
    rcases Nat.lt_trichotomy i.val b.buflen.toNat with hi | hi | hi
    · rw [if_pos (by omega), if_pos hi, Bank.store_buf_get, if_neg (by omega)]
    · rw [if_pos (by omega), if_neg (by omega), Bank.store_buf_get, if_pos hi, hi, Nat.sub_self]
      rfl
    · rw [if_neg (by omega), if_neg (by omega),
        show i.val - b.buflen.toNat = i.val - (b.buflen.toNat + 1) + 1 by omega, List.getD_cons_succ]

/-- R123: feeding bytes that fill the buffer compresses one block, when the last byte is stored. -/
theorem feed_fill (r : Passes) {be : Bank × Engine} {bytes : List Byte}
    (hroom : be.1.buflen.toNat < 128) (hfill : be.1.buflen.toNat + bytes.length = 128) :
    feed r bytes be = ((xform r (be.1.storeAll bytes, be.2)).1.clearBuffer, be.2.retire) := by
  induction bytes generalizing be with
  | nil => exact absurd hfill hroom.ne
  | cons byte bytes ih =>
    rw [List.length_cons] at hfill
    by_cases hlast : be.1.buflen.toNat = 127
    · obtain rfl : bytes = [] := List.eq_nil_of_length_eq_zero (by omega)
      exact append_full r be byte hlast
    · have hstore := be.1.store_buflen_toNat byte hroom
      rw [feed_cons, append_store r be byte hlast]
      exact ih (be := (be.1.store byte, be.2)) (by dsimp only; omega) (by dsimp only; omega)

/-! ### The padding in blocks -/

/-- The ten bytes that end the padding (R224 to R226). -/
def trailer (count : BitVec 64) (st : Setup) : List Byte :=
  [trailer1 st, trailer2 st] ++ bytesLe (bitCount count) 8

theorem trailer1_eq (st : Setup) : trailer1 st =
    BitVec.ofNat 8 (st.width.bytes * 8 % 4 * 64 + st.passes.count % 8 * 8 + 1) := by
  obtain ⟨w, r⟩ := st
  cases w <;> cases r <;> rfl

theorem trailer2_eq (st : Setup) : trailer2 st = BitVec.ofNat 8 (st.width.bytes * 8 / 4) := by
  rw [trailer2, Nat.shiftRight_eq_div_pow]
  rfl

theorem bytesLe_getD {w : Nat} (v : BitVec w) {n k : Nat} (hk : k < n) :
    (bytesLe v n).getD k 0 = byteAt v k := by
  simp [bytesLe, hk]

/-- R224 to R226: the trailer stands at the places 118 to 127 of the last block. -/
theorem trailer_getD (count : BitVec 64) (st : Setup) (i : Fin 128) (hi : 118 ≤ i.val) :
    (trailer count st).getD (i.val - 118) 0 = trailerByte st count i.val := by
  unfold trailerByte
  by_cases h118 : i.val = 118
  · rw [if_pos h118, h118]
    exact trailer1_eq st
  · by_cases h119 : i.val = 119
    · rw [if_neg h118, if_pos h119, h119]
      exact trailer2_eq st
    · rw [if_neg h118, if_neg h119, show i.val - 118 = i.val - 120 + 1 + 1 by omega]
      change (bytesLe (bitCount count) 8).getD (i.val - 120) 0 = _
      rw [bytesLe_getD _ (by omega), byteAt_eq_ofNat, bitCount, BitVec.toNat_mul]
      rfl

theorem zeros_append_getD (k j : Nat) (rest : List Byte) :
    (List.replicate k 0 ++ rest).getD j 0 = if j < k then 0 else rest.getD (j - k) 0 := by
  split
  next hj => rw [List.getD_append _ _ _ _ (by simpa using hj), List.getD_replicate _ hj]
  next hj => rw [List.getD_append_right _ _ _ _ (by simpa using hj), List.length_replicate]

/-- R123: the block that bytes make with those in the buffer, when they fill it. -/
theorem Bank.storeAll_buf {b : Bank} {bytes : List Byte}
    (hfill : b.buflen.toNat + bytes.length = 128) :
    (b.storeAll bytes).buf = Vector.ofFn fun i : Fin 128 =>
      if i.val < b.buflen.toNat then b.buf.get i else bytes.getD (i.val - b.buflen.toNat) 0 := by
  refine Vector.ext fun i hi => ?_
  rw [Vector.getElem_ofFn]
  exact Bank.storeAll_buf_get hfill ⟨i, hi⟩

/-- What stands at place `i` when the marker stands at place `n`, then `k` zeros and the rest. -/
theorem marker_zeros_append_getD {n i : Nat} (k : Nat) (rest : List Byte) (hi : ¬ i < n) :
    (0x01 :: (List.replicate k 0 ++ rest)).getD (i - n) 0 =
      if i = n then 0x01 else if i < n + k + 1 then 0 else rest.getD (i - (n + k + 1)) 0 := by
  by_cases hin : i = n
  · rw [if_pos hin, hin, Nat.sub_self]
    rfl
  · rw [if_neg hin, show i - n = i - (n + 1) + 1 by omega, List.getD_cons_succ, zeros_append_getD,
      Nat.sub_sub, Nat.add_right_comm]
    exact if_congr (by omega) rfl rfl

/-- R227: with fewer than 118 bytes buffered the padding is the rest of one block. -/
theorem padBytes_of_lt {count : BitVec 64} (st : Setup) (hn : count.toNat % 128 < 118) :
    padBytes count st =
      0x01 :: (List.replicate (117 - count.toNat % 128) 0 ++ trailer count st) := by
  have hzeros : padLen (count.toNat % 128) - 1 = 117 - count.toNat % 128 := by
    rw [padLen, if_pos hn]
    omega
  simp [padBytes, trailer, hzeros, padMarker]

/-- R227: with 118 or more bytes buffered the padding is the rest of one block and a second one. -/
theorem padBytes_of_ge {count : BitVec 64} (st : Setup) (hn : 118 ≤ count.toNat % 128) :
    padBytes count st = (0x01 :: List.replicate (127 - count.toNat % 128) 0) ++
      (List.replicate 118 0 ++ trailer count st) := by
  have hzeros : padLen (count.toNat % 128) - 1 = (127 - count.toNat % 128) + 118 := by
    rw [padLen, if_neg (by omega)]
    omega
  simp [padBytes, trailer, hzeros, padMarker, ← List.replicate_append_replicate]

/-- With 118 or more bytes buffered the first block is filled with zeros. -/
theorem storeAll_eq_firstBlock {b : Bank} (hn : b.buflen.toNat = b.count.toNat % 128) :
    (b.storeAll (0x01 :: List.replicate (127 - b.count.toNat % 128) 0)).buf = firstBlock b := by
  rw [← List.append_nil (List.replicate ..), Bank.storeAll_buf (by simp; omega), hn]
  refine congrArg Vector.ofFn (funext fun i => ite_congr rfl (fun _ => rfl) fun hi => ?_)
  rw [marker_zeros_append_getD _ _ hi]
  exact if_congr Iff.rfl rfl (if_pos (by omega))

/-- With fewer than 118 bytes buffered the padding fills one block. -/
theorem storeAll_eq_onlyBlock {b : Bank} (st : Setup) (hn : b.buflen.toNat = b.count.toNat % 128)
    (hlt : b.count.toNat % 128 < 118) : (b.storeAll (padBytes b.count st)).buf = onlyBlock b st := by
  rw [Bank.storeAll_buf (by rw [padBytes_length, padLen, if_pos hlt]; omega), hn, padBytes_of_lt st hlt]
  refine congrArg Vector.ofFn (funext fun i => ite_congr rfl (fun _ => rfl) fun hi => ?_)
  rw [marker_zeros_append_getD _ _ hi,
    show b.count.toNat % 128 + (117 - b.count.toNat % 128) + 1 = 118 by omega]
  exact if_congr Iff.rfl rfl (ite_congr rfl (fun _ => rfl) fun h118 => trailer_getD _ _ i (by omega))

/-- After the first of two blocks 118 zeros and the trailer fill the second. -/
theorem storeAll_eq_secondBlock {b c : Bank} (st : Setup) (hc : c.buflen.toNat = 0) :
    (c.storeAll (List.replicate 118 0 ++ trailer b.count st)).buf = secondBlock b st := by
  rw [Bank.storeAll_buf (by simp [hc, trailer]), hc]
  refine congrArg Vector.ofFn (funext fun i => ?_)
  rw [if_neg (Nat.not_lt_zero _), Nat.sub_zero, zeros_append_getD]
  exact ite_congr rfl (fun _ => rfl) fun h118 => trailer_getD _ _ i (by omega)

/-! ### DIGEST -/

/-- R220: after the padding `H` is the state after one block or two, and `SEQ` is IDLE. -/
theorem padded_eq_finalWords {b : Bank} (e : Engine) (st : Setup)
    (hn : b.buflen.toNat = b.count.toNat % 128) :
    (padded st (b, e)).1.h = finalWords b st ∧ (padded st (b, e)).2.seq.phase = .idle := by
  have hroom : b.buflen.toNat < 128 := by omega
  by_cases hlt : b.count.toNat % 128 < 118
  · have hfill : b.buflen.toNat + (padBytes b.count st).length = 128 := by
      rw [padBytes_length, padLen, if_pos hlt]
      omega
    rw [padded, feed_fill st.passes (be := (b, e)) hroom hfill, finalWords, if_pos hlt,
      ← storeAll_eq_onlyBlock st hn hlt]
    refine ⟨?_, rfl⟩
    simp only [Bank.clearBuffer_h, xform_h, Bank.storeAll_h]
  · have hfirst : b.buflen.toNat +
        (0x01 :: List.replicate (127 - b.count.toNat % 128) (0 : Byte)).length = 128 := by
      rw [List.length_cons, List.length_replicate]
      omega
    have hsecond : 0 + (List.replicate 118 0 ++ trailer b.count st).length = 128 := by simp [trailer]
    rw [padded, padBytes_of_ge st (Nat.le_of_not_lt hlt), feed_append,
      feed_fill st.passes (be := (b, e)) hroom hfirst,
      feed_fill st.passes (be := (Bank.clearBuffer _, _)) (Nat.zero_lt_succ _) hsecond, finalWords,
      if_neg hlt, ← storeAll_eq_firstBlock hn]
    refine ⟨?_, rfl⟩
    simp only [Bank.clearBuffer_h, xform_h, Bank.storeAll_h]
    rw [storeAll_eq_secondBlock st rfl]

/-- R220: DIGEST of a bank that can be fed. -/
theorem exec_digest {s : State} {c : BankNo} {b : Bank} {st : Setup} (hb : s.bank? c = some b)
    (hf : Feedable b st) :
    exec (.digest c) s =
      .next ((s.putFed c ((padded st (b, s.engine)).1.ctxReset, (padded st (b, s.engine)).2)).answer
        (Response.ok 0 (digestBytes st.width (padded st (b, s.engine)).1.h))) :=
  (withInstance_valid c s _ b hb hf.1).trans (withReady_some b _ st (Bank.ready?_of_feedable hf))

/-- Settles O17: the padding compresses the blocks of the statement, and CTXRESET of the valid bank is its
initial state. -/
theorem digestResult : Obligations.DigestResult := by
  intro s c b st hb
  refine ⟨congrArg ([·]) (pack_eq_asmWord 0x05 c 0 false 0 0),
    fun hv => withInstance_invalid c s _ b hb hv, fun hf hn => ?_⟩
  obtain ⟨hwords, hidle⟩ := padded_eq_finalWords s.engine st hn
  refine ⟨_, hidle, ?_⟩
  have hreset : (padded st (b, s.engine)).1.ctxReset = initialBank b.cfg := by
    rw [Bank.ctxReset_eq_initialBank ((padded_valid ..).trans hf.1), padded_cfg]
  rw [exec_digest hb hf, hwords, hreset]
  rfl

end Sys2Proof.Machine
end

section
/-! SUPPORT. HASH (spec/43_finalize.md R237): the digest of a message does not depend on the bank that is
fed or on the engine, so the scratch bank gives what INITU and DIGEST give on a numbered one. -/

namespace Sys2Proof.Machine

open Sys2Proof.Claims

/-! ### The digest of a message -/

/-- `APPEND` reads neither `VALID` nor the engine. -/
theorem append_bank_congr (r : Passes) (byte : Byte) {be be' : Bank × Engine} {v : Bool}
    (h : be'.1 = { be.1 with valid := v }) :
    (append r be' byte).1 = { (append r be byte).1 with valid := v } := by
  have hlen : be'.1.buflen = be.1.buflen := by rw [h]
  by_cases hn : be.1.buflen.toNat = 127
  · rw [append_full r be byte hn, append_full r be' byte (hlen ▸ hn), h]
    rfl
  · rw [append_store r be byte hn, append_store r be' byte (hlen ▸ hn), h]
    rfl

theorem feed_bank_congr (r : Passes) (bytes : List Byte) {be be' : Bank × Engine} {v : Bool}
    (h : be'.1 = { be.1 with valid := v }) :
    (feed r bytes be').1 = { (feed r bytes be).1 with valid := v } := by
  induction bytes generalizing be be' with
  | nil => exact h
  | cons byte bytes ih => exact ih (append_bank_congr r byte h)

theorem padded_bank_congr (st : Setup) {be be' : Bank × Engine} {v : Bool}
    (h : be'.1 = { be.1 with valid := v }) :
    (padded st be').1 = { (padded st be).1 with valid := v } := by
  have hcount : be'.1.count = be.1.count := by rw [h]
  rw [padded, padded, hcount]
  exact feed_bank_congr st.passes _ h

/-- R237: the digest of a message under a configuration. -/
def messageDigest (st : Setup) (bytes : List Byte) : List Byte :=
  digestBytes st.width (padded st (feed st.passes bytes (initialBank st.cfg, Engine.powerOn))).1.h

/-- R39, R237: every bank in the initial state gives the digest of the message, whatever its
`VALID` and the engine. -/
theorem messageDigest_of_initial {st : Setup} (bytes : List Byte) {be : Bank × Engine} {v : Bool}
    (h : be.1 = { initialBank st.cfg with valid := v }) :
    digestBytes st.width (padded st (feed st.passes bytes be)).1.h = messageDigest st bytes := by
  have hfed := feed_bank_congr (be := (initialBank st.cfg, Engine.powerOn)) st.passes bytes h
  rw [padded_bank_congr st hfed]
  rfl

/-! ### The commands -/

/-- R237: HASH with legal operands returns the digest in hex and leaves every bank. -/
theorem exec_hash {s : State} {hsize rounds : Byte} {d : Desc} {st : Setup}
    (hst : setupOf? hsize rounds = some st) (hd : Admitted s d) :
    exec (.hash hsize rounds d) s =
      .next ((s.retireScratch (hashed st (s.inputBytes d) s).2).answer
        (Response.ok 0 (hexOf (messageDigest st (s.inputBytes d))))) := by
  have hdigest : digestBytes st.width (hashed st (s.inputBytes d) s).1.h =
      messageDigest st (s.inputBytes d) :=
    messageDigest_of_initial (v := s.scratch.valid) _ rfl
  rw [← hdigest]
  refine (withSetup_some hsize rounds s _ st hst).trans ?_
  exact withInput_admitted d s _ ((admitted_iff s d).1 hd)

/-- R125: INITU with legal operands feeds the input to a bank in the initial state. -/
theorem exec_initu {s : State} {c : BankNo} {hsize rounds : Byte} {d : Desc} {b : Bank} {st : Setup}
    (hb : s.bank? c = some b) (hst : setupOf? hsize rounds = some st) (hd : Admitted s d) :
    exec (.initu c hsize rounds d) s =
      .next ((s.putFed c (feed st.passes (s.inputBytes d) (initialBank st.cfg, s.engine))).answer
        okResponse) := by
  refine (withSlot_some c s _ b hb).trans ((withSetup_some hsize rounds s _ st hst).trans ?_)
  exact withInput_admitted d s _ ((admitted_iff s d).1 hd)

theorem feedable_feed (st : Setup) (bytes : List Byte) (e : Engine) :
    Feedable (feed st.passes bytes (initialBank st.cfg, e)).1 st := by
  refine ⟨feed_valid .., by rw [feed_cfg]; exact setupOfCfg?_cfg st, ?_⟩
  rw [feed_buflen st.passes bytes (initialBank st.cfg, e) (Nat.zero_lt_succ 127)]
  exact Nat.mod_lt _ (by decide)

/-- R125, R220: INITU and then DIGEST return the digest of the message. -/
theorem exec_initu_digest {s : State} {c : BankNo} {hsize rounds : Byte} {d : Desc} {st : Setup}
    (hc : c.toNat < s.nctx) (hst : setupOf? hsize rounds = some st) (hd : Admitted s d) :
    ∃ u v, exec (.initu c hsize rounds d) s = .next u ∧ exec (.digest c) u = .next v ∧
      v.resp = some (Response.ok 0 (messageDigest st (s.inputBytes d))) := by
  obtain ⟨b, hb⟩ := State.exists_bank? hc
  let be := feed st.passes (s.inputBytes d) (initialBank st.cfg, s.engine)
  have hbank : ((s.putFed c be).answer okResponse).bank? c = some be.1 := by
    simpa using State.putFed_bank?_some hb c be
  refine ⟨_, _, exec_initu hb hst hd, exec_digest hbank (feedable_feed st _ _), ?_⟩
  exact congrArg (some <| Response.ok 0 ·) (messageDigest_of_initial (v := true) _ rfl)

/-! ### Hex -/

theorem hexDigit_eq_digit : ∀ v : BitVec 4, hexDigit v = digit v.toNat := by decide

/-- R262: two digits for each byte, the high nibble first. -/
theorem hexOf_eq_digits (bytes : List Byte) :
    hexOf bytes = bytes.flatMap fun v => [digit (v.toNat / 16), digit (v.toNat % 16)] := by
  refine List.flatMap_congr fun v _ => ?_
  have hv := v.isLt
  have hhigh : (v.extractLsb' 4 4).toNat = v.toNat / 16 := by
    rw [BitVec.extractLsb'_toNat, Nat.shiftRight_eq_div_pow]
    omega
  have hlow : (v.extractLsb' 0 4).toNat = v.toNat % 16 := by
    rw [BitVec.extractLsb'_toNat, Nat.shiftRight_zero]
  rw [hexDigit_eq_digit, hexDigit_eq_digit, hhigh, hlow]

/-! ### The statement -/

theorem exec_hash_illegal {s : State} {hsize rounds : Byte} (d : Desc) (h : ¬ LegalSetup hsize rounds) :
    exec (.hash hsize rounds d) s = .next (afterError s 1) := withSetup_illegal s _ h

theorem exec_hash_not_admitted {s : State} {hsize rounds : Byte} {d : Desc}
    (hlegal : LegalSetup hsize rounds) (hd : ¬ Admitted s d) :
    exec (.hash hsize rounds d) s = .next (afterError s 2) := by
  obtain ⟨st, hst⟩ := (legalSetup_iff hsize rounds).1 hlegal
  exact (withSetup_some hsize rounds s _ st hst).trans (withInput_not_admitted _ hd)

/-- R237: HASH after HASH returns the same: the first one keeps `IN`. -/
theorem exec_hash_twice {s t u : State} {hsize rounds : Byte} {d : Desc}
    (ht : exec (.hash hsize rounds d) s = .next t) (hu : exec (.hash hsize rounds d) t = .next u) :
    u.resp = t.resp := by
  by_cases hlegal : LegalSetup hsize rounds
  · by_cases hd : Admitted s d
    · obtain ⟨st, hst⟩ := (legalSetup_iff hsize rounds).1 hlegal
      cases (exec_hash hst hd).symm.trans ht
      cases (exec_hash (s := .answer (.retireScratch _ _) _) hst hd).symm.trans hu
      rfl
    · cases (exec_hash_not_admitted hlegal hd).symm.trans ht
      cases (exec_hash_not_admitted hlegal hd).symm.trans hu
      rfl
  · cases (exec_hash_illegal d hlegal).symm.trans ht
    cases (exec_hash_illegal d hlegal).symm.trans hu
    rfl

/-- Settles O22: HASH and a bank fed by INITU both give the digest of the message in `IN`. -/
theorem hashResult : Obligations.HashResult := by
  intro s hsize rounds d
  refine ⟨congrArg (· :: [d.off, d.len]) (pack_eq_asmWord 0x0B 0 0 d.present hsize rounds),
    fun hlegal hd => ?_, fun t u => exec_hash_twice, exec_hash_illegal d, exec_hash_not_admitted⟩
  obtain ⟨st, hst⟩ := (legalSetup_iff hsize rounds).1 hlegal
  obtain ⟨hwidth, -⟩ := setupOf?_some _ _ _ hst
  have hhash := exec_hash hst hd
  rw [hexOf_eq_digits] at hhash
  exact ⟨_, _, _, hhash, (digestBytes_length ..).trans hwidth, fun c hc => exec_initu_digest hc hst hd⟩

end Sys2Proof.Machine
end

section
/-! SUPPORT. The hex codec (spec/44_hexcodec.md R260 to R262): the character at each place of the text
HEXENC returns, the strings HEXVAL accepts, and the equation of each command on each outcome of its
checks. -/

namespace Sys2Proof.Machine

open Sys2Proof.Claims

/-! ### The text of HEXENC -/

/-- R260, R262: byte `i` gives the characters `2i` and `2i + 1`. -/
theorem hexOf_getElem? {bytes : List Byte} {i : Nat} {v : Byte} (h : bytes[i]? = some v) :
    (hexOf bytes)[2 * i]? = some (digit (v.toNat / 16)) ∧
      (hexOf bytes)[2 * i + 1]? = some (digit (v.toNat % 16)) := by
  rw [hexOf_eq_digits]
  induction bytes generalizing i with
  | nil => cases h
  | cons w bytes ih =>
    cases i with
    | zero =>
      cases h
      exact ⟨rfl, rfl⟩
    | succ i => exact ih h

/-- R262: every digit is one of the 22 characters. -/
theorem hexCharacter_digit : ∀ v < 16, HexCharacter (digit v) := by
  unfold HexCharacter
  decide

theorem hexCharacter_of_mem_hexOf {bytes : List Byte} {ch : Byte} (h : ch ∈ hexOf bytes) :
    HexCharacter ch := by
  rw [hexOf_eq_digits, List.mem_flatMap] at h
  obtain ⟨v, -, hch⟩ := h
  have hhigh : v.toNat / 16 < 16 := Nat.div_lt_of_lt_mul v.isLt
  have hlow : v.toNat % 16 < 16 := Nat.mod_lt _ (by decide)
  rcases List.mem_pair.1 hch with rfl | rfl
  · exact hexCharacter_digit _ hhigh
  · exact hexCharacter_digit _ hlow

/-! ### The strings HEXVAL accepts -/

/-- R262: `ISHEX` finds the 22 characters. -/
theorem isHex_iff (ch : Byte) : isHex ch = true ↔ HexCharacter ch := by
  simp [isHex, HexCharacter, BitVec.le_def, or_assoc]

/-- R61: byte `i` of an input is the byte of `IN` at `off + i`. -/
theorem State.inputBytes_getElem? {s : State} {d : Desc} {i : Nat} (h : i < d.len.toNat) :
    (s.inputBytes d)[i]? = some (Memory.read s.input (d.off.toNat + i)) := by
  simp [State.inputBytes, Memory.readRange, h]

theorem State.inputBytes_all (s : State) (d : Desc) (p : Byte → Bool) :
    (s.inputBytes d).all p = true ↔
      ∀ i < d.len.toNat, p (Memory.read s.input (d.off.toNat + i)) = true := by
  simp [State.inputBytes, Memory.readRange]

/-- R261: the two tests of HEXVAL together are `HexString`. -/
theorem hexString_iff (s : State) (d : Desc) :
    HexString s d ↔ ¬ d.len.toNat % 2 = 1 ∧ (s.inputBytes d).all isHex = true := by
  simp only [HexString, State.inputBytes_all, isHex_iff, Nat.mod_two_ne_one]

/-! ### The commands -/

/-- R260: HEXENC, by way of `CHECKIN`. -/
theorem exec_hexenc_eq (d : Desc) (s : State) :
    exec (.hexenc d) s = withInput d s fun bytes => respond 0 (hexOf bytes) s := rfl

/-- R261: HEXVAL, by way of `CHECKIN`. -/
theorem exec_hexval_eq (d : Desc) (s : State) :
    exec (.hexval d) s = withInput d s fun bytes =>
      if d.len.toNat % 2 = 1 then raise .format s
      else if bytes.all isHex then respond 0 [] s
      else raise .format s := rfl

theorem exec_hexenc {s : State} {d : Desc} (hd : Admitted s d) :
    exec (.hexenc d) s = .next (s.answer (Response.ok 0 (hexOf (s.inputBytes d)))) := by
  rw [exec_hexenc_eq, withInput_admitted d s _ ((admitted_iff s d).1 hd)]
  rfl

theorem exec_hexval {s : State} {d : Desc} (hd : Admitted s d) (h : HexString s d) :
    exec (.hexval d) s = .next (s.answer okResponse) := by
  obtain ⟨hlen, hhex⟩ := (hexString_iff s d).1 h
  rw [exec_hexval_eq, withInput_admitted d s _ ((admitted_iff s d).1 hd), if_neg hlen, if_pos hhex]
  rfl

/-- R261: an odd length and a character that is no hex digit are the same error. -/
theorem exec_hexval_malformed {s : State} {d : Desc} (hd : Admitted s d) (h : ¬ HexString s d) :
    exec (.hexval d) s = .next (afterError s 3) := by
  rw [exec_hexval_eq, withInput_admitted d s _ ((admitted_iff s d).1 hd)]
  by_cases hlen : d.len.toNat % 2 = 1
  · rw [if_pos hlen]
    rfl
  · have hhex : ¬ (s.inputBytes d).all isHex = true := fun hall => h ((hexString_iff s d).2 ⟨hlen, hall⟩)
    rw [if_neg hlen, if_neg hhex]
    rfl

theorem exec_hexenc_not_admitted {s : State} {d : Desc} (h : ¬ Admitted s d) :
    exec (.hexenc d) s = .next (afterError s 2) := by
  rw [exec_hexenc_eq, withInput_not_admitted _ h]

theorem exec_hexval_not_admitted {s : State} {d : Desc} (h : ¬ Admitted s d) :
    exec (.hexval d) s = .next (afterError s 2) := by
  rw [exec_hexval_eq, withInput_not_admitted _ h]

/-! ### The statements -/

/-- Settles O24: the text is `hexOf` of the input, read place by place. -/
theorem hexencResult : Obligations.HexencResult := by
  intro s d
  refine ⟨congrArg (· :: [d.off, d.len]) (pack_eq_asmWord 0x0C 0 0 d.present 0 0),
    fun hd => ⟨_, exec_hexenc hd, ?_, fun _ => hexCharacter_of_mem_hexOf, fun i hi => ?_⟩,
    exec_hexenc_not_admitted⟩
  · rw [hexOf_length, State.inputBytes_length]
  · exact hexOf_getElem? (State.inputBytes_getElem? hi)

/-- Settles O25: an input that is present and inside `IN` is answered by the tests of `HexString`. -/
theorem hexvalResult : Obligations.HexvalResult := fun _ d =>
  ⟨congrArg (· :: [d.off, d.len]) (pack_eq_asmWord 0x0D 0 0 d.present 0 0), exec_hexval,
    exec_hexval_malformed, exec_hexval_not_admitted⟩

end Sys2Proof.Machine
end

section
/-! SUPPORT. What a command that ends with an error leaves (spec/60_exceptions.md R283), and the commands
that find no instance in the bank they operate on (R286). -/

namespace Sys2Proof.Machine

open Sys2Proof.Claims

/-- R280: the model's code of an error is the one of the table. -/
theorem Err.code_eq_errorCode (e : Err) : e.code = errorCode e := by cases e <;> rfl

/-- R283: a command that completes has changed nothing and reports an error, or it reports success. -/
theorem Completes.error_or_ok {s t : State} {i : Instr} (h : Completes s i t) :
    (∃ e, t = s.answer (Response.error e)) ∨ ∃ val data, t.resp = some (Response.ok val data) := by
  cases h with
  | error _ e => exact .inl ⟨e, rfl⟩
  | init | initu | upd1 | updn | digest | reset | clone | blksz | hsz | name | hash | hexenc | hexval =>
    exact .inr ⟨_, _, rfl⟩

/-- Settles O34: a response with a nonzero `ERR` is not one of success, so the command has changed
nothing else. -/
theorem errorsChangeNothing : Obligations.ErrorsChangeNothing := by
  intro s t i r h hr herr
  rcases (exec_completes h).error_or_ok with ⟨e, rfl⟩ | ⟨val, data, hok⟩
  · obtain rfl : Response.error e = r := Option.some.inj hr
    exact ⟨rfl, rfl, rfl, e, e.code_eq_errorCode⟩
  · obtain rfl : Response.ok val data = r := Option.some.inj (hok.symm.trans hr)
    exact absurd rfl herr

/-- Settles O36: each of these commands begins with `BANK(c)`, and CLONE does once the destination is
known to exist. -/
theorem noInstanceErrors : Obligations.NoInstanceErrors := by
  intro s c b hb hv
  have hbank (k : Bank → Host.Outcome State Fault Refusal) :
      withInstance c s k = .next (afterError s 5) := withInstance_invalid c s k b hb hv
  refine ⟨fun _ => hbank _, fun _ => hbank _, hbank _, hbank _, hbank _, fun cd hcd => ?_⟩
  obtain ⟨old, hold⟩ := State.exists_bank? hcd
  exact (withSlot_some cd s _ old hold).trans (hbank _)

end Sys2Proof.Machine
end

section
/-! SUPPORT. The configuration of an instance (spec/70_reset_and_hazards.md R318). -/

namespace Sys2Proof.Machine

/-- Settles O32: a completing command keeps `CFG` of every bank, or is one that constructs the bank. -/
theorem configurationImmutable : Obligations.ConfigurationImmutable := by
  intro s t i c b h hb _
  obtain ⟨b', hb', ⟨-, hcfg⟩ | ⟨hi, -, -⟩⟩ := (exec_completes h).keptOrConstructed hb
  · exact ⟨b', hb', .inl hcfg⟩
  · exact ⟨b', hb', .inr hi⟩

end Sys2Proof.Machine
end

section
/-! SUPPORT. Decoding what was encoded, encoding what was decoded, and the listings (spec/30_encoding.md R90
to R99); what a step does with the words at the port (R90, R101). -/

namespace Sys2Proof

open Sys2Proof.Claims

/-! ### Encoding and decoding -/

/-- The row of R95 a command is of. -/
def Instr.op : Instr → Op
  | .init _ _ _ => .init
  | .initu _ _ _ _ => .initu
  | .upd1 _ _ => .upd1
  | .updn _ _ => .updn
  | .digest _ => .digest
  | .reset _ => .reset
  | .clone _ _ => .clone
  | .blksz => .blksz
  | .hsz _ => .hsz
  | .name => .name
  | .hash _ _ _ => .hash
  | .hexenc _ => .hexenc
  | .hexval _ => .hexval

/-- The words are a whole command of the row `op`, and the operands read from them are those of `i`. -/
structure ReadsAs (cw : Word) (ext : List Word) (op : Op) (i : Instr) : Prop where
  code : op.code = opcOf cw
  admits : op.format.free.admits cw = true
  length : ext.length + 1 = wordsOf cw
  operands : buildInstr op cw (ext.getD 0 0) (ext.getD 1 0) = i

/-- The fields packed are the fields read (R91 to R95). -/
theorem encode_readsAs (i : Instr) : ∃ cw ext, encode i = cw :: ext ∧ ReadsAs cw ext i.op i := by
  cases i <;> exact ⟨_, _, rfl,
    { code := by simp [Instr.op, Op.code]
      admits := by simp [Instr.op, Op.format, Format.free, FreeFields.admits]
      length := by simp [wordsOf]
      operands := by simp [Instr.op, buildInstr] }⟩

/-- Settles O1: the row of an encoded command is found, admits the word, and gives the operands back. -/
theorem encodeThenDecode : Obligations.EncodeThenDecode := by
  intro nctx i rest hwf
  obtain ⟨cw, ext, henc, hcode, hadm, hlen, hops⟩ := encode_readsAs i
  rw [henc, decode_whole nctx cw ext rest hlen]
  rw [← hops] at hwf
  rw [judge_of_admits hcode hadm hwf, hops]

/-- A list of words that is not too short holds the extension words R97 gives its first word. -/
theorem exists_whole {cw : Word} {words : List Word} (h : ¬ words.length + 1 < wordsOf cw) :
    ∃ ext rest, words = ext ++ rest ∧ ext.length + 1 = wordsOf cw := by
  refine ⟨words.take (wordsOf cw - 1), words.drop (wordsOf cw - 1), (List.take_append_drop ..).symm, ?_⟩
  rw [List.length_take]
  rcases wordsOf_eq_one_or_three cw with hw | hw <;> omega

/-- Settles O2: a whole command that is judged a command is the encoding of what is read from it. -/
theorem decodeThenEncode : Obligations.DecodeThenEncode := by
  intro nctx words i rest h
  cases words with
  | nil => cases h
  | cons cw words =>
    by_cases hshort : words.length + 1 < wordsOf cw
    · rw [decode_short nctx cw words hshort] at h
      cases h
    · obtain ⟨ext, after, rfl, hlen⟩ := exists_whole hshort
      rw [← List.cons_append, decode_whole nctx cw ext after hlen] at h
      obtain ⟨op, hop, hadm, rfl, hwf, rfl⟩ := judge_command _ _ _ _ _ _ _ h
      rw [encode_buildInstr_whole hlen (code_of_opOf _ _ hop) hadm]
      exact ⟨rfl, hwf⟩

/-- Settles O6, by decoding each word. -/
theorem workedEncodingsDecode : Obligations.WorkedEncodingsDecode := by
  unfold Obligations.WorkedEncodingsDecode
  decide

/-! ### Listings (R99) -/

theorem Machine.AsmInput.flag_eq (i : Machine.AsmInput) : i.flag = i.desc.present.toNat := by
  cases i <;> rfl

theorem Machine.AsmInput.words_eq (i : Machine.AsmInput) : i.words = [i.desc.off, i.desc.len] := by
  cases i <;> rfl

/-- Settles O8: packing the fields is the sum of R91, and the extension words are those of the
descriptor. -/
theorem listingLinesEncodeTheirCommands : Obligations.ListingLinesEncodeTheirCommands := by
  refine ⟨fun l i h => ?_, fun l h => ?_⟩
  · cases l <;> cases h <;>
      simp [Machine.AsmLine.words, encode, pack_eq_asmWord, Machine.AsmInput.flag_eq,
        Machine.AsmInput.words_eq]
  · cases l with
    | dotIn => rfl
    | init | initu | upd1 | updn | digest | reset | clone | blksz | hsz | name | hash | hexenc | hexval =>
      cases h

end Sys2Proof

namespace Sys2Proof.Machine

open Sys2Proof.Claims

/-! ### The command a step takes -/

theorem fetch_of_port {s : State} {i : Instr} {rest : List Word} (hwf : i.wf s.nctx = true)
    (hport : s.port = encode i ++ rest) : s.fetch = .command i rest := by
  rw [State.fetch, hport]
  exact encodeThenDecode s.nctx i rest hwf

/-- R90: with an encoded command at the port a step runs it. -/
theorem step_of_port {s : State} {i : Instr} {rest : List Word} (hwf : i.wf s.nctx = true)
    (hport : s.port = encode i ++ rest) : step s = exec i (s.consume rest) :=
  step_of_fetch_command (fetch_of_port hwf hport)

/-- Settles O9: what is decoded is run. -/
theorem stepRunsDecodedCommand : Obligations.StepRunsDecodedCommand :=
  ⟨fun _ _ _ => step_of_fetch_command, fun _ _ _ => step_of_port⟩

/-- Settles O10: an empty port and a short one are decoded as incomplete. -/
theorem idleWithoutWholeCommand : Obligations.IdleWithoutWholeCommand := by
  intro s hport
  have hfetch : s.fetch = .incomplete := by
    rcases hport with hnil | ⟨cw, rest, hcons, hshort⟩
    · rw [State.fetch, hnil]
      rfl
    · rw [State.fetch, hcons]
      exact decode_short s.nctx cw rest hshort
  simp only [step, hfetch]
  rfl

end Sys2Proof.Machine
end

section
/-! SUPPORT. The frame of a command and of a step (spec/10_state.md R20, R30, R32, R40), and what makes
commands independent of the words that wait at the port (spec/30_encoding.md R101). -/

namespace Sys2Proof.Machine

open Sys2Proof.Claims

/-! ### The frame of a command -/

@[simp] theorem State.putFed_config (s : State) (c : BankNo) (be : Bank × Engine) :
    (s.putFed c be).config = s.config := by simp [State.putFed]
@[simp] theorem State.putFed_input (s : State) (c : BankNo) (be : Bank × Engine) :
    (s.putFed c be).input = s.input := rfl
@[simp] theorem State.putFed_inSize (s : State) (c : BankNo) (be : Bank × Engine) :
    (s.putFed c be).inSize = s.inSize := rfl
@[simp] theorem State.putFed_algName (s : State) (c : BankNo) (be : Bank × Engine) :
    (s.putFed c be).algName = s.algName := rfl
@[simp] theorem State.putFed_port (s : State) (c : BankNo) (be : Bank × Engine) :
    (s.putFed c be).port = s.port := rfl
@[simp] theorem State.putFed_banks (s : State) (c : BankNo) (be : Bank × Engine) :
    (s.putFed c be).banks = s.banks.set c.toNat be.1 := rfl

/-- R32: feeding one bank changes no other. -/
theorem State.putFed_bank?_ne (s : State) {c d : BankNo} (be : Bank × Engine) (h : d ≠ c) :
    (s.putFed c be).bank? d = s.bank? d := (s.setEngine be.2).setBank_bank?_ne c d be.1 h

/-- The parameters, `IN` and the port after a command that completes. -/
theorem Completes.host_unchanged {s t : State} {i : Instr} (h : Completes s i t) :
    t.config = s.config ∧ t.port = s.port ∧ t.input = s.input := by
  cases h <;> simp

/-- R20: a bank the command does not write is as it was. -/
theorem Completes.bank?_unchanged {s t : State} {i : Instr} (h : Completes s i t) {d : BankNo}
    (hd : d ∉ i.writesBank) : t.bank? d = s.bank? d := by
  cases h with
  | error | blksz | hsz | name | hash | hexenc | hexval => rfl
  | init | reset | clone => exact s.setBank_bank?_ne _ d _ (List.ne_of_not_mem_cons hd)
  | initu | upd1 | updn | digest => exact s.putFed_bank?_ne _ (List.ne_of_not_mem_cons hd)

theorem Completes.engine_unchanged {s t : State} {i : Instr} (h : Completes s i t)
    (hi : i.usesEngine = false) : t.engine = s.engine := by
  cases h with
  | error | init | reset | clone | blksz | hsz | name | hexenc | hexval => rfl
  | initu | upd1 | updn | digest | hash => cases hi

theorem Completes.scratch_unchanged {s t : State} {i : Instr} (h : Completes s i t)
    (hi : ∀ hsize rounds d, i ≠ .hash hsize rounds d) : t.scratch = s.scratch := by
  cases h with
  | hash => exact absurd rfl (hi _ _ _)
  | error | init | initu | upd1 | updn | digest | reset | clone | blksz | hsz | name | hexenc | hexval =>
    rfl

/-- Settles O37: field by field of the state, by the cases of a command that completes. -/
theorem commandFrame : Obligations.CommandFrame := by
  intro s t i hexec
  have h := exec_completes hexec
  obtain ⟨hconfig, hport, hinput⟩ := h.host_unchanged
  exact ⟨hconfig, hport, fun _ => by rw [hinput], fun _ => h.bank?_unchanged, h.engine_unchanged,
    h.scratch_unchanged⟩

/-! ### The frame of a step -/

/-- R90: what the decoder leaves is the end of what it was given. -/
theorem exists_taken_of_decode {nctx : Nat} {words rest : List Word}
    (h : (∃ why, decode nctx words = .reserved why rest) ∨ ∃ i, decode nctx words = .command i rest) :
    ∃ taken, words = taken ++ rest := by
  cases words with
  | nil => rcases h with ⟨_, h⟩ | ⟨_, h⟩ <;> cases h
  | cons cw words =>
    obtain ⟨hshort, hwhole⟩ := commandLengthByOpcode nctx cw words
    rcases Nat.lt_or_ge (words.length + 1) (wordsOf cw) with hlt | hge
    · rcases h with ⟨_, h⟩ | ⟨_, h⟩ <;> cases (hshort hlt).symm.trans h
    · have hrest : (cw :: words).drop (wordsOf cw) = rest := by
        rcases hwhole hge with ⟨_, hres⟩ | ⟨_, hcmd⟩
        · simpa [hres] using h
        · simpa [hcmd] using h
      exact ⟨(cw :: words).take (wordsOf cw), by rw [← hrest, List.take_append_drop]⟩

/-- Settles O38: a step is idle, or takes words from the port and is an error or a command. -/
theorem stepFrame : Obligations.StepFrame := by
  intro s t hstep
  rcases step_cases s with ⟨-, he⟩ | ⟨why, rest, hfetch, he⟩ | ⟨i, rest, hfetch, he⟩
  · cases he.symm.trans hstep
    exact ⟨rfl, fun _ => rfl, [], rfl⟩
  · cases he.symm.trans hstep
    exact ⟨rfl, fun _ => rfl, exists_taken_of_decode (.inl ⟨why, hfetch⟩)⟩
  · obtain ⟨hconfig, hport, hinput⟩ := (exec_completes (he.symm.trans hstep)).host_unchanged
    refine ⟨hconfig, fun _ => by rw [hinput]; rfl, ?_⟩
    rw [hport]
    exact exists_taken_of_decode (.inr ⟨i, hfetch⟩)

/-! ### Commands and the words after them (R101) -/

/-- An outcome with other words left at the port. -/
def withPort (rest : List Word) :
    Host.Outcome State Fault Refusal → Host.Outcome State Fault Refusal
  | .next s => .next (s.consume rest)
  | .fault r => .fault r
  | .refused r => .refused r

section Checks

variable {s : State} {rest : List Word}

theorem withSlot_consume {c : BankNo} {k k' : Bank → Host.Outcome State Fault Refusal}
    (hk : ∀ b, k' b = withPort rest (k b)) :
    withSlot c (s.consume rest) k' = withPort rest (withSlot c s k) := by
  rcases withSlot_cases c s k with ⟨hb, he⟩ | ⟨b, hb, he⟩ <;> rw [he]
  · simp only [withSlot, State.consume_bank?, hb]
    rfl
  · rw [withSlot_some c (s.consume rest) k' b hb, hk]

theorem withInstance_consume {c : BankNo} {k k' : Bank → Host.Outcome State Fault Refusal}
    (hk : ∀ b, k' b = withPort rest (k b)) :
    withInstance c (s.consume rest) k' = withPort rest (withInstance c s k) := by
  refine withSlot_consume fun b => ?_
  rw [apply_ite (withPort rest), hk]
  rfl

theorem withSetup_consume {hsize rounds : Byte} {k k' : Setup → Host.Outcome State Fault Refusal}
    (hk : ∀ st, k' st = withPort rest (k st)) :
    withSetup hsize rounds (s.consume rest) k' = withPort rest (withSetup hsize rounds s k) := by
  rcases withSetup_cases hsize rounds s k with ⟨hst, he⟩ | ⟨st, hst, he⟩ <;> rw [he]
  · simp only [withSetup, hst]
    rfl
  · rw [withSetup_some _ _ _ k' st hst, hk]

theorem withInput_consume {d : Desc} {k k' : List Byte → Host.Outcome State Fault Refusal}
    (hk : ∀ bytes, k' bytes = withPort rest (k bytes)) :
    withInput d (s.consume rest) k' = withPort rest (withInput d s k) := by
  unfold withInput
  rw [apply_ite (withPort rest), hk]
  rfl

theorem withReady_consume {b : Bank} {k k' : Setup → Host.Outcome State Fault Refusal}
    (hk : ∀ st, k' st = withPort rest (k st)) :
    withReady b k' = withPort rest (withReady b k) := by
  rcases withReady_cases b k with ⟨hst, he⟩ | ⟨st, hst, he⟩ <;> rw [he]
  · simp only [withReady, hst]
    rfl
  · rw [withReady_some b k' st hst, hk]

end Checks

/-- No command looks at the words after it. -/
theorem exec_consume (i : Instr) (s : State) (rest : List Word) :
    exec i (s.consume rest) = withPort rest (exec i s) := by
  cases i with
  | init => exact withSlot_consume fun b => withSetup_consume fun st => rfl
  | initu => exact withSlot_consume fun b => withSetup_consume fun st => withInput_consume fun _ => rfl
  | upd1 => exact withInstance_consume fun b => withReady_consume fun st => rfl
  | updn => exact withInstance_consume fun b => withInput_consume fun _ => withReady_consume fun st => rfl
  | digest => exact withInstance_consume fun b => withReady_consume fun st => rfl
  | reset | hsz => exact withInstance_consume fun b => rfl
  | clone => exact withSlot_consume fun _ => withInstance_consume fun src => rfl
  | blksz | name => rfl
  | hash => exact withSetup_consume fun st => withInput_consume fun _ => rfl
  | hexenc d =>
    rw [exec_hexenc_eq, exec_hexenc_eq]
    exact withInput_consume fun _ => rfl
  | hexval d =>
    rw [exec_hexval_eq, exec_hexval_eq]
    refine withInput_consume fun _ => ?_
    rw [apply_ite (withPort rest), apply_ite (withPort rest)]
    rfl

theorem runCommands_consume {commands : List Instr} {s t : State} (rest : List Word)
    (h : runCommands commands s = some t) :
    runCommands commands (s.consume rest) = some (t.consume rest) := by
  induction commands generalizing s with
  | nil =>
    cases h
    rfl
  | cons i is ih =>
    rw [runCommands] at h ⊢
    rw [exec_consume]
    cases hexec : exec i s with
    | next u =>
      rw [hexec] at h
      exact ih h
    | fault | refused =>
      rw [hexec] at h
      cases h

/-- Settles O39, by induction on the commands: the first step runs the first command, and the rest run
whatever words it has left at the port. -/
theorem commandsRunInIssueOrder : Obligations.CommandsRunInIssueOrder := by
  intro commands
  induction commands with
  | nil =>
    rintro s t rest - hport hrun
    cases hrun
    exact congrArg (fun port => some { s with port := port }) hport
  | cons i is ih =>
    intro s t rest hwf hport hrun
    rw [List.flatMap_cons, List.append_assoc] at hport
    have hstep := step_of_port (hwf i List.mem_cons_self) hport
    rw [exec_consume] at hstep
    rw [runCommands] at hrun
    cases hexec : exec i s with
    | next u =>
      rw [hexec] at hrun hstep
      obtain ⟨hconfig, -, -⟩ := (exec_completes hexec).host_unchanged
      have hnctx : u.nctx = s.nctx := congrArg Config.nctx hconfig
      rw [List.length_cons, runSteps, hstep]
      have hafter := runCommands_consume (is.flatMap encode ++ rest) hrun
      refine ih _ (t.consume (is.flatMap encode ++ rest)) rest (fun j hj => ?_) rfl hafter
      rw [State.consume_nctx, hnctx]
      exact hwf j (List.mem_cons_of_mem _ hj)
    | fault | refused =>
      rw [hexec] at hrun
      cases hrun

end Sys2Proof.Machine
end

section
/-! SUPPORT. The invariant of the machine (spec/10_state.md R22, R24, R25, R36; spec/20_memory.md R60): every
command, every step and every action of the host keeps it. -/

namespace Sys2Proof.Machine

open Sys2Proof.Claims

/-! ### Banks -/

/-- R39: the initial instance state of any configuration. -/
theorem Bank.construct_ok (b : Bank) (st : Setup) : (b.construct st).Ok := by
  refine ⟨?_, Nat.zero_lt_succ _, rfl⟩
  rw [construct_cfg, setupOfCfg?_cfg]
  rfl

theorem Bank.ctxReset_ok {b : Bank} (h : b.Ok) : b.ctxReset.Ok := by
  obtain ⟨hcfg, -, -⟩ := h
  exact ⟨hcfg, Nat.zero_lt_succ _, rfl⟩

/-- R25: feeding raises `BUFLEN` and `COUNT` alike. -/
theorem feed_ok (r : Passes) (bytes : List Byte) {be : Bank × Engine} (h : be.1.Ok) :
    (feed r bytes be).1.Ok := by
  obtain ⟨hcfg, hlen, hcount⟩ := h
  have hbuflen := feed_buflen r bytes be hlen
  refine ⟨by rw [feed_cfg]; exact hcfg, by omega, ?_⟩
  rw [hbuflen, feed_count, BitVec.toNat_add, BitVec.toNat_ofNat, hcount]
  omega

/-- A bank as the invariant has it can be fed. -/
theorem Bank.Ok.exists_ready {b : Bank} (h : b.Ok) : ∃ st, b.ready? = some st := by
  obtain ⟨hcfg, hlen, -⟩ := h
  obtain ⟨st, hst⟩ := Option.isSome_iff_exists.1 hcfg
  exact ⟨st, (b.ready?_eq st).2 ⟨hlen, hst⟩⟩

/-! ### Commands and steps keep the invariant -/

/-- The state differs in what the invariant does not speak of. -/
theorem State.Inv.congr {s t : State} (h : s.Inv) (hconfig : t.config = s.config)
    (hinput : t.input = s.input) (hphase : t.engine.seq.phase = .idle)
    (hbanks : ∀ b ∈ t.banks, b.valid = true → b.Ok) : t.Inv := by
  obtain ⟨hlegal, hwf, hbound, -, -⟩ := h
  have hsize : t.inSize = s.inSize := congrArg Config.inSize hconfig
  exact ⟨hconfig ▸ hlegal, hinput ▸ hwf, hinput ▸ hsize ▸ hbound, hphase, hbanks⟩

theorem State.Inv.bank_ok {s : State} (h : s.Inv) {c : BankNo} {b : Bank} (hb : s.bank? c = some b)
    (hv : b.valid = true) : b.Ok := by
  obtain ⟨-, -, -, -, hbanks⟩ := h
  exact hbanks b (s.bank?_mem c b hb) hv

theorem State.Inv.phase_idle {s : State} (h : s.Inv) : s.engine.seq.phase = .idle := by
  obtain ⟨-, -, -, hphase, -⟩ := h
  exact hphase

theorem State.Inv.banks_ok {s : State} (h : s.Inv) : ∀ b ∈ s.banks, b.valid = true → b.Ok := by
  obtain ⟨-, -, -, -, hbanks⟩ := h
  exact hbanks

/-- One bank replaced by a good one, and the engine at rest. -/
theorem State.Inv.putFed {s : State} (h : s.Inv) (c : BankNo) {be : Bank × Engine} (hok : be.1.Ok)
    (hphase : be.2.seq.phase = .idle) : (s.putFed c be).Inv := by
  refine h.congr (by simp) rfl hphase fun b hb hv => ?_
  rcases State.mem_setBank (s.setEngine be.2) c be.1 b hb with rfl | hb
  · exact hok
  · exact h.banks_ok b hb hv

theorem State.Inv.setBank {s : State} (h : s.Inv) (c : BankNo) {b : Bank} (hok : b.Ok) :
    (s.setBank c b).Inv := h.putFed c (be := (b, s.engine)) hok h.phase_idle

/-- A command that completes keeps the invariant. -/
theorem Completes.inv {s t : State} {i : Instr} (h : Completes s i t) (hs : s.Inv) : t.Inv := by
  have hidle := hs.phase_idle
  cases h with
  | error | blksz | hsz | name | hexenc | hexval => exact hs
  | init => exact hs.setBank _ (Bank.construct_ok _ _)
  | initu => exact hs.putFed _ (feed_ok _ _ (Bank.construct_ok _ _)) (feed_phase _ _ _ hidle)
  | upd1 hb hv | updn hb hv =>
    exact hs.putFed _ (feed_ok _ _ (hs.bank_ok hb hv)) (feed_phase _ _ _ hidle)
  | digest hb hv =>
    exact hs.putFed _ (Bank.ctxReset_ok (feed_ok _ _ (hs.bank_ok hb hv))) (feed_phase _ _ _ hidle)
  | reset hb hv => exact hs.setBank _ (Bank.ctxReset_ok (hs.bank_ok hb hv))
  | clone _ hsrc hv =>
    have hok := hs.bank_ok hsrc hv
    exact hs.setBank _ hok
  | hash => exact hs.congr rfl rfl (feed_phase _ _ _ (feed_phase _ _ _ hidle)) hs.banks_ok

/-- Settles O40: by what a step can do, and for a command by the cases of its completion. -/
theorem stepKeepsInvariant : Obligations.StepKeepsInvariant := by
  intro s t hs hstep
  rcases step_cases s with ⟨-, he⟩ | ⟨_, rest, -, he⟩ | ⟨i, rest, -, he⟩
  · cases he.symm.trans hstep
    exact hs
  · cases he.symm.trans hstep
    exact hs
  · exact (exec_completes (he.symm.trans hstep)).inv (s := s.consume rest) hs

/-! ### Reset and the host's actions keep the invariant -/

theorem State.powerOn_inv {cfg : Config} (h : cfg.Legal) : (State.powerOn cfg).Inv := by
  refine ⟨?_, ⟨.nil, nofun⟩, nofun, rfl, fun b hb hv => ?_⟩
  · rw [State.powerOn_config]
    exact h
  · rw [List.eq_of_mem_replicate hb] at hv
    cases hv

/-- Settles O41: no bank is valid after power-on, and the reference configuration is legal. -/
theorem resetMeetsInvariant : Obligations.ResetMeetsInvariant :=
  ⟨State.powerOn_inv (by decide), fun _ => State.powerOn_inv⟩

theorem State.Inv.hostWrite {s : State} (h : s.Inv) (a : Nat) (b : Byte) : (s.hostWrite a b).Inv := by
  obtain ⟨hlegal, hwf, hbound, hphase, hbanks⟩ := h
  obtain ⟨hwf', hbound'⟩ := s.hostWrite_input_wf a b hwf hbound
  exact ⟨by simpa using hlegal, hwf', by simpa using hbound', by simpa using hphase, by simpa using hbanks⟩

/-- Every state some history leads to meets the invariant. -/
theorem Reachable.inv {s : State} (h : Reachable s) : s.Inv := by
  induction h with
  | powerOn _ hlegal => exact State.powerOn_inv hlegal
  | step s t _ hstep ih => exact stepKeepsInvariant s t ih hstep
  | issue _ _ _ ih => exact ih
  | write _ a b _ ih => exact ih.hostWrite a b
  | reset _ _ ih =>
    obtain ⟨hlegal, -⟩ := ih
    exact State.powerOn_inv hlegal

/-- Settles O43: the invariant holds of every reachable state. -/
theorem buflenIsCountMod128 : Obligations.BuflenIsCountMod128 := by
  intro s hs b hb hv
  obtain ⟨-, -, hcount⟩ := hs.inv.banks_ok b hb hv
  exact hcount

/-- Settles O46, by the law of a read after a write. -/
theorem hostWriteReadsBack : Obligations.HostWriteReadsBack := by
  intro s a v x hwf
  by_cases ha : a < s.inSize
  · rw [s.hostWrite_input a v ha]
    refine ⟨Memory.wf_write s.input hwf a v, fun _ => ?_, fun h => absurd ha (Nat.not_lt.2 h)⟩
    rw [Memory.read_write s.input hwf a v x]
    exact if_congr eq_comm rfl rfl
  · have hsame : s.hostWrite a v = s := if_neg ha
    exact ⟨hsame.symm ▸ hwf, fun h => absurd h ha, fun _ => hsame⟩

end Sys2Proof.Machine
end

section
/-! SUPPORT. Which error a command reports (spec/60_exceptions.md R287), and that under the invariant every
command answers (R291): each check is judged once, and a command is its checks in the order of R287. -/

namespace Sys2Proof.Machine

open Sys2Proof.Claims

/-! ### What an outcome should be -/

/-- The error R287 has a command report: it applies and none before it does. -/
def FirstError (i : Instr) (s : State) (e : Err) : Prop :=
  Applies i s e ∧ ∀ e', errorRank e' < errorRank e → ¬ Applies i s e'

/-- The outcome of a command as R287 has it: the first error that applies, or success if none does. -/
inductive Judged (i : Instr) (s : State) : Host.Outcome State Fault Refusal → Prop
  | error {e : Err} (h : FirstError i s e) : Judged i s (raise e s)
  | success {t : State} {val : Word} {data : List Byte} (h : ∀ e, ¬ Applies i s e)
      (hresp : t.resp = some (Response.ok val data)) : Judged i s (.next t)

/-- No error before place `n` in the order of R287 applies. -/
def Passed (i : Instr) (s : State) (n : Nat) : Prop := ∀ e, errorRank e < n → ¬ Applies i s e

theorem errorRank_inj {e e' : Err} (h : errorRank e = errorRank e') : e = e' := by
  revert h
  cases e <;> cases e' <;> decide

theorem not_errorRank_lt_one (e : Err) : ¬ errorRank e < 1 := by cases e <;> decide

theorem FirstError.unique {i : Instr} {s : State} {e e' : Err} (h : FirstError i s e)
    (h' : FirstError i s e') : e = e' := by
  obtain ⟨happ, hfirst⟩ := h
  obtain ⟨happ', hfirst'⟩ := h'
  exact errorRank_inj (Nat.le_antisymm (Nat.le_of_not_lt fun hlt => hfirst _ hlt happ')
    (Nat.le_of_not_lt fun hlt => hfirst' _ hlt happ))

section Checks

variable {i : Instr} {s : State}

/-! ### From one place of the order to the next -/

theorem Passed.extend {m n : Nat} {e : Err} (h : Passed i s m) (he : ¬ Applies i s e)
    (hn : ∀ e', errorRank e' < n → errorRank e' < m ∨ e' = e) : Passed i s n := by
  intro e' hlt
  rcases hn e' hlt with hlt | rfl
  · exact h e' hlt
  · exact he

theorem passed_slots (h : ∀ c ∈ i.bankFields, ∃ b, s.bank? c = some b) : Passed i s 2 := by
  have hwf : i.wf s.nctx = true := (wf_iff i s.nctx).2 fun c hc =>
    (s.bank?_isSome c).1 (Option.isSome_iff_exists.2 (h c hc))
  refine Passed.extend (m := 1) (e := .illegalCommand) (fun e h => absurd h (not_errorRank_lt_one e)) ?_
    (fun e => by cases e <;> decide)
  exact fun hill => Bool.false_ne_true (hill.symm.trans hwf)

theorem Passed.valid (h : Passed i s 2)
    (hb : ∀ c, i.needsBank? = some c → ∃ b, s.bank? c = some b ∧ b.valid = true) : Passed i s 3 := by
  refine h.extend (e := .noInstance) ?_ (fun e => by cases e <;> decide)
  rintro ⟨c, b, hneed, hbank, hinvalid⟩
  obtain ⟨b', hbank', hvalid⟩ := hb c hneed
  cases hbank.symm.trans hbank'
  exact Bool.false_ne_true (hinvalid.symm.trans hvalid)

theorem Passed.setup (h : Passed i s 3)
    (hst : ∀ hsize rounds, i.setupOperands? = some (hsize, rounds) → LegalSetup hsize rounds) :
    Passed i s 4 := by
  refine h.extend (e := .configuration) ?_ (fun e => by cases e <;> decide)
  rintro ⟨hsize, rounds, hops, hillegal⟩
  exact hillegal (hst hsize rounds hops)

theorem Passed.input (h : Passed i s 4) (hd : ∀ d, i.desc? = some d → Admitted s d) :
    Passed i s 6 := by
  refine h.extend (e := .invalidInput) ?_ (fun e => by cases e <;> decide)
  rintro ⟨d, hdesc, hout⟩
  exact hout (hd d hdesc)

theorem Passed.none_applies (h : Passed i s 6) (hhex : ∀ d, i.hexDesc? = some d → HexString s d)
    (e : Err) : ¬ Applies i s e := by
  refine h.extend (n := 7) (e := .format) ?_ (fun e => by cases e <;> decide) e
    (by cases e <;> decide)
  rintro ⟨d, hdesc, hbad⟩
  exact hbad (hhex d hdesc)

/-! ### The checks -/

theorem judged_withSlot {c : BankNo} {k : Bank → Host.Outcome State Fault Refusal}
    (hc : c ∈ i.bankFields) (hk : ∀ b, s.bank? c = some b → Judged i s (k b)) :
    Judged i s (withSlot c s k) := by
  rcases withSlot_cases c s k with ⟨hb, he⟩ | ⟨b, hb, he⟩ <;> rw [he]
  · refine .error (e := .illegalCommand) ⟨?_, fun e h => absurd h (not_errorRank_lt_one e)⟩
    have hout := (s.bank?_none c).1 hb
    exact Bool.eq_false_iff.2 fun hwf => Nat.not_lt.2 hout ((wf_iff i s.nctx).1 hwf c hc)
  · exact hk b hb

theorem judged_withInstance {c : BankNo} {k : Bank → Host.Outcome State Fault Refusal}
    (hc : c ∈ i.bankFields) (hneed : i.needsBank? = some c)
    (hslots : ∀ b, s.bank? c = some b → Passed i s 2)
    (hk : ∀ b, s.bank? c = some b → b.valid = true → Passed i s 3 → Judged i s (k b)) :
    Judged i s (withInstance c s k) := by
  refine judged_withSlot hc fun b hb => ?_
  cases hv : b.valid with
  | false => exact .error ⟨⟨c, b, hneed, hb, hv⟩, hslots b hb⟩
  | true =>
    refine hk b hb hv ((hslots b hb).valid fun c' hneed' => ?_)
    cases hneed.symm.trans hneed'
    exact ⟨b, hb, hv⟩

theorem judged_withSetup {hsize rounds : Byte} {k : Setup → Host.Outcome State Fault Refusal}
    (hops : i.setupOperands? = some (hsize, rounds)) (h : Passed i s 3)
    (hk : ∀ st, Passed i s 4 → Judged i s (k st)) : Judged i s (withSetup hsize rounds s k) := by
  by_cases hlegal : LegalSetup hsize rounds
  · obtain ⟨st, hst⟩ := (legalSetup_iff hsize rounds).1 hlegal
    rw [withSetup_some hsize rounds s k st hst]
    refine hk st (h.setup fun _ _ hops' => ?_)
    cases hops.symm.trans hops'
    exact hlegal
  · rw [withSetup_illegal s k hlegal]
    exact .error (e := .configuration) ⟨⟨hsize, rounds, hops, hlegal⟩, h⟩

theorem judged_withInput {d : Desc} {k : List Byte → Host.Outcome State Fault Refusal}
    (hdesc : i.desc? = some d) (h : Passed i s 4)
    (hk : Admitted s d → Passed i s 6 → Judged i s (k (s.inputBytes d))) :
    Judged i s (withInput d s k) := by
  by_cases hd : Admitted s d
  · rw [withInput_admitted d s k ((admitted_iff s d).1 hd)]
    refine hk hd (h.input fun _ hdesc' => ?_)
    cases hdesc.symm.trans hdesc'
    exact hd
  · rw [withInput_not_admitted k hd]
    exact .error (e := .invalidInput) ⟨⟨d, hdesc, hd⟩, h⟩

/-- The model's one fault stands where a bank is not as the invariant has it. -/
theorem judged_withReady {b : Bank} {k : Setup → Host.Outcome State Fault Refusal} (hok : b.Ok)
    (hk : ∀ st, Judged i s (k st)) : Judged i s (withReady b k) := by
  obtain ⟨st, hst⟩ := hok.exists_ready
  rw [withReady_some b k st hst]
  exact hk st

theorem judged_respond {val : Word} {data : List Byte} {t : State} (h : Passed i s 6)
    (hhex : ∀ d, i.hexDesc? = some d → HexString s d) : Judged i s (respond val data t) :=
  .success (h.none_applies hhex) rfl

/-- A command on one bank that has passed the check of its number. -/
theorem passed_slot {c : BankNo} {b : Bank} (hi : i.bankFields = [c]) (hb : s.bank? c = some b) :
    Passed i s 2 := by
  refine passed_slots ?_
  rw [hi]
  exact List.forall_mem_singleton.2 ⟨b, hb⟩

/-- A command that names no bank. -/
theorem passed_no_bank (i : Instr) (s : State) (hi : i.bankFields = [])
    (hneed : i.needsBank? = none) : Passed i s 3 := by
  refine (passed_slots ?_).valid ?_
  · rw [hi]
    exact List.forall_mem_nil _
  · rw [hneed]
    exact nofun

end Checks

/-! ### The commands -/

/-- R287, R291: under the invariant every command answers as R287 has it. -/
theorem exec_judged {s : State} (hs : s.Inv) (i : Instr) : Judged i s (exec i s) := by
  cases i with
  | init =>
    exact judged_withSlot List.mem_cons_self fun _ hb =>
      judged_withSetup rfl ((passed_slot rfl hb).valid nofun) fun _ h =>
      judged_respond (h.input nofun) nofun
  | initu =>
    exact judged_withSlot List.mem_cons_self fun _ hb =>
      judged_withSetup rfl ((passed_slot rfl hb).valid nofun) fun _ h =>
      judged_withInput rfl h fun _ h => judged_respond h nofun
  | upd1 =>
    exact judged_withInstance List.mem_cons_self rfl (fun _ => passed_slot rfl) fun _ hb hv h =>
      judged_withReady (hs.bank_ok hb hv) fun _ => judged_respond ((h.setup nofun).input nofun) nofun
  | updn =>
    exact judged_withInstance List.mem_cons_self rfl (fun _ => passed_slot rfl) fun _ hb hv h =>
      judged_withInput rfl (h.setup nofun) fun _ h =>
      judged_withReady (hs.bank_ok hb hv) fun _ => judged_respond h nofun
  | digest =>
    exact judged_withInstance List.mem_cons_self rfl (fun _ => passed_slot rfl) fun _ hb hv h =>
      judged_withReady (hs.bank_ok hb hv) fun _ => judged_respond ((h.setup nofun).input nofun) nofun
  | reset | hsz =>
    exact judged_withInstance List.mem_cons_self rfl (fun _ => passed_slot rfl) fun _ _ _ h =>
      judged_respond ((h.setup nofun).input nofun) nofun
  | clone cd cs =>
    refine judged_withSlot List.mem_cons_self fun dst hdst =>
      judged_withInstance (List.mem_cons_of_mem _ List.mem_cons_self) rfl (fun src hsrc => ?_)
        fun _ _ _ h => judged_respond ((h.setup nofun).input nofun) nofun
    exact passed_slots (List.forall_mem_cons.2 ⟨⟨dst, hdst⟩, List.forall_mem_singleton.2 ⟨src, hsrc⟩⟩)
  | blksz => exact judged_respond (((passed_no_bank .blksz s rfl rfl).setup nofun).input nofun) nofun
  | name => exact judged_respond (((passed_no_bank .name s rfl rfl).setup nofun).input nofun) nofun
  | hash =>
    exact judged_withSetup rfl (passed_no_bank _ s rfl rfl) fun _ h =>
      judged_withInput rfl h fun _ h => judged_respond h nofun
  | hexenc d =>
    rw [exec_hexenc_eq]
    exact judged_withInput rfl ((passed_no_bank (.hexenc d) s rfl rfl).setup nofun) fun _ h =>
      judged_respond h nofun
  | hexval d =>
    rw [exec_hexval_eq]
    refine judged_withInput rfl ((passed_no_bank (.hexval d) s rfl rfl).setup nofun) fun _ h => ?_
    by_cases hhex : HexString s d
    · obtain ⟨hlen, hall⟩ := (hexString_iff s d).1 hhex
      rw [if_neg hlen, if_pos hall]
      refine judged_respond h fun d' hd' => ?_
      cases hd'
      exact hhex
    · have herr : Judged (.hexval d) s (raise .format s) := .error ⟨⟨d, rfl, hhex⟩, h⟩
      split
      · exact herr
      next hlen =>
        rw [if_neg fun hall => hhex ((hexString_iff s d).2 ⟨hlen, hall⟩)]
        exact herr

/-- Settles O33: there is at most one first error, and a judged outcome reports it. -/
theorem errorPriority : Obligations.ErrorPriority := by
  intro s i hs
  have hjudged := exec_judged hs i
  generalize exec i s = o at hjudged
  cases hjudged with
  | error hfirst =>
    refine ⟨fun e happ hbefore => ?_, fun hnone => ?_⟩
    · rw [hfirst.unique ⟨happ, hbefore⟩, ← Err.code_eq_errorCode]
      rfl
    · obtain ⟨happ, -⟩ := hfirst
      exact absurd happ (hnone _)
  | success hnone hresp =>
    exact ⟨fun e happ => absurd happ (hnone e), fun _ => ⟨_, _, rfl, hresp, rfl⟩⟩

/-- Settles O42: only a command could stop, and under the invariant every command answers. -/
theorem stepNeverStops : Obligations.StepNeverStops := by
  intro s hs
  rcases step_cases s with ⟨-, he⟩ | ⟨_, _, -, he⟩ | ⟨i, rest, -, he⟩
  · exact ⟨_, he⟩
  · exact ⟨_, he⟩
  · have hjudged := exec_judged (s := s.consume rest) hs i
    rw [he]
    generalize exec i (s.consume rest) = o at hjudged
    cases hjudged with
    | error | success => exact ⟨_, rfl⟩

end Sys2Proof.Machine
end

section
/-! SUPPORT. Feeding a bank: inside one block, one whole block of `IN`, in any split into commands, and
after a construction (spec/40_context.md R123 to R127, R133; spec/20_memory.md R79). -/

namespace Sys2Proof.Machine

open Sys2Proof.Claims

/-! ### Inside one block -/

@[simp] theorem Bank.storeAll_valid (b : Bank) (bytes : List Byte) :
    (b.storeAll bytes).valid = b.valid := by
  induction bytes generalizing b with
  | nil => rfl
  | cons byte bytes ih => rw [storeAll_cons, ih, store_valid]

@[simp] theorem Bank.storeAll_cfg (b : Bank) (bytes : List Byte) : (b.storeAll bytes).cfg = b.cfg := by
  induction bytes generalizing b with
  | nil => rfl
  | cons byte bytes ih => rw [storeAll_cons, ih, store_cfg]

/-- R123: bytes that do not fill the buffer are stored, and nothing is compressed. -/
theorem feed_within (r : Passes) {be : Bank × Engine} {bytes : List Byte}
    (hroom : be.1.buflen.toNat + bytes.length < 128) :
    feed r bytes be = (be.1.storeAll bytes, be.2) := by
  induction bytes generalizing be with
  | nil => rfl
  | cons byte bytes ih =>
    rw [List.length_cons] at hroom
    have hstore := be.1.store_buflen_toNat byte (by omega)
    rw [feed_cons, append_store r be byte (by omega)]
    exact ih (be := (be.1.store byte, be.2)) (by dsimp only; omega)

/-- The bytes in the buffer stay where they are. -/
theorem Bank.storeAll_buf_of_lt {b : Bank} {bytes : List Byte} {i : Nat}
    (hroom : b.buflen.toNat + bytes.length ≤ 128) (hi : i < b.buflen.toNat) :
    (b.storeAll bytes).buf[i]? = b.buf[i]? := by
  induction bytes generalizing b with
  | nil => rfl
  | cons byte bytes ih =>
    rw [List.length_cons] at hroom
    have hstore := b.store_buflen_toNat byte (by omega)
    rw [storeAll_cons, ih (by omega) (by omega), store_buf, Vector.getElem?_setIfInBounds_ne (by omega)]

/-- The bytes stored follow them in order. -/
theorem Bank.storeAll_buf_add {b : Bank} {bytes : List Byte} {j : Nat}
    (hroom : b.buflen.toNat + bytes.length ≤ 128) (hj : j < bytes.length) :
    (b.storeAll bytes).buf[b.buflen.toNat + j]? = bytes[j]? := by
  induction bytes generalizing b j with
  | nil => cases hj
  | cons byte bytes ih =>
    rw [List.length_cons] at hroom hj
    have hstore := b.store_buflen_toNat byte (by omega)
    rw [storeAll_cons]
    cases j with
    | zero =>
      rw [storeAll_buf_of_lt (by omega) (by omega), store_buf, Nat.add_zero,
        Vector.getElem?_setIfInBounds_self, if_pos (by omega), List.getElem?_cons_zero]
    | succ j =>
      rw [show b.buflen.toNat + (j + 1) = (b.store byte).buflen.toNat + j by omega,
        ih (by omega) (by omega), List.getElem?_cons_succ]

/-- Settles O15: the bytes of the input are stored after those in the buffer. -/
theorem updnWithinBlock : Obligations.UpdnWithinBlock := by
  intro s c d b st hb hf hd hroom
  have hlen := s.inputBytes_length d
  refine ⟨b.storeAll (s.inputBytes d), ?_, b.storeAll_h _, fun i => ?_, fun j hj => ?_⟩
  · rw [exec_updn hb hf hd, feed_within st.passes (be := (b, s.engine)) (by dsimp only; omega)]
    rfl
  · exact Bank.storeAll_buf_of_lt (by omega)
  · rw [Bank.storeAll_buf_add (by omega) (by omega), State.inputBytes_getElem? hj]

/-! ### A whole block -/

/-- R123: a whole block fed to an empty buffer is compressed as it is. -/
theorem feed_block (r : Passes) {b : Bank} (e : Engine) {bytes : List Byte} (hempty : b.buflen = 0)
    (hlen : bytes.length = 128) :
    feed r bytes (b, e) =
      ({ b with
          h := compress r b.h (Vector.ofFn fun i : Fin 128 => bytes.getD i.val 0)
          buf := Vector.replicate 128 0
          count := b.count + 128 }, e.retire) := by
  have hzero : b.buflen.toNat = 0 := congrArg BitVec.toNat hempty
  have hfill : b.buflen.toNat + bytes.length = 128 := by omega
  have hfed := feed_fill r (be := (b, e)) (by dsimp only; omega) hfill
  have hcount : (b.storeAll bytes).count = b.count + 128 := by
    have hfeed := feed_count r bytes (b, e)
    rw [hfed, hlen] at hfeed
    exact hfeed
  have hbuf : (b.storeAll bytes).buf = Vector.ofFn fun i : Fin 128 => bytes.getD i.val 0 := by
    rw [Bank.storeAll_buf hfill, hzero]
    rfl
  rw [hfed]
  simp only [Bank.clearBuffer, xform, Bank.storeAll_valid, Bank.storeAll_cfg, Bank.storeAll_h, hcount,
    hbuf, hempty]

/-- Settles O16: the 128 bytes of the input are the block that is compressed. -/
theorem wholeBlockFromInput : Obligations.WholeBlockFromInput := by
  intro s c d b st hb hf hd hempty hlen
  have hbytes : (s.inputBytes d).length = 128 := by rw [s.inputBytes_length, hlen]; rfl
  have hblock : (fun i : Fin 128 => (s.inputBytes d).getD i.val 0) =
      fun i : Fin 128 => Memory.read s.input (d.off.toNat + i.val) := by
    funext i
    rw [List.getD_eq_getElem?_getD, State.inputBytes_getElem? (by rw [hlen]; exact i.isLt)]
    rfl
  refine ⟨s.engine.retire, s.engine.retire_phase, ?_⟩
  rw [exec_updn hb hf hd, feed_block st.passes s.engine hempty hbytes, hblock]
  rfl

/-! ### Any split of the same bytes -/

/-- A bank that can be fed can still be fed afterwards. -/
theorem feedable_fed {be : Bank × Engine} {st : Setup} (h : Feedable be.1 st) (bytes : List Byte) :
    Feedable (feed st.passes bytes be).1 st := by
  induction bytes generalizing be with
  | nil => exact h
  | cons byte bytes ih => exact ih (feedable_append h byte)

/-- R126, R127: an admitted feeding command feeds its bytes. -/
theorem exec_feeds {s : State} {c : BankNo} {b : Bank} {st : Setup} {x : BankCommand}
    (hb : s.bank? c = some b) (hf : Feedable b st) (hx : x.feeds s = true) :
    exec (x.on c) s =
      .next ((s.putFed c (feed st.passes (x.fedBytes s) (b, s.engine))).answer okResponse) := by
  cases x with
  | upd1 byte => exact exec_upd1 hb hf byte
  | updn d => exact exec_updn hb hf ((admitted_iff s d).2 hx)
  | init | initu | digest | reset | hsz => cases hx

/-- What a command feeds, it reads from `IN`. -/
theorem BankCommand.fedBytes_congr {s t : State} (hinput : t.input = s.input) (x : BankCommand) :
    x.fedBytes t = x.fedBytes s := by
  cases x with
  | updn d => exact congrArg (Memory.readRange · d.off.toNat d.len.toNat) hinput
  | init | initu | upd1 | digest | reset | hsz => rfl

theorem BankCommand.feeds_congr {s t : State} (hsize : t.inSize = s.inSize) (x : BankCommand) :
    x.feeds t = x.feeds s := by
  cases x with
  | updn d => exact congrArg (descAdmitted d) hsize
  | init | initu | upd1 | digest | reset | hsz => rfl

/-- What was put into a bank is there. -/
theorem State.putFed_answer_bank?_self {s : State} {c : BankNo} {b : Bank} (hb : s.bank? c = some b)
    (be : Bank × Engine) (r : Response) : ((s.putFed c be).answer r).bank? c = some be.1 := by
  simpa using State.putFed_bank?_some hb c be

/-- R133: a sequence of feeding commands feeds the bytes of all of them, and changes nothing else but the
response. -/
theorem runCommands_feeds {s : State} {c : BankNo} {b : Bank} {st : Setup} {xs : List BankCommand}
    (hb : s.bank? c = some b) (hf : Feedable b st) (hxs : ∀ x ∈ xs, x.feeds s = true) :
    ∃ r, runCommands (xs.map (BankCommand.on c)) s =
      some { s.putFed c (feed st.passes (xs.flatMap (BankCommand.fedBytes s)) (b, s.engine)) with
        resp := r } := by
  induction xs generalizing s b with
  | nil =>
    refine ⟨s.resp, ?_⟩
    rw [List.flatMap_nil, feed_nil, State.putFed_self hb]
    rfl
  | cons x xs ih =>
    obtain ⟨hx, hxs⟩ := List.forall_mem_cons.1 hxs
    let be := feed st.passes (x.fedBytes s) (b, s.engine)
    have hbank := State.putFed_answer_bank?_self hb be okResponse
    obtain ⟨r, hr⟩ := ih hbank (feedable_fed hf _) fun y hy => (y.feeds_congr rfl).trans (hxs y hy)
    have hbytes : xs.flatMap (BankCommand.fedBytes ((s.putFed c be).answer okResponse)) =
        xs.flatMap (BankCommand.fedBytes s) := List.flatMap_congr fun y _ => y.fedBytes_congr rfl
    rw [State.putFed_answer_putFed, hbytes] at hr
    refine ⟨r, ?_⟩
    rw [List.map_cons, runCommands, exec_feeds hb hf hx, List.flatMap_cons, feed_append]
    exact hr

/-- The configuration of a bank as the invariant has it, and that it can be fed. -/
theorem Bank.Ok.exists_feedable {b : Bank} (h : b.Ok) (hv : b.valid = true) : ∃ st, Feedable b st := by
  obtain ⟨st, hst⟩ := h.exists_ready
  obtain ⟨hlen, hcfg⟩ := (b.ready?_eq st).1 hst
  exact ⟨st, hv, hcfg, hlen⟩

/-- Settles O27: both sequences feed the same bytes. -/
theorem bulkFeedingEqualsByteByByte : Obligations.BulkFeedingEqualsByteByByte := by
  intro s c b xs ys hb hv hok hxs hys hbytes
  obtain ⟨st, hf⟩ := hok.exists_feedable hv
  obtain ⟨r, hr⟩ := runCommands_feeds hb hf hxs
  obtain ⟨r', hr'⟩ := runCommands_feeds hb hf hys
  rw [hbytes] at hr
  exact ⟨_, _, hr, hr', rfl⟩

/-! ### After a construction -/

/-- R124: INIT with a legal configuration. -/
theorem exec_init {s : State} {c : BankNo} {hsize rounds : Byte} {b : Bank} {st : Setup}
    (hb : s.bank? c = some b) (hst : setupOf? hsize rounds = some st) :
    exec (.init c hsize rounds) s = .next ((s.setBank c (initialBank st.cfg)).answer okResponse) :=
  (withSlot_some c s _ b hb).trans (withSetup_some hsize rounds s _ st hst)

theorem feedable_initialBank (st : Setup) : Feedable (initialBank st.cfg) st :=
  ⟨rfl, setupOfCfg?_cfg st, Nat.zero_lt_succ _⟩

/-- Settles O12: INIT leaves the bank INITU feeds, and UPDN feeds it the same bytes. -/
theorem inituResult : Obligations.InituResult := by
  intro s c hsize rounds d hc
  obtain ⟨b, hb⟩ := State.exists_bank? hc
  have hexec : exec (.initu c hsize rounds d) s = withSetup hsize rounds s fun st =>
      withInput d s fun bytes => feedBank c st.passes bytes (b.construct st) s :=
    withSlot_some c s _ b hb
  refine ⟨congrArg (· :: [d.off, d.len]) (pack_eq_asmWord 0x02 c 0 d.present hsize rounds),
    fun hlegal hd => ?_, fun hillegal => hexec.trans (withSetup_illegal s _ hillegal),
    fun hlegal hd => ?_⟩
  · obtain ⟨st, hst⟩ := (legalSetup_iff hsize rounds).1 hlegal
    have hbank := s.setBank_bank?_self c (initialBank st.cfg) hc
    refine ⟨_, _, exec_initu hb hst hd, exec_init hb hst, ?_, rfl⟩
    rw [exec_updn (s := .answer (.setBank s c _) _) hbank (feedable_initialBank st) hd]
    have hfed := s.putFed_answer_putFed c (initialBank st.cfg, s.engine)
      (feed st.passes (s.inputBytes d) (initialBank st.cfg, s.engine)) okResponse
    have hagain := congrArg (State.answer · okResponse) hfed
    exact congrArg Host.Outcome.next hagain
  · obtain ⟨st, hst⟩ := (legalSetup_iff hsize rounds).1 hlegal
    rw [hexec, withSetup_some hsize rounds s _ st hst]
    exact withInput_not_admitted _ hd

/-- A stored configuration can be asked for again. -/
theorem setupOf?_of_setupOfCfg? {cfg : BitVec 16} {st : Setup} (h : setupOfCfg? cfg = some st) :
    setupOf? (cfgHsize cfg) ((cfgRounds cfg).setWidth 8) = some st := by
  unfold setupOfCfg? at h
  split at h
  · exact h
  · cases h

/-- R220, R235: DIGEST leaves the bank in the initial state of its configuration. -/
theorem padded_ctxReset {b : Bank} {st : Setup} (hf : Feedable b st) (e : Engine) :
    (padded st (b, e)).1.ctxReset = initialBank st.cfg := by
  obtain ⟨hv, hcfg, -⟩ := hf
  rw [Bank.ctxReset_eq_initialBank ((padded_valid ..).trans hv), padded_cfg,
    cfg_of_setupOfCfg? b.cfg st hcfg]

/-- R236: DIGEST of the initial state returns the digest of the empty message. -/
theorem exec_digest_initialBank {s : State} {c : BankNo} {st : Setup}
    (hb : s.bank? c = some (initialBank st.cfg)) :
    ∃ t, exec (.digest c) s = .next t ∧ t.resp = some (Response.ok 0 (messageDigest st [])) := by
  have hdigest :=
    messageDigest_of_initial (st := st) (be := (initialBank st.cfg, s.engine)) (v := true) [] rfl
  rw [feed_nil] at hdigest
  refine ⟨_, exec_digest hb (feedable_initialBank st), ?_⟩
  rw [hdigest]
  rfl

/-- Settles O18: the first DIGEST and INIT both leave the initial state of the configuration. -/
theorem secondDigestIsOfEmptyMessage : Obligations.SecondDigestIsOfEmptyMessage := by
  intro s c b hb hv hok
  obtain ⟨st, hf⟩ := hok.exists_feedable hv
  have ⟨_, hcfg, _⟩ := hf
  have hdigest := exec_digest hb hf
  have hinit := exec_init hb (setupOf?_of_setupOfCfg? hcfg)
  rw [padded_ctxReset hf] at hdigest
  obtain ⟨u, hu, hresp⟩ := exec_digest_initialBank
    (State.putFed_answer_bank?_self hb (initialBank st.cfg, (padded st (b, s.engine)).2) _)
  obtain ⟨w, hw, hresp'⟩ := exec_digest_initialBank
    (State.putFed_answer_bank?_self hb (initialBank st.cfg, s.engine) okResponse)
  exact ⟨_, u, _, w, hdigest, hu, hinit, hw, hresp.trans hresp'.symm, rfl⟩

end Sys2Proof.Machine
end

section
/-! SUPPORT. What HASH, HEXENC and HEXVAL read of `IN` (spec/43_finalize.md R237; spec/44_hexcodec.md R260,
R261), and what the host has put there. -/

namespace Sys2Proof.Machine

open Sys2Proof.Claims

/-! ### HASH -/

/-- Two states with the same bytes of `IN` give a command the same input. -/
theorem State.inputBytes_congr {s t : State}
    (h : ∀ a : Nat, a < s.inSize → Memory.read s.input a = Memory.read t.input a) {d : Desc}
    (hd : Admitted s d) : s.inputBytes d = t.inputBytes d := by
  obtain ⟨-, hbound⟩ := hd
  exact Memory.readRange_congr _ _ _ _ fun x _ hx => h x (by omega)

theorem admitted_congr {s t : State} (hsize : s.inSize = t.inSize) (d : Desc) :
    Admitted s d ↔ Admitted t d := by rw [Admitted, Admitted, hsize]

/-- Settles O23: an error answers by its code alone, and a digest is one of the bytes of `IN`. -/
theorem hashReadsInputOnly : Obligations.HashReadsInputOnly := by
  intro s t hsize rounds d hinSize hread
  by_cases hlegal : LegalSetup hsize rounds
  · by_cases hd : Admitted s d
    · obtain ⟨st, hst⟩ := (legalSetup_iff hsize rounds).1 hlegal
      have hdt := (admitted_congr hinSize d).1 hd
      refine ⟨_, _, exec_hash hst hd, exec_hash hst hdt, ?_, rfl, rfl⟩
      rw [State.inputBytes_congr hread hd]
      rfl
    · have hdt := mt (admitted_congr hinSize d).2 hd
      exact ⟨_, _, exec_hash_not_admitted hlegal hd, exec_hash_not_admitted hlegal hdt, rfl, rfl, rfl⟩
  · exact ⟨_, _, exec_hash_illegal d hlegal, exec_hash_illegal d hlegal, rfl, rfl, rfl⟩

/-! ### What the host places in `IN` -/

@[simp] theorem State.hostPlace_inSize (s : State) (off : Nat) (bytes : List Byte) :
    (s.hostPlace off bytes).inSize = s.inSize := by
  induction bytes generalizing s off with
  | nil => rfl
  | cons b bytes ih => exact (ih ..).trans (s.hostWrite_inSize off b)

/-- A byte below the place is as it was. -/
theorem State.hostPlace_read_of_lt {s : State} {off : Nat} {bytes : List Byte} {x : Nat}
    (hwf : Memory.wf s.input) (hx : x < off) :
    Memory.read (s.hostPlace off bytes).input x = Memory.read s.input x := by
  induction bytes generalizing s off with
  | nil => rfl
  | cons b bytes ih =>
    obtain ⟨hwf', hin, hout⟩ := hostWriteReadsBack s off b x hwf
    rw [State.hostPlace, ih hwf' (by omega)]
    rcases Nat.lt_or_ge off s.inSize with hoff | hoff
    · rw [hin hoff, if_neg (by omega)]
    · rw [hout hoff]

/-- The bytes placed read back. -/
theorem State.hostPlace_read_add {s : State} {off : Nat} {bytes : List Byte} {i : Nat} {b : Byte}
    (hwf : Memory.wf s.input) (hfit : off + bytes.length ≤ s.inSize) (hi : bytes[i]? = some b) :
    Memory.read (s.hostPlace off bytes).input (off + i) = b := by
  induction bytes generalizing s off i with
  | nil => cases hi
  | cons b' bytes ih =>
    rw [List.length_cons] at hfit
    obtain ⟨hwf', hin, -⟩ := hostWriteReadsBack s off b' (off + i) hwf
    rw [State.hostPlace]
    cases i with
    | zero =>
      cases hi
      rw [State.hostPlace_read_of_lt hwf' (by omega), hin (by omega), if_pos (Nat.add_zero off)]
    | succ i =>
      rw [show off + (i + 1) = off + 1 + i by omega]
      exact ih hwf' (by rw [State.hostWrite_inSize]; omega) hi

/-- Settles O26: the text has two hex digits for each byte, and reads back from where the host put it. -/
theorem hexencOutputPassesHexval : Obligations.HexencOutputPassesHexval := by
  intro s t d text off len hwf hd hexec hresp hlen hfit
  cases (exec_hexenc hd).symm.trans hexec
  obtain rfl : hexOf (s.inputBytes d) = text := congrArg Response.data (Option.some.inj hresp)
  refine exec_hexval ⟨rfl, ?_⟩ ⟨?_, fun i hi => ?_⟩
  · rw [State.hostPlace_inSize]
    exact hfit
  · rw [hlen, hexOf_length]
    exact Nat.mul_mod_right ..
  · have htext := List.getElem?_eq_getElem (hlen ▸ hi)
    rw [State.hostPlace_read_add (s := s.answer _) hwf (hlen ▸ hfit) htext]
    exact hexCharacter_of_mem_hexOf (List.getElem_mem _)

end Sys2Proof.Machine
end

section
/-! SUPPORT. The commands on one bank as functions of that bank and `IN`: what they make of it and answer
depends on no other bank and no engine register (spec/10_state.md R27, R28, R32; spec/20_memory.md R75;
spec/40_context.md R135). -/

namespace Sys2Proof.Machine

open Sys2Proof.Claims

/-! ### Feeding without the engine -/

/-- A bank after bytes were fed; the engine it was fed with does not matter (`feed_fst`). -/
def Bank.fed (r : Passes) (bytes : List Byte) (b : Bank) : Bank := (feed r bytes (b, Engine.powerOn)).1

theorem feed_fst (r : Passes) (bytes : List Byte) (be : Bank × Engine) :
    (feed r bytes be).1 = be.1.fed r bytes := by
  rw [feed_bank_congr (be := (be.1, Engine.powerOn)) (v := be.1.valid) r bytes rfl, Bank.fed,
    ← feed_valid r bytes (be.1, Engine.powerOn)]

theorem padded_fst (st : Setup) (be : Bank × Engine) :
    (padded st be).1 = be.1.fed st.passes (padBytes be.1.count st) := feed_fst ..

/-! ### What a command on one bank does -/

/-- What a command makes of its bank `b` and answers, or none where the model faults. An error leaves the
bank as it is. Of the state it reads `IN` alone. -/
def BankCommand.outcome (s : State) (b : Bank) : BankCommand → Option (Bank × Response)
  | .init hsize rounds =>
    (setupOf? hsize rounds).elim (some (b, .error .configuration)) fun st =>
      some (initialBank st.cfg, okResponse)
  | .initu hsize rounds d =>
    (setupOf? hsize rounds).elim (some (b, .error .configuration)) fun st =>
      if descAdmitted d s.inSize then
        some ((initialBank st.cfg).fed st.passes (s.inputBytes d), okResponse)
      else some (b, .error .invalidInput)
  | .upd1 byte =>
    if b.valid then b.ready?.bind fun st => some (b.fed st.passes [byte], okResponse)
    else some (b, .error .noInstance)
  | .updn d =>
    if b.valid then
      if descAdmitted d s.inSize then
        b.ready?.bind fun st => some (b.fed st.passes (s.inputBytes d), okResponse)
      else some (b, .error .invalidInput)
    else some (b, .error .noInstance)
  | .digest =>
    if b.valid then
      b.ready?.bind fun st =>
        some ((b.fed st.passes (padBytes b.count st)).ctxReset,
          .ok 0 (digestBytes st.width (b.fed st.passes (padBytes b.count st)).h))
    else some (b, .error .noInstance)
  | .reset => if b.valid then some (b.ctxReset, okResponse) else some (b, .error .noInstance)
  | .hsz =>
    if b.valid then some (b, .ok ((cfgHsize b.cfg).setWidth 32) []) else some (b, .error .noInstance)

/-- The same by bank number. Where there is no such bank, what is put there goes nowhere
(`State.putFed_missing`). -/
def BankCommand.outcomeAt (s : State) (c : BankNo) (x : BankCommand) : Option (Bank × Response) :=
  (s.bank? c).elim (some (Bank.powerOn, .error .illegalCommand)) fun b => x.outcome s b

/-- The outcome of `exec` with a given outcome of the bank, and some registers of the engine. -/
def State.conclude (s : State) (c : BankNo) (e : Engine) :
    Option (Bank × Response) → Host.Outcome State Fault Refusal
  | none => .fault .impossibleBank
  | some (b, r) => .next ((s.putFed c (b, e)).answer r)

/-- The outcome `o` of `exec` is what the outcome `v` of bank `c` makes it. -/
def Concludes (s : State) (c : BankNo) (v : Option (Bank × Response))
    (o : Host.Outcome State Fault Refusal) : Prop := ∃ e, o = s.conclude c e v

theorem State.putFed_missing {s : State} {c : BankNo} (hb : s.bank? c = none) (b : Bank) :
    s.putFed c (b, s.engine) = s := by
  have hbanks : s.banks.set c.toNat b = s.banks :=
    List.set_eq_of_length_le ((s.bank?_none c).1 hb)
  simp only [State.putFed, State.setBank, State.setEngine, hbanks]

section Checks

variable {s : State} {c : BankNo} {b : Bank}

/-- An answer that leaves the bank as it is. -/
theorem concludes_answer (hb : s.bank? c = some b) (r : Response) :
    Concludes s c (some (b, r)) (.next (s.answer r)) := by
  refine ⟨s.engine, ?_⟩
  rw [State.conclude, State.putFed_self hb]

theorem concludes_withInstance {v : Option (Bank × Response)}
    {k : Bank → Host.Outcome State Fault Refusal} (hb : s.bank? c = some b)
    (hk : Concludes s c v (k b)) :
    Concludes s c (if b.valid then v else some (b, .error .noInstance)) (withInstance c s k) := by
  cases hv : b.valid with
  | true =>
    rw [withInstance_valid c s k b hb hv]
    exact hk
  | false =>
    rw [withInstance_invalid c s k b hb hv]
    exact concludes_answer hb _

theorem concludes_withSetup {hsize rounds : Byte} {v : Setup → Option (Bank × Response)}
    {k : Setup → Host.Outcome State Fault Refusal} (hb : s.bank? c = some b)
    (hk : ∀ st, Concludes s c (v st) (k st)) :
    Concludes s c ((setupOf? hsize rounds).elim (some (b, .error .configuration)) v)
      (withSetup hsize rounds s k) := by
  rcases withSetup_cases hsize rounds s k with ⟨hst, he⟩ | ⟨st, hst, he⟩ <;> rw [he, hst]
  · exact concludes_answer hb _
  · exact hk st

theorem concludes_withInput {d : Desc} {v : Option (Bank × Response)}
    {k : List Byte → Host.Outcome State Fault Refusal} (hb : s.bank? c = some b)
    (hk : Concludes s c v (k (s.inputBytes d))) :
    Concludes s c (if descAdmitted d s.inSize then v else some (b, .error .invalidInput))
      (withInput d s k) := by
  rcases withInput_cases d s k with ⟨hd, he⟩ | ⟨hd, he⟩ <;> rw [he, hd]
  · exact concludes_answer hb _
  · exact hk

theorem concludes_withReady {v : Setup → Option (Bank × Response)}
    {k : Setup → Host.Outcome State Fault Refusal} (hk : ∀ st, Concludes s c (v st) (k st)) :
    Concludes s c (b.ready?.bind v) (withReady b k) := by
  rcases withReady_cases b k with ⟨hst, he⟩ | ⟨st, hst, he⟩ <;> rw [he, hst]
  · exact ⟨s.engine, rfl⟩
  · exact hk st

theorem concludes_feedBank (r : Passes) (bytes : List Byte) (b : Bank) :
    Concludes s c (some (b.fed r bytes, okResponse)) (feedBank c r bytes b s) := by
  refine ⟨(feed r bytes (b, s.engine)).2, ?_⟩
  rw [← feed_fst r bytes (b, s.engine)]
  rfl

end Checks

theorem exec_on_withSlot (x : BankCommand) (c : BankNo) (s : State) :
    ∃ k, exec (x.on c) s = withSlot c s k := by
  cases x <;> exact ⟨_, rfl⟩

/-- A command on bank `c` does what its outcome says. -/
theorem exec_on_of_bank {s : State} {c : BankNo} {b : Bank} (hb : s.bank? c = some b)
    (x : BankCommand) : Concludes s c (x.outcome s b) (exec (x.on c) s) := by
  cases x with
  | init hsize rounds =>
    rw [BankCommand.on, exec, execInit, withSlot_some c s _ b hb]
    exact concludes_withSetup hb fun st => ⟨s.engine, rfl⟩
  | initu hsize rounds d =>
    rw [BankCommand.on, exec, execInitu, withSlot_some c s _ b hb]
    exact concludes_withSetup hb fun st => concludes_withInput hb (concludes_feedBank ..)
  | upd1 byte =>
    exact concludes_withInstance hb (concludes_withReady fun st => concludes_feedBank ..)
  | updn d =>
    exact concludes_withInstance hb
      (concludes_withInput hb (concludes_withReady fun st => concludes_feedBank ..))
  | digest =>
    refine concludes_withInstance hb (concludes_withReady fun st => ⟨(padded st (b, s.engine)).2, ?_⟩)
    rw [padded_fst]
    rfl
  | reset => exact concludes_withInstance hb ⟨s.engine, rfl⟩
  | hsz => exact concludes_withInstance hb (concludes_answer hb _)

theorem exec_on (x : BankCommand) (c : BankNo) (s : State) :
    Concludes s c (x.outcomeAt s c) (exec (x.on c) s) := by
  cases hb : s.bank? c with
  | some b =>
    simp only [BankCommand.outcomeAt, hb]
    exact exec_on_of_bank hb x
  | none =>
    obtain ⟨k, hk⟩ := exec_on_withSlot x c s
    refine ⟨s.engine, ?_⟩
    simp only [BankCommand.outcomeAt, hb, Option.elim_none, State.conclude, State.putFed_missing hb]
    simp only [hk, withSlot, hb]
    rfl

/-- A command on one bank that completes: its outcome, and where it is put. -/
theorem exec_on_next {x : BankCommand} {c : BankNo} {s t : State} (h : exec (x.on c) s = .next t) :
    ∃ b r e, x.outcomeAt s c = some (b, r) ∧ t = (s.putFed c (b, e)).answer r := by
  obtain ⟨e, he⟩ := exec_on x c s
  rw [he] at h
  cases hv : x.outcomeAt s c with
  | none =>
    rw [hv] at h
    cases h
  | some p =>
    rw [hv] at h
    cases h
    exact ⟨p.1, p.2, e, rfl, rfl⟩

theorem exec_on_of_outcome {x : BankCommand} {c : BankNo} {s : State} {b : Bank} {r : Response}
    (h : x.outcomeAt s c = some (b, r)) :
    ∃ e, exec (x.on c) s = .next ((s.putFed c (b, e)).answer r) := by
  obtain ⟨e, he⟩ := exec_on x c s
  rw [h] at he
  exact ⟨e, he⟩

/-- The outcome of a command depends on its bank and on `IN`. -/
theorem BankCommand.outcomeAt_congr {s t : State} {c d : BankNo} (hsize : s.inSize = t.inSize)
    (hinput : s.input = t.input) (hb : s.bank? c = t.bank? d) (x : BankCommand) :
    x.outcomeAt s c = x.outcomeAt t d := by
  have hbytes : s.inputBytes = t.inputBytes := by
    funext d
    rw [State.inputBytes, State.inputBytes, hinput]
  have houtcome : ∀ b, x.outcome s b = x.outcome t b := by
    intro b
    cases x <;> simp only [outcome, hsize, hbytes]
  rw [outcomeAt, outcomeAt, hb]
  exact congrArg (Option.elim _ _) (funext houtcome)

/-- What was put into another bank does not matter. -/
theorem BankCommand.outcomeAt_putFed_ne (s : State) {c d : BankNo} (be : Bank × Engine) (r : Response)
    (h : d ≠ c) (x : BankCommand) : x.outcomeAt ((s.putFed c be).answer r) d = x.outcomeAt s d :=
  outcomeAt_congr (s := (s.putFed c be).answer r) (t := s) rfl rfl (s.putFed_bank?_ne be h) x

/-- Settles O30: each command finds its bank and `IN` as it does alone, and the two banks are put in
different places. -/
theorem commandsOnDifferentBanksCommute : Obligations.CommandsOnDifferentBanksCommute := by
  intro s s1 s2 c d x y hcd hx hy
  obtain ⟨bc, rx, ex, hox, rfl⟩ := exec_on_next hx
  obtain ⟨bd, ry, ey, hoy, rfl⟩ := exec_on_next hy
  rw [BankCommand.outcomeAt_putFed_ne s (bc, ex) rx hcd.symm] at hoy
  obtain ⟨ey', hy'⟩ := exec_on_of_outcome hoy
  rw [← BankCommand.outcomeAt_putFed_ne s (bd, ey') ry hcd] at hox
  obtain ⟨ex', hx'⟩ := exec_on_of_outcome hox
  refine ⟨_, _, hy', hx', ?_, rfl, rfl⟩
  exact List.set_comm _ _ fun h => hcd (BitVec.eq_of_toNat_eq h.symm)

/-! ### After CLONE (R135) -/

/-- R32: commands on one bank leave every other as it is. -/
theorem runCommands_on_bank?_ne {commands : List BankCommand} {c d : BankNo} {s t : State} (h : d ≠ c)
    (hrun : runCommands (commands.map (BankCommand.on c)) s = some t) : t.bank? d = s.bank? d := by
  induction commands generalizing s with
  | nil =>
    cases hrun
    rfl
  | cons x xs ih =>
    rw [List.map_cons, runCommands] at hrun
    cases hexec : exec (x.on c) s with
    | next u =>
      rw [hexec] at hrun
      obtain ⟨b, r, e, -, rfl⟩ := exec_on_next hexec
      exact (ih hrun).trans (s.putFed_bank?_ne (b, e) h)
    | fault | refused =>
      rw [hexec] at hrun
      cases hrun

/-- Equal banks answer equal commands alike. -/
theorem responses_on_congr (commands : List BankCommand) {c d : BankNo} {s t : State} {b : Bank}
    (hsize : s.inSize = t.inSize) (hinput : s.input = t.input) (hs : s.bank? c = some b)
    (ht : t.bank? d = some b) :
    responses (commands.map (BankCommand.on c)) s = responses (commands.map (BankCommand.on d)) t := by
  induction commands generalizing s t b with
  | nil => rfl
  | cons x xs ih =>
    obtain ⟨e, he⟩ := exec_on x c s
    obtain ⟨e', he'⟩ := exec_on x d t
    rw [← x.outcomeAt_congr hsize hinput (hs.trans ht.symm)] at he'
    rw [List.map_cons, List.map_cons, responses, responses, he, he']
    cases x.outcomeAt s c with
    | none => rfl
    | some p =>
      obtain ⟨b', r⟩ := p
      have hs' := State.putFed_answer_bank?_self hs (b', e) r
      have ht' := State.putFed_answer_bank?_self ht (b', e') r
      exact congrArg (Option.map (some r :: ·)) (ih hsize hinput hs' ht')

/-- Settles O29: both banks hold the source, commands on the one do not reach the other, and equal banks
answer alike. -/
theorem cloneIndependence : Obligations.CloneIndependence := by
  intro s cd cs src hne hcd hsrc hv
  obtain ⟨-, -, hcopy, -⟩ := cloneResult s cd cs src hcd hsrc
  have hbankd : (s.setBank cd src).bank? cd = some src := s.setBank_bank?_self cd src hcd
  have hbanks : (s.setBank cd src).bank? cs = some src :=
    (s.setBank_bank?_ne cd cs src hne.symm).trans hsrc
  refine ⟨_, hcopy hv, hbankd, hbanks, fun commands => ⟨fun u hu => ?_, fun u hu => ?_, ?_⟩⟩
  · exact (runCommands_on_bank?_ne hne.symm hu).trans hbanks
  · exact (runCommands_on_bank?_ne hne hu).trans hbankd
  · exact responses_on_congr commands rfl rfl hbankd hbanks

end Sys2Proof.Machine
end

section
/-! SUPPORT. What the host cannot observe (spec/10_state.md R31): `T`, `X`, `SEQ`, the scratch bank, the stale
bytes of a buffer and every register of a bank without an instance. Each operation and check of a command
respects that, so every command does. -/

namespace Sys2Proof.Machine

open Sys2Proof.Claims

/-! ### Banks -/

theorem Bank.SameVisible.refl (b : Bank) : b.SameVisible b :=
  ⟨rfl, fun _ => ⟨rfl, rfl, rfl, rfl, fun _ _ => rfl⟩⟩

/-- R123: a byte stored in buffers alike below `BUFLEN` leaves them alike below the new one. -/
theorem Bank.SameVisible.store {b b' : Bank} (h : b.SameVisible b') (hv : b.valid = true)
    (hroom : b.buflen.toNat < 128) (byte : Byte) : (b.store byte).SameVisible (b'.store byte) := by
  obtain ⟨hvalid, hregs⟩ := h
  obtain ⟨hcfg, hh, hcount, hbuflen, hbuf⟩ := hregs hv
  refine ⟨hvalid, fun _ => ⟨hcfg, hh, congrArg (· + 1) hcount, congrArg (· + 1) hbuflen, fun i hi => ?_⟩⟩
  rw [Bank.store_buflen_toNat byte hroom] at hi
  rw [Bank.store_buf_get, Bank.store_buf_get, ← hbuflen]
  exact ite_congr rfl (fun _ => rfl) fun hne => hbuf i (by omega)

/-- A full buffer has no stale bytes. -/
theorem Bank.SameVisible.buf_eq {b b' : Bank} (h : b.SameVisible b') (hv : b.valid = true)
    (hfull : b.buflen.toNat = 128) : b.buf = b'.buf := by
  obtain ⟨-, hregs⟩ := h
  obtain ⟨-, -, -, -, hbuf⟩ := hregs hv
  exact Vector.ext fun i hi => hbuf ⟨i, hi⟩ (by rw [hfull]; exact hi)

theorem append_sameVisible (r : Passes) (byte : Byte) {be be' : Bank × Engine}
    (h : be.1.SameVisible be'.1) (hv : be.1.valid = true) (hroom : be.1.buflen.toNat < 128) :
    (append r be byte).1.SameVisible (append r be' byte).1 := by
  have hstore := h.store hv hroom byte
  obtain ⟨hvalid, hregs⟩ := h
  obtain ⟨hcfg, hh, hcount, hbuflen, -⟩ := hregs hv
  by_cases hn : be.1.buflen.toNat = 127
  · have hbuf : (be.1.store byte).buf = (be'.1.store byte).buf :=
      hstore.buf_eq hv (by rw [Bank.store_buflen_toNat byte hroom, hn])
    rw [append_full r be byte hn, append_full r be' byte (hbuflen ▸ hn)]
    refine ⟨hvalid, fun _ => ⟨hcfg, ?_, congrArg (· + 1) hcount, rfl, fun i hi => absurd hi (by simp)⟩⟩
    simp only [Bank.clearBuffer_h, xform_h, Bank.store_h, hbuf, hh]
  · rw [append_store r be byte hn, append_store r be' byte (hbuflen ▸ hn)]
    exact hstore

/-- R27, R28: what feeding leaves visible does not depend on the engine or on stale bytes. -/
theorem feed_sameVisible (r : Passes) (bytes : List Byte) {be be' : Bank × Engine}
    (h : be.1.SameVisible be'.1) (hv : be.1.valid = true) (hroom : be.1.buflen.toNat < 128) :
    (feed r bytes be).1.SameVisible (feed r bytes be').1 := by
  induction bytes generalizing be be' with
  | nil => exact h
  | cons byte bytes ih =>
    refine ih (append_sameVisible r byte h hv hroom) ((append_valid ..).trans hv) ?_
    rw [append_buflen r be byte hroom]
    exact Nat.mod_lt _ (by decide)

theorem Bank.SameVisible.fed {b b' : Bank} (h : b.SameVisible b') (hv : b.valid = true)
    (hroom : b.buflen.toNat < 128) (r : Passes) (bytes : List Byte) :
    (b.fed r bytes).SameVisible (b'.fed r bytes) :=
  feed_sameVisible r bytes (be := (b, _)) (be' := (b', _)) h hv hroom

theorem Bank.fed_valid (r : Passes) (bytes : List Byte) (b : Bank) : (b.fed r bytes).valid = b.valid :=
  feed_valid ..

theorem Bank.SameVisible.h_eq {b b' : Bank} (h : b.SameVisible b') (hv : b.valid = true) :
    b.h = b'.h := by
  obtain ⟨-, hregs⟩ := h
  obtain ⟨-, hh, -⟩ := hregs hv
  exact hh

theorem Bank.SameVisible.ctxReset {b b' : Bank} (h : b.SameVisible b') :
    b.ctxReset.SameVisible b'.ctxReset := by
  obtain ⟨hvalid, hregs⟩ := h
  refine ⟨hvalid, fun hv => ?_⟩
  obtain ⟨hcfg, -⟩ := hregs hv
  exact ⟨hcfg, rfl, rfl, rfl, fun _ _ => rfl⟩

theorem Bank.SameVisible.ready?_eq {b b' : Bank} (h : b.SameVisible b') (hv : b.valid = true) :
    b.ready? = b'.ready? := by
  obtain ⟨-, hregs⟩ := h
  obtain ⟨hcfg, -, -, hbuflen, -⟩ := hregs hv
  rw [Bank.ready?, Bank.ready?, hcfg, hbuflen]

/-! ### Commands on one bank -/

/-- Two outcomes of a bank the host cannot tell apart. -/
def SameVerdict : Option (Bank × Response) → Option (Bank × Response) → Prop :=
  Option.Rel fun p q => p.1.SameVisible q.1 ∧ p.2 = q.2

section Checks

variable {b b' : Bank} {v v' : Option (Bank × Response)}

theorem sameVerdict_some (h : b.SameVisible b') (r : Response) :
    SameVerdict (some (b, r)) (some (b', r)) := .some ⟨h, rfl⟩

theorem sameVerdict_valid (h : b.SameVisible b') (r : Response)
    (hk : b.valid = true → SameVerdict v v') :
    SameVerdict (if b.valid then v else some (b, r)) (if b'.valid then v' else some (b', r)) := by
  have ⟨hvalid, _⟩ := h
  cases hv : b.valid with
  | true =>
    rw [← hvalid, hv]
    exact hk hv
  | false =>
    rw [← hvalid, hv]
    exact sameVerdict_some h r

theorem sameVerdict_ready {w w' : Setup → Option (Bank × Response)} (h : b.SameVisible b')
    (hv : b.valid = true) (hk : ∀ st, b.buflen.toNat < 128 → SameVerdict (w st) (w' st)) :
    SameVerdict (b.ready?.bind w) (b'.ready?.bind w') := by
  rw [← h.ready?_eq hv]
  cases hst : b.ready? with
  | none => exact .none
  | some st =>
    obtain ⟨hroom, -⟩ := (b.ready?_eq st).1 hst
    exact hk st hroom

theorem sameVerdict_setup {w w' : Setup → Option (Bank × Response)} (h : b.SameVisible b')
    (r : Response) (o : Option Setup) (hk : ∀ st, SameVerdict (w st) (w' st)) :
    SameVerdict (o.elim (some (b, r)) w) (o.elim (some (b', r)) w') := by
  cases o with
  | none => exact sameVerdict_some h r
  | some st => exact hk st

theorem sameVerdict_ite (h : b.SameVisible b') (r : Response) {p : Bool}
    (hk : p = true → SameVerdict v v') :
    SameVerdict (if p then v else some (b, r)) (if p then v' else some (b', r)) := by
  cases p with
  | true => exact hk rfl
  | false => exact sameVerdict_some h r

end Checks

/-- A command on one bank respects what the host can observe of the bank and of `IN`. -/
theorem BankCommand.outcome_sameVisible {s t : State} (hinSize : s.inSize = t.inSize)
    (hread : ∀ a : Nat, a < s.inSize → Memory.read s.input a = Memory.read t.input a) {b b' : Bank}
    (h : b.SameVisible b') (x : BankCommand) : SameVerdict (x.outcome s b) (x.outcome t b') := by
  have hbytes (d : Desc) (hd : descAdmitted d s.inSize = true) : s.inputBytes d = t.inputBytes d :=
    State.inputBytes_congr hread ((admitted_iff s d).2 hd)
  cases x with
  | init => exact sameVerdict_setup h _ _ fun st => sameVerdict_some (.refl _) _
  | initu hsize rounds d =>
    refine sameVerdict_setup h _ _ fun st => ?_
    rw [← hinSize]
    refine sameVerdict_ite h _ fun hd => ?_
    rw [hbytes d hd]
    exact sameVerdict_some (.refl _) _
  | upd1 =>
    exact sameVerdict_valid h _ fun hv => sameVerdict_ready h hv fun st hroom =>
      sameVerdict_some (h.fed hv hroom _ _) _
  | updn d =>
    refine sameVerdict_valid h _ fun hv => ?_
    rw [← hinSize]
    refine sameVerdict_ite h _ fun hd => ?_
    rw [hbytes d hd]
    exact sameVerdict_ready h hv fun st hroom => sameVerdict_some (h.fed hv hroom _ _) _
  | digest =>
    refine sameVerdict_valid h _ fun hv => sameVerdict_ready h hv fun st hroom => ?_
    have ⟨_, hregs⟩ := h
    obtain ⟨-, -, hcount, -⟩ := hregs hv
    have hfed := h.fed hv hroom st.passes (padBytes b.count st)
    rw [← hcount, hfed.h_eq ((Bank.fed_valid ..).trans hv)]
    exact sameVerdict_some hfed.ctxReset _
  | reset => exact sameVerdict_valid h _ fun hv => sameVerdict_some h.ctxReset _
  | hsz =>
    refine sameVerdict_valid h _ fun hv => ?_
    have ⟨_, hregs⟩ := h
    obtain ⟨hcfg, -⟩ := hregs hv
    rw [← hcfg]
    exact sameVerdict_some h _

/-! ### States -/

theorem forall₂_set {α β : Type} {R : α → β → Prop} {xs : List α} {ys : List β} {a : α} {b : β}
    (h : List.Forall₂ R xs ys) (hab : R a b) (n : Nat) :
    List.Forall₂ R (xs.set n a) (ys.set n b) := by
  induction h generalizing n with
  | nil => exact .nil
  | cons hxy hs ih =>
    cases n with
    | zero => exact .cons hab hs
    | succ n => exact .cons hxy (ih n)

theorem forall₂_getElem? {α β : Type} {R : α → β → Prop} {xs : List α} {ys : List β}
    (h : List.Forall₂ R xs ys) (n : Nat) : Option.Rel R xs[n]? ys[n]? := by
  induction h generalizing n with
  | nil => exact .none
  | cons hxy _ ih =>
    cases n with
    | zero => exact .some hxy
    | succ n => exact ih n

section States

variable {s t : State}

/-- Alike states have the same banks, each pair alike. -/
theorem State.SameVisible.bank? (h : s.SameVisible t) (c : BankNo) :
    (s.bank? c = none ∧ t.bank? c = none) ∨
      ∃ b b', s.bank? c = some b ∧ t.bank? c = some b' ∧ b.SameVisible b' := by
  obtain ⟨-, -, -, -, hbanks⟩ := h
  have hrel : Option.Rel Bank.SameVisible (s.bank? c) (t.bank? c) := forall₂_getElem? hbanks c.toNat
  generalize s.bank? c = o at hrel
  generalize t.bank? c = o' at hrel
  cases hrel with
  | none => exact .inl ⟨rfl, rfl⟩
  | some hb => exact .inr ⟨_, _, rfl, rfl, hb⟩

theorem State.SameVisible.nctx (h : s.SameVisible t) : s.nctx = t.nctx := by
  obtain ⟨-, -, -, -, hbanks⟩ := h
  exact hbanks.length_eq

/-- States with the same banks, parameters, `IN` and port. -/
theorem State.SameVisible.of_eq (hsize : s.inSize = t.inSize) (hname : s.algName = t.algName)
    (hport : s.port = t.port) (hinput : s.input = t.input) (hbanks : s.banks = t.banks) :
    s.SameVisible t :=
  ⟨hsize, hname, hport, fun _ _ => by rw [hinput],
    hbanks ▸ List.forall₂_same.2 fun b _ => Bank.SameVisible.refl b⟩

/-- R31: neither the engine nor the response of an earlier command is observable. -/
theorem State.SameVisible.putFed (h : s.SameVisible t) (c : BankNo) {be be' : Bank × Engine}
    (hb : be.1.SameVisible be'.1) : (s.putFed c be).SameVisible (t.putFed c be') := by
  obtain ⟨hsize, hname, hport, hread, hbanks⟩ := h
  exact ⟨hsize, hname, hport, hread, forall₂_set hbanks hb c.toNat⟩

theorem State.SameVisible.consume (h : s.SameVisible t) (rest : List Word) :
    (s.consume rest).SameVisible (t.consume rest) := by
  obtain ⟨hsize, hname, -, hread, hbanks⟩ := h
  exact ⟨hsize, hname, rfl, hread, hbanks⟩

/-- Two outcomes the host cannot tell apart: the same response, and states it cannot tell apart; or the
same fault. -/
inductive SameOutcome : Host.Outcome State Fault Refusal → Host.Outcome State Fault Refusal → Prop
  | next {s t : State} (hresp : s.resp = t.resp) (h : s.SameVisible t) : SameOutcome (.next s) (.next t)
  | fault (r : Fault) : SameOutcome (.fault r) (.fault r)

theorem sameOutcome_answer (h : s.SameVisible t) (r : Response) :
    SameOutcome (.next (s.answer r)) (.next (t.answer r)) := .next rfl h

/-! ### Commands -/

theorem exec_on_sameOutcome (h : s.SameVisible t) (x : BankCommand) (c : BankNo) :
    SameOutcome (exec (x.on c) s) (exec (x.on c) t) := by
  have ⟨hinSize, _, _, hread, _⟩ := h
  have hverdict : SameVerdict (x.outcomeAt s c) (x.outcomeAt t c) := by
    rcases h.bank? c with ⟨hs, ht⟩ | ⟨b, b', hs, ht, hb⟩ <;> simp only [BankCommand.outcomeAt, hs, ht]
    · exact sameVerdict_some (.refl _) _
    · exact x.outcome_sameVisible hinSize hread hb
  obtain ⟨e, he⟩ := exec_on x c s
  obtain ⟨e', he'⟩ := exec_on x c t
  rw [he, he']
  generalize x.outcomeAt s c = v at hverdict
  generalize x.outcomeAt t c = v' at hverdict
  cases hverdict with
  | none => exact .fault _
  | some hp =>
    obtain ⟨hb, hr⟩ := hp
    exact .next (congrArg some hr) (h.putFed c hb)

theorem withSlot_sameOutcome (h : s.SameVisible t) {c : BankNo}
    {k k' : Bank → Host.Outcome State Fault Refusal}
    (hk : ∀ b b', b.SameVisible b' → SameOutcome (k b) (k' b')) :
    SameOutcome (withSlot c s k) (withSlot c t k') := by
  rcases h.bank? c with ⟨hs, ht⟩ | ⟨b, b', hs, ht, hb⟩ <;> simp only [withSlot, hs, ht]
  · exact sameOutcome_answer h _
  · exact hk b b' hb

theorem execClone_sameOutcome (h : s.SameVisible t) (cd cs : BankNo) :
    SameOutcome (exec (.clone cd cs) s) (exec (.clone cd cs) t) := by
  refine withSlot_sameOutcome h fun _ _ _ => withSlot_sameOutcome h fun src src' hsrc => ?_
  obtain ⟨hvalid, hregs⟩ := hsrc
  rw [← hvalid]
  split
  next hv =>
    exact .next rfl
      (h.putFed cd (be := (_, s.engine)) (be' := (_, t.engine)) ⟨rfl, fun _ => hregs hv⟩)
  next => exact sameOutcome_answer h _

theorem withInput_sameOutcome (h : s.SameVisible t) {d : Desc}
    {k k' : List Byte → Host.Outcome State Fault Refusal}
    (hk : ∀ bytes, SameOutcome (k bytes) (k' bytes)) :
    SameOutcome (withInput d s k) (withInput d t k') := by
  have ⟨hinSize, _, _, hread, _⟩ := h
  rcases withInput_cases d s k with ⟨hd, he⟩ | ⟨hd, he⟩ <;> rw [he, withInput, ← hinSize, hd]
  · exact sameOutcome_answer h _
  · rw [State.inputBytes_congr hread ((admitted_iff s d).2 hd)]
    exact hk _

/-- R237: HASH returns the digest of its input, whatever the scratch bank and the engine hold. -/
theorem execHash_sameOutcome (h : s.SameVisible t) (hsize rounds : Byte) (d : Desc) :
    SameOutcome (exec (.hash hsize rounds d) s) (exec (.hash hsize rounds d) t) := by
  have ⟨hinSize, _, _, hread, _⟩ := h
  by_cases hlegal : LegalSetup hsize rounds
  · by_cases hd : Admitted s d
    · obtain ⟨st, hst⟩ := (legalSetup_iff hsize rounds).1 hlegal
      rw [exec_hash hst hd, exec_hash hst ((admitted_congr hinSize d).1 hd),
        State.inputBytes_congr hread hd]
      exact .next rfl h
    · rw [exec_hash_not_admitted hlegal hd,
        exec_hash_not_admitted hlegal (mt (admitted_congr hinSize d).2 hd)]
      exact .next rfl h
  · rw [exec_hash_illegal d hlegal, exec_hash_illegal d hlegal]
    exact .next rfl h

/-- R31: every command respects what the host can observe. -/
theorem exec_sameOutcome (h : s.SameVisible t) (i : Instr) : SameOutcome (exec i s) (exec i t) := by
  cases i with
  | init c hsize rounds => exact exec_on_sameOutcome h (.init hsize rounds) c
  | initu c hsize rounds d => exact exec_on_sameOutcome h (.initu hsize rounds d) c
  | upd1 c byte => exact exec_on_sameOutcome h (.upd1 byte) c
  | updn c d => exact exec_on_sameOutcome h (.updn d) c
  | digest c => exact exec_on_sameOutcome h .digest c
  | reset c => exact exec_on_sameOutcome h .reset c
  | hsz c => exact exec_on_sameOutcome h .hsz c
  | clone cd cs => exact execClone_sameOutcome h cd cs
  | blksz => exact sameOutcome_answer h _
  | name =>
    have ⟨_, hname, _, _, _⟩ := h
    exact .next (congrArg (fun name => some (Response.ok 0 name)) hname) h
  | hash hsize rounds d => exact execHash_sameOutcome h hsize rounds d
  | hexenc d =>
    rw [exec_hexenc_eq, exec_hexenc_eq]
    exact withInput_sameOutcome h fun _ => sameOutcome_answer h _
  | hexval d =>
    rw [exec_hexval_eq, exec_hexval_eq]
    refine withInput_sameOutcome h fun _ => ?_
    split
    · exact sameOutcome_answer h _
    · split
      · exact sameOutcome_answer h _
      · exact sameOutcome_answer h _

theorem step_sameOutcome (h : s.SameVisible t) : SameOutcome (step s) (step t) := by
  have ⟨_, _, hport, _, _⟩ := h
  have hfetch : t.fetch = s.fetch := by rw [State.fetch, State.fetch, hport, h.nctx]
  unfold step
  rw [hfetch]
  cases s.fetch with
  | incomplete => exact .next rfl h
  | reserved _ rest => exact sameOutcome_answer (h.consume rest) _
  | command i rest => exact exec_sameOutcome (h.consume rest) i

/-- States the host cannot tell apart answer every sequence of commands alike. -/
theorem responses_sameVisible (commands : List Instr) (h : s.SameVisible t) :
    responses commands s = responses commands t := by
  induction commands generalizing s t with
  | nil => rfl
  | cons i is ih =>
    have hsame := exec_sameOutcome h i
    rw [responses, responses]
    generalize exec i s = o at hsame
    generalize exec i t = o' at hsame
    cases hsame with
    | next hresp h =>
      simp only [hresp, ih h]
    | fault => rfl

end States

/-- Settles O44: a step respects what the host can observe, and under the invariant it gives a next state.
-/
theorem unobservableState : Obligations.UnobservableState := by
  intro s t hs _ h
  obtain ⟨s', hs'⟩ := stepNeverStops s hs
  have hsame := step_sameOutcome h
  rw [hs'] at hsame ⊢
  generalize step t = o at hsame ⊢
  cases hsame with
  | next hresp h => exact ⟨s', _, rfl, rfl, hresp, h⟩

/-- Settles O28: all three leave the initial state of the configuration in the bank, and nothing else the
host can observe. -/
theorem resetEqualsFresh : Obligations.ResetEqualsFresh := by
  intro s c b hb hv hok
  obtain ⟨st, hf⟩ := hok.exists_feedable hv
  have ⟨_, hcfg, _⟩ := hf
  have hreset : exec (.reset c) s = .next ((s.setBank c b.ctxReset).answer okResponse) :=
    withInstance_valid c s _ b hb hv
  have hdigest := exec_digest hb hf
  have hinit := exec_init hb (setupOf?_of_setupOfCfg? hcfg)
  rw [Bank.ctxReset_eq_initialBank hv, ← cfg_of_setupOfCfg? b.cfg st hcfg] at hreset
  rw [padded_ctxReset hf] at hdigest
  refine ⟨_, _, _, hreset, hdigest, hinit, fun commands => ⟨rfl, ?_⟩⟩
  exact responses_sameVisible commands (.of_eq rfl rfl rfl rfl rfl)

end Sys2Proof.Machine
end

section
/-! SUPPORT. Facts of the ROM and the word operators (spec/42_tables.md R202 to R213; spec/41_compress.md R165,
R172). -/

namespace Sys2Proof.Machine

open Sys2Proof.Claims

/-- Settles O51: the bits of the two shifts do not overlap, and each bit of the word is in one of them. -/
theorem rotationMovesBits : Obligations.RotationMovesBits := by
  intro a k i hk hk32 hi
  rw [rotr, BitVec.getLsbD_or, BitVec.getLsbD_ushiftRight, BitVec.getLsbD_shiftLeft]
  rcases Nat.lt_or_ge i k with hlt | hge
  · rw [Nat.mod_eq_of_lt (show i + 32 - k < 32 by omega),
      BitVec.getLsbD_of_ge a (k + (i + 32 - k)) (by omega), show i + 32 - k - (32 - k) = i by omega]
    simp only [Bool.false_or, Bool.and_eq_right_iff_imp, Bool.and_eq_true, decide_eq_true_eq,
      Bool.not_eq_true', decide_eq_false_iff_not]
    omega
  · rw [show (i + 32 - k) % 32 = i - k by omega, show k + (i - k) = i by omega]
    have hlow : i - k < 32 - k := by omega
    simp [hlow]

/-- R165: the constants of the passes after the first are consecutive runs of `K`. -/
theorem roundConst_eq_K (p : Pass) (s : Fin 32) (i : Fin 128) (hp : 2 ≤ p.number)
    (hi : i.val = 32 * (p.number - 2) + s.val) : roundConst p s = K i := by
  have hrun (offset : Nat) (h : i.val = offset + s.val) (hlt : offset + s.val < 128) :
      K ⟨offset + s.val, hlt⟩ = K i := congrArg K (Fin.ext h.symm)
  cases p with
  | p1 => exact absurd hp (by decide)
  | p2 => exact congrArg K (Fin.ext (by rw [hi]; exact (Nat.zero_add _).symm))
  | p3 => exact hrun 32 hi _
  | p4 => exact hrun 64 hi _
  | p5 => exact hrun 96 hi _

/-- R165, R167: the passes of every schedule are numbered from 1 in order. -/
theorem schedule_number (r : Passes) :
    (schedule r).map (fun pw => pw.1.number) = (List.range r.count).map (· + 1) := by
  cases r <;> rfl

theorem schedule_length (r : Passes) : (schedule r).length = r.count := by
  cases r <;> rfl

/-- Settles O53: place `k` of the schedule has the number at place `k` of 1 to `r`. -/
theorem passSelection : Obligations.PassSelection := by
  refine ⟨schedule_length, fun r k pw hpw => ?_, fun s => rfl, roundConst_eq_K,
    fun _ _ _ _ _ _ _ => ⟨rfl, rfl, rfl, rfl, rfl⟩⟩
  have hnumber : ((schedule r).map fun pw => pw.1.number)[k]? = some pw.1.number := by
    rw [List.getElem?_map, hpw, Option.map_some]
  obtain ⟨hk, -⟩ := List.getElem?_eq_some_iff.1 hpw
  rw [schedule_number, List.getElem?_map, List.getElem?_range (schedule_length r ▸ hk)] at hnumber
  exact (Option.some.inj hnumber).symm

/-- Settles O54: the tables are finite, and the passes of a schedule are numbered in order. -/
theorem romTableProperties : Obligations.RomTableProperties := by
  refine ⟨by decide, rfl, by decide, by decide, fun r _ => ⟨schedule_number r, by cases r <;> decide⟩, ?_⟩
  decide

end Sys2Proof.Machine
end

section
/-! SUPPORT. The other two forms of the compression compute what the indexed form does: the rotating list
(spec/41_compress.md R169, R170) and the sequencer's walk (spec/10_state.md R36, R37). -/

namespace Sys2Proof.Machine

/-! ### The rotating list -/

/-- The list of R170 when step `n` is next: slot `j` holds the role register `x_{6-j}`. -/
def rotatingList (t : Vector Word 8) (n : Nat) : Vector Word 8 :=
  Vector.ofFn fun j => t.get (6 - j - Fin.ofNat 8 n)

theorem rotatingList_get (t : Vector Word 8) (n : Nat) (j : Fin 8) :
    (rotatingList t n).get j = t.get (6 - j - Fin.ofNat 8 n) := Vector.getElem_ofFn j.isLt

theorem rotateLeft_get (l : Vector Word 8) (j : Fin 8) : (rotateLeft l).get j = l.get (j + 1) :=
  Vector.getElem_ofFn j.isLt

theorem rotateRight_get (l : Vector Word 8) (j : Fin 8) : (rotateRight l).get j = l.get (j - 1) :=
  Vector.getElem_ofFn j.isLt

theorem vector_reverse_get (l : Vector Word 8) (j : Fin 8) : l.reverse.get j = l.get (7 - j) := by
  have hrev : (7 - j).val = 8 - 1 - j.val := by revert j; decide
  rw [Vector.get_eq_getElem, Vector.getElem_reverse, Vector.get_eq_getElem]
  simp only [hrev]

theorem vector_set_get (l : Vector Word 8) (k j : Fin 8) (v : Word) :
    (l.set k v).get j = if j = k then v else l.get j := by
  rw [Vector.get_eq_getElem, Vector.getElem_set]
  exact if_congr (by rw [Fin.ext_iff, eq_comm]) rfl rfl

theorem vector_ext_get {l l' : Vector Word 8} (h : ∀ j : Fin 8, l.get j = l'.get j) : l = l' :=
  Vector.ext fun i hi => h ⟨i, hi⟩

/-- R170: the roles of the list are those of the indexed form. -/
theorem listRole_rotatingList (t : Vector Word 8) (s : Fin 32) :
    listRole (rotatingList t s.val) = role t s := by
  have hcancel : ∀ k : Fin 8, 6 - (6 - k) = k := by decide
  funext k
  rw [listRole, rotatingList_get, hcancel]
  rfl

/-- R170, C4: writing slot 7 and rotating is writing the register in role 7 and going on to the next
step. -/
theorem listStep_rotatingList (p : Pass) (w : Wiring) (x : Vector Word 32) (t : Vector Word 8)
    (s : Fin 32) :
    listStep p w x (rotatingList t s.val) s = rotatingList (mixStep p w x t s) (s.val + 1) := by
  have hnext : Fin.ofNat 8 (s.val + 1) = Fin.ofNat 8 s.val + 1 := Fin.ext (by simp [Fin.val_add])
  have hslot : ∀ j m : Fin 8, 6 - j - (m + 1) = 6 - (j + 1) - m := by decide
  have hrole7 : ∀ j m : Fin 8, j + 1 = 7 ↔ 6 - (j + 1) - m = 7 - m := by decide
  refine vector_ext_get fun j => ?_
  rw [rotatingList_get, hnext, hslot, listStep, rotateLeft_get, listRole_rotatingList, mixStep]
  refine (vector_set_get _ 7 (j + 1) _).trans ?_
  rw [vector_set_get, rotatingList_get]
  exact if_congr (hrole7 j _) rfl rfl

/-- Steps in order from step `n`. -/
theorem foldl_listStep (p : Pass) (w : Wiring) (x : Vector Word 32) (steps : List (Fin 32))
    (t : Vector Word 8) (n : Nat) (hsteps : steps.map Fin.val = List.range' n steps.length) :
    steps.foldl (listStep p w x) (rotatingList t n) =
      rotatingList (steps.foldl (mixStep p w x) t) (n + steps.length) := by
  induction steps generalizing t n with
  | nil => rfl
  | cons s steps ih =>
    rw [List.map_cons, List.length_cons, List.range'_succ] at hsteps
    obtain ⟨rfl, hsteps⟩ := List.cons.inj hsteps
    rw [List.foldl_cons, listStep_rotatingList, ih _ _ hsteps, List.foldl_cons, List.length_cons,
      Nat.add_right_comm, Nat.add_assoc]

theorem listPass_rotatingList (x : Vector Word 32) (t : Vector Word 8) (pw : Pass × Wiring) :
    listPass x (rotatingList t 0) pw = rotatingList (mixPass x t pw) 0 :=
  foldl_listStep pw.1 pw.2 x (List.finRange 32) t 0 (by decide)

/-- R170: the seed, reversed and rotated, is the list before step 0. -/
theorem listSeed_eq (h : Vector Word 8) : listSeed h = rotatingList (seed h) 0 := by
  have hindex : ∀ j : Fin 8, 7 - (j + 1) = 6 - j - Fin.ofNat 8 0 := by decide
  refine vector_ext_get fun j => ?_
  rw [listSeed, rotateLeft_get, vector_reverse_get, rotatingList_get, hindex]
  rfl

/-- R170: rotating right and reversing undo the seed. -/
theorem rotateRight_reverse_rotatingList (t : Vector Word 8) :
    (rotateRight (rotatingList t 0)).reverse = t := by
  have hindex : ∀ j : Fin 8, 6 - (7 - j - 1) - Fin.ofNat 8 0 = j := by decide
  refine vector_ext_get fun j => ?_
  rw [vector_reverse_get, rotateRight_get, rotatingList_get, hindex]

/-- Settles O49: the list holds the role registers in order from the seed to the last step. -/
theorem listFormEqualsIndexedForm : Obligations.ListFormEqualsIndexedForm := by
  intro r h block
  have hpasses : (schedule r).foldl (listPass (loadX block)) (rotatingList (seed h) 0) =
      rotatingList (mixAll r (loadX block) (seed h)) 0 :=
    List.foldl_hom (rotatingList · 0) fun t pw => listPass_rotatingList (loadX block) t pw
  rw [listCompress, listSeed_eq, hpasses, rotateRight_reverse_rotatingList, compress]

/-! ### The sequencer's walk -/

theorem seqRun_add (r : Passes) (block : Vector Byte 128) (m n : Nat) (he : Vector Word 8 × Engine) :
    seqRun r block (m + n) he = seqRun r block n (seqRun r block m he) := by
  induction m generalizing he with
  | zero => rw [Nat.zero_add, seqRun]
  | succ m ih => rw [Nat.add_right_comm, seqRun, ih, seqRun]

theorem seqRun_one (r : Passes) (block : Vector Byte 128) (he : Vector Word 8 × Engine) :
    seqRun r block 1 he = seqTick r block he := rfl

/-- `SEQ` in pass `p` (numbered from 0) at step `s`. -/
def mixPosition (p s : Nat) : Seq :=
  { phase := .mix, pass := BitVec.ofNat 3 (p + 1), step := BitVec.ofNat 5 s }

section Walk

variable (r : Passes) (block : Vector Byte 128) (h : Vector Word 8) (fresh : Nat)

/-- The registers while the block is mixed: only `SEQ` and `T` change. -/
def walking (q : Seq) (t : Vector Word 8) : Vector Word 8 × Engine :=
  (h, { t := t, x := loadX block, seq := q, fresh := fresh })

/-- R37: IDLE, LOAD and SEED lead to the first step of the first pass. -/
theorem seqRun_seed {e : Engine} (he : e.seq.phase = .idle) :
    (seqRun r block 1 (h, e)).2.seq.phase = .load ∧ (seqRun r block 2 (h, e)).2.seq.phase = .seed ∧
      seqRun r block 3 (h, e) = walking block h e.fresh (mixPosition 0 0) (seed h) := by
  simp [seqRun, seqTick, seqWork, seqNext, he, walking, mixPosition]

theorem mixPosition_next (p s : Nat) :
    { mixPosition p s with step := (mixPosition p s).step + 1 } = mixPosition p (s + 1) := by
  simp [mixPosition, BitVec.ofNat_add]

/-- R37: inside a pass the next step follows. -/
theorem seqNext_step (p : Nat) {s : Nat} (hs : s < 31) :
    seqNext r (mixPosition p s) = mixPosition p (s + 1) := by
  have hne : (mixPosition p s).step ≠ 31 := by
    intro heq
    have hval : s % 32 = 31 := by simpa [mixPosition] using congrArg BitVec.toNat heq
    omega
  rw [← mixPosition_next]
  exact if_neg hne

variable {r} {p : Nat} {pw : Pass × Wiring} (hrow : (schedule r)[p]? = some pw)
include hrow

theorem pass_toNat : (mixPosition p 0).pass.toNat = p + 1 := by
  obtain ⟨hp, -⟩ := List.getElem?_eq_some_iff.1 hrow
  have hcount : (schedule r).length ≤ 5 := by cases r <;> decide
  exact (BitVec.toNat_ofNat ..).trans (Nat.mod_eq_of_lt (by omega))

/-- R37: after the last step of the last pass the sequencer is in FEED. -/
theorem seqNext_last_pass (hp : p + 1 = r.count) : (seqNext r (mixPosition p 31)).phase = .feed := by
  have hpass : (mixPosition p 31).pass.toNat = r.count := (pass_toNat hrow).trans hp
  exact congrArg Seq.phase ((if_pos rfl).trans (if_pos hpass))

/-- R37: after the last step of any other pass comes the first step of the next. -/
theorem seqNext_next_pass (hp : p + 1 ≠ r.count) :
    seqNext r (mixPosition p 31) = mixPosition (p + 1) 0 := by
  have hpass : (mixPosition p 31).pass.toNat ≠ r.count := (pass_toNat hrow).trans_ne hp
  have hmix : (mixPosition p 31).phase = .mix := rfl
  have hstep : (mixPosition p 31).step = 31 := rfl
  simp only [seqNext, hmix, hstep, if_true, hpass, if_false]
  simp [mixPosition, BitVec.ofNat_add]

/-- R37: a position of the MIX phase does one step and goes on. -/
theorem seqTick_mix {s : Nat} (hs : s < 32) (t : Vector Word 8) :
    seqTick r block (walking block h fresh (mixPosition p s) t) =
      walking block h fresh (seqNext r (mixPosition p s))
        (mixStep pw.1 pw.2 (loadX block) t ⟨s, hs⟩) := by
  have hpass : (mixPosition p s).pass.toNat = p + 1 := pass_toNat hrow
  have hstep : (mixPosition p s).step.toNat = s := Nat.mod_eq_of_lt hs
  have hmix : (mixPosition p s).phase = .mix := rfl
  simp only [seqTick, seqWork, walking, hmix, scheduleRow, hpass, hstep, Nat.add_sub_cancel, hrow]

/-- The first steps of a pass. -/
theorem seqRun_steps {s : Nat} (hs : s < 32) (t : Vector Word 8) :
    seqRun r block s (walking block h fresh (mixPosition p 0) t) =
      walking block h fresh (mixPosition p s)
        (((List.finRange 32).take s).foldl (mixStep pw.1 pw.2 (loadX block)) t) := by
  induction s with
  | zero => rfl
  | succ s ih =>
    have hget : (List.finRange 32)[s]? = some ⟨s, by omega⟩ := by
      rw [List.getElem?_eq_getElem (by simp; omega), List.getElem_finRange]
      rfl
    rw [seqRun_add, ih (by omega), seqRun_one, seqTick_mix block h fresh hrow (by omega),
      seqNext_step r p (by omega), List.take_add_one, hget, List.foldl_append]
    rfl

/-- A whole pass. -/
theorem seqRun_pass (t : Vector Word 8) :
    seqRun r block 32 (walking block h fresh (mixPosition p 0) t) =
      walking block h fresh (seqNext r (mixPosition p 31)) (mixPass (loadX block) t pw) := by
  have hlast : List.finRange 32 = (List.finRange 32).take 31 ++ [31] := by decide
  rw [seqRun_add r block 31 1, seqRun_steps block h fresh hrow (by omega), seqRun_one,
    seqTick_mix block h fresh hrow (by omega), mixPass, hlast, List.foldl_append]
  rfl

end Walk

/-- The passes of the schedule by number. -/
theorem exists_row {r : Passes} {p : Nat} (hp : p < r.count) : ∃ pw, (schedule r)[p]? = some pw :=
  ⟨_, List.getElem?_eq_getElem ((schedule_length r).symm ▸ hp)⟩

/-- The first passes of the schedule. -/
theorem seqRun_passes {r : Passes} (block : Vector Byte 128) (h : Vector Word 8) (fresh : Nat) {p : Nat}
    (hp : p < r.count) :
    seqRun r block (32 * p) (walking block h fresh (mixPosition 0 0) (seed h)) =
      walking block h fresh (mixPosition p 0)
        (((schedule r).take p).foldl (mixPass (loadX block)) (seed h)) := by
  induction p with
  | zero => rfl
  | succ p ih =>
    obtain ⟨pw, hrow⟩ := exists_row (r := r) (p := p) (by omega)
    rw [Nat.mul_succ, seqRun_add, ih (by omega), seqRun_pass block h fresh hrow,
      seqNext_next_pass hrow (by omega), List.take_add_one, hrow, List.foldl_append, Option.toList_some,
      List.foldl_cons, List.foldl_nil]

/-- All passes: the sequencer is in FEED, and `T` is mixed. -/
theorem seqRun_mixAll (r : Passes) (block : Vector Byte 128) (h : Vector Word 8) (fresh : Nat) :
    ∃ q : Seq, q.phase = .feed ∧
      seqRun r block (32 * r.count) (walking block h fresh (mixPosition 0 0) (seed h)) =
        walking block h fresh q (mixAll r (loadX block) (seed h)) := by
  obtain ⟨p, hp⟩ : ∃ p, r.count = p + 1 := by cases r <;> exact ⟨_, rfl⟩
  obtain ⟨pw, hrow⟩ := exists_row (r := r) (p := p) (by omega)
  have hall : schedule r = (schedule r).take p ++ [pw] := by
    have htake := List.take_add_one (l := schedule r) (i := p)
    rwa [← hp, ← schedule_length, List.take_length, hrow] at htake
  refine ⟨_, seqNext_last_pass hrow hp.symm, ?_⟩
  rw [hp, Nat.mul_succ, seqRun_add, seqRun_passes block h fresh (by omega),
    seqRun_pass block h fresh hrow, mixAll]
  conv_rhs => rw [hall, List.foldl_append, List.foldl_cons, List.foldl_nil]

/-- Settles O50: to the first step, through the passes, and then FEED and IDLE. -/
theorem sequencerComputesCompression : Obligations.SequencerComputesCompression := by
  intro r h block e he
  obtain ⟨hload, hseed, hstart⟩ := seqRun_seed r block h he
  obtain ⟨q, hfeed, hmixed⟩ := seqRun_mixAll r block h e.fresh
  have hend : seqRun r block (3 + 32 * r.count) (h, e) =
      walking block h e.fresh q (mixAll r (loadX block) (seed h)) := by
    rw [seqRun_add, hstart, hmixed]
  have hdone : seqRun r block (4 + 32 * r.count) (h, e) =
      seqTick r block (walking block h e.fresh q (mixAll r (loadX block) (seed h))) := by
    rw [show 4 + 32 * r.count = 3 + 32 * r.count + 1 by omega, seqRun_add, hend, seqRun_one]
  refine ⟨hload, hseed, fun p s hp hs => ?_, ?_, ?_, ?_⟩
  · obtain ⟨pw, hrow⟩ := exists_row hp
    rw [seqRun_add, seqRun_add, hstart, seqRun_passes block h e.fresh hp,
      seqRun_steps block h e.fresh hrow hs]
    rfl
  · rw [hend]
    exact hfeed
  · rw [hdone]
    simp only [seqTick, seqWork, walking, hfeed, seqNext]
  · rw [hdone]
    simp only [seqTick, seqWork, walking, hfeed]
    rfl

end Sys2Proof.Machine
end
